-- ==== Sys2Proof/Word.lean ====
section
/-!
DEFINITION. Bits, bit vectors and the header word (spec `00_scope.md` R12, R14, `30_encoding.md` R81, R82).

A register of the block is an ordered list of bits whose length changes at run time and to which the spec attaches no
integer value (R12), so it is a list of Booleans. Only the header of a command is a machine word.
-/

namespace Sys2Proof

/-- A bit vector `v[0], v[1], …`, index 0 the register start (R12). -/
abbrev Bits := List Bool

/-- The 32-bit header word of a command (R82). -/
abbrev Header := BitVec 32

end Sys2Proof
end

