-- ==== Sys2Proof/Config.lean ====
section
/-!
DEFINITION. The bounds of the command encoding, the open parameters of the spec and its free values
(`00_scope.md` R9 to R11, `92_eei_decisions.md`, `93_implementation_defined.md`).
-/

namespace Sys2Proof

/-- `MMAX`: the longest vector a command can carry (R10, R81). -/
abbrev mMax : Nat := 128

/-- `KMAX`: the most Geffe components the slot field can name (R10, R83). -/
abbrev kMax : Nat := 8

/-- The two values of the parameter `GEFFE3_COMBINER` (`46_geffe3.md` R239). -/
inductive Combiner where
  /-- The source's formula as written; the default. -/
  | asDocumented
  /-- The published formula, from general knowledge. -/
  | published
  deriving DecidableEq, Repr

/-- The parameters the spec leaves open and "the model takes as an argument" (R11). The state carries one value of this
type, which no command writes, so that a statement about every state holds for every choice of the parameters
(log entry 5). -/
structure Config where
  /-- `A51_TAPS1`, for the engine of length 19 (R9). -/
  a51Taps1 : List Nat
  /-- `A51_TAPS2`, for the engine of length 22. -/
  a51Taps2 : List Nat
  /-- `A51_TAPS3`, for the engine of length 23. -/
  a51Taps3 : List Nat
  /-- `GEFFE_SEL_MSB_FIRST` (R222). -/
  geffeSelMsbFirst : Bool
  /-- `GEFFE3_COMBINER` (R239). -/
  geffe3Combiner : Combiner
  deriving DecidableEq, Repr

/-- The spec's defaults: R9 (the tap sets, PRESUMED: the spec takes them from general knowledge), D18, D20. -/
def Config.default : Config where
  a51Taps1 := [19, 18, 17, 14]
  a51Taps2 := [22, 21]
  a51Taps3 := [23, 22, 21, 8]
  geffeSelMsbFirst := true
  geffe3Combiner := .asDocumented

/-- The four units of the block (R2). -/
inductive UnitName where
  | lfsr | a51 | geffe | geffe3
  deriving DecidableEq, Repr

/-- FREE VALUE (R114, U1): cell `i` of the `n`-th random initial state drawn for an engine of the unit `u`. No law holds of it
(log entry 4). -/
opaque Config.drawBit (u : UnitName) (n i : Nat) : Bool

/-- FREE VALUE: what a composite reads where the index `i` names no cell of the register `v`, which the spec does not say; a
composite reset that restores an `init_state` of another length leads there (log entry 7). -/
opaque Config.absentCell (v : Bits) (i : Int) : Bool

/-- FREE VALUE: the `i`-th bit that the cycle number `n` of a Geffe unit draws from a selector that is not consistent, whose
register is `v`; the spec gives the step of such an engine no output (R135; log entry 7). -/
opaque Config.undrawnBit (v : Bits) (n i : Nat) : Bool

/-- FREE VALUE (U13): the run histogram of a constant (or empty) sequence, which the source does not give (log entry 11). -/
opaque Config.constantRuns (p : Bits) : List Nat

/-- FREE VALUE (U13): the run-length verdict for a histogram of fewer than two entries (log entry 11). -/
opaque Config.shortVerdict (runs : List Nat) : Bool

/-- FREE VALUE: `Rxx(k)` of the empty sequence, `T = 0`, which R180 admits and for which R185 divides by 0 (log entry 11). -/
opaque Config.emptyAutocorr (k : Nat) : Rat

/-- FREE VALUE: what the reference functions take as full period `i` of an engine that is not consistent, whose register is
`v`: its `E_RUN_FULL` raises, and R180 says that the functions never do (log entry 11). -/
opaque Config.unrunPeriod (v : Bits) (i : Nat) : Bits

end Sys2Proof
end

