-- ==== Sys2Proof/Syntax.lean ====
section
/-!
DEFINITION. The commands of the block as data: one constructor of `Instr` per row of `spec/opcode_table.json`, and the raw
command `(hdr, va, vb)` the port carries (`30_encoding.md` R81 to R90).

The operands are those of the abstract rules, which are wider than the encoding (`00_scope.md` R10): a tap operand is any
list of integers in any order, `k` and `K` are any naturals, an output index is any integer (log entry 8).
`WellFormed.lean` says which terms the encoding can carry.
-/

namespace Sys2Proof

/-- A command as the port carries it (R81): the header, the tap-mask vector and the state vector. -/
structure Command where
  hdr : Header
  va : Bits
  vb : Bits
  deriving DecidableEq, Repr

/-- `R1`, `R2`, `R3` of an A5/1 or a Geffe3 unit (R83). -/
inductive Reg3 where
  | r1 | r2 | r3
  deriving DecidableEq, Repr

/-- Which engine an `E_*` command addresses: the legal `(unit, slot)` pairs of R83. -/
inductive EngineRef where
  /-- Unit 0, slot 0: the standalone engine. -/
  | lfsr
  /-- Unit 1, slots 1 to 3. -/
  | a51 (r : Reg3)
  /-- Unit 2, slot 0: the selector `S`. -/
  | geffeS
  /-- Unit 2, slot `j + 1`: component `C[j]`. -/
  | geffeC (j : Fin kMax)
  /-- Unit 3, slots 1 to 3. -/
  | geffe3 (r : Reg3)
  deriving DecidableEq, Repr

/-- The configuration operand of `E_NEW` and `E_SET_CONF`: one of the two modes, or one of the two encoded values that
name neither (R85). -/
inductive ConfTag where
  | fibonacci | galois | neither2 | neither3
  deriving DecidableEq, Repr

/-- The counter-start policy (`10_state.md` R26): `zero` samples the output before the shift, `one` after it. -/
inductive Policy where
  | zero | one
  deriving DecidableEq, Repr

/-- `init_spec` of `E_NEW` (`40_lfsr_construction.md` R110). -/
inductive InitSpec where
  | allOnes
  | random
  | explicit (bits : Bits)
  deriving DecidableEq, Repr

/-- The 39 commands. -/
inductive Instr where
  /-- `E_NEW` (R110). -/
  | eNew (t : EngineRef) (taps : List Int) (init : InitSpec) (conf : ConfTag) (oidx : Int) (policy : Policy)
  /-- `E_STEP` (R130). -/
  | eStep (t : EngineRef)
  /-- `E_RUN` (R137). -/
  | eRun (t : EngineRef) (k : Nat)
  /-- `E_RUN_FULL` (R138). -/
  | eRunFull (t : EngineRef)
  /-- `E_RESET` (R152). -/
  | eReset (t : EngineRef)
  /-- `E_SET_POLY` (R154). -/
  | eSetPoly (t : EngineRef) (taps : List Int) (reset enforce : Bool)
  /-- `E_SET_STATE` (R157). -/
  | eSetState (t : EngineRef) (bits : Bits) (enforce : Bool)
  /-- `E_SET_CONF` (R159). -/
  | eSetConf (t : EngineRef) (conf : ConfTag)
  /-- `E_SET_OIDX` (R160). -/
  | eSetOidx (t : EngineRef) (oidx : Int)
  /-- `E_GET_STATE` (R162). -/
  | eGetState (t : EngineRef)
  /-- `E_GET_POLY` (R163). -/
  | eGetPoly (t : EngineRef)
  /-- `E_GET_SEQ` (R164). -/
  | eGetSeq (t : EngineRef)
  /-- `E_GET_COUNT` (R165). -/
  | eGetCount (t : EngineRef)
  /-- `E_GET_PERIOD` (R166). -/
  | eGetPeriod (t : EngineRef)
  /-- `E_GET_OUTBIT` (R167). -/
  | eGetOutbit (t : EngineRef)
  /-- `E_GET_FB` (R168). -/
  | eGetFb (t : EngineRef)
  /-- `A51_BUILD` (R196). -/
  | a51Build
  /-- `A51_STEP` (R198). -/
  | a51Step
  /-- `A51_RUN` (R204). -/
  | a51Run (k : Nat)
  /-- `A51_RESET` (R205). -/
  | a51Reset
  /-- `A51_GET_SEQ` (R206). -/
  | a51GetSeq
  /-- `A51_GET_COUNT` (R207). -/
  | a51GetCount
  /-- `A51_GET_OUTBIT` (R208). -/
  | a51GetOutbit
  /-- `A51_GET_CB` (R209). -/
  | a51GetCb
  /-- `GEFFE_BUILD` (R216). -/
  | geffeBuild (k : Nat)
  /-- `GEFFE_STEP` (R218). -/
  | geffeStep
  /-- `GEFFE_RUN` (R224). -/
  | geffeRun (k : Nat)
  /-- `GEFFE_RESET` (R225). -/
  | geffeReset
  /-- `GEFFE_GET_SEQ` (R226). -/
  | geffeGetSeq
  /-- `GEFFE_GET_COUNT` (R227). -/
  | geffeGetCount
  /-- `GEFFE_GET_OUTBIT` (R228). -/
  | geffeGetOutbit
  /-- `GEFFE_GET_SEL` (R229). -/
  | geffeGetSel
  /-- `GEFFE3_BUILD` (R236). -/
  | geffe3Build
  /-- `GEFFE3_STEP` (R238). -/
  | geffe3Step
  /-- `GEFFE3_RUN` (R241). -/
  | geffe3Run (k : Nat)
  /-- `GEFFE3_RESET` (R242). -/
  | geffe3Reset
  /-- `GEFFE3_GET_SEQ` (R243). -/
  | geffe3GetSeq
  /-- `GEFFE3_GET_COUNT` (R244). -/
  | geffe3GetCount
  /-- `GEFFE3_GET_OUTBIT` (R245). -/
  | geffe3GetOutbit
  deriving DecidableEq, Repr

end Sys2Proof
end

