-- ==== Sys2Proof/WellFormed.lean ====
section
/-!
DEFINITION. Which terms of `Instr` the command encoding can carry (`30_encoding.md` R81, R85, R87, R88; bounds `00_scope.md`
R10). A meaning does not depend on it: the abstract rules hold for every operand.
-/

namespace Sys2Proof

/-- A tap list that a mask names (R87): strictly ascending, every tap at least 1 and at most `MMAX`. -/
def tapsEncodable (taps : List Int) : Bool :=
  decide (taps.Pairwise (· < ·)) && taps.all fun p => decide (1 ≤ p) && decide (p ≤ (mMax : Int))

/-- A state vector the port carries (R81). -/
def bitsEncodable (v : Bits) : Bool := decide (v.length ≤ mMax)

/-- An output index that `oidx8` holds (R88). -/
def oidxEncodable (i : Int) : Bool := decide (-128 ≤ i) && decide (i ≤ 127)

/-- A `k` that `imm16` holds (R85). -/
def kEncodable (k : Nat) : Bool := decide (k < 2 ^ 16)

/-- A number of components that `imm16[3:0]` holds (R85). -/
def compsEncodable (k : Nat) : Bool := decide (k < 2 ^ 4)

/-- The vector part of `init_spec` fits the port. -/
def InitSpec.encodable : InitSpec → Bool
  | .allOnes => true
  | .random => true
  | .explicit bits => bitsEncodable bits

/-- The instruction can be carried by a command. -/
def Instr.wellFormed : Instr → Bool
  | .eNew _ taps init _ oidx _ => tapsEncodable taps && init.encodable && oidxEncodable oidx
  | .eStep _ => true
  | .eRun _ k => kEncodable k
  | .eRunFull _ => true
  | .eReset _ => true
  | .eSetPoly _ taps _ _ => tapsEncodable taps
  | .eSetState _ bits _ => bitsEncodable bits
  | .eSetConf _ _ => true
  | .eSetOidx _ oidx => oidxEncodable oidx
  | .eGetState _ => true
  | .eGetPoly _ => true
  | .eGetSeq _ => true
  | .eGetCount _ => true
  | .eGetPeriod _ => true
  | .eGetOutbit _ => true
  | .eGetFb _ => true
  | .a51Build => true
  | .a51Step => true
  | .a51Run k => kEncodable k
  | .a51Reset => true
  | .a51GetSeq => true
  | .a51GetCount => true
  | .a51GetOutbit => true
  | .a51GetCb => true
  | .geffeBuild k => compsEncodable k
  | .geffeStep => true
  | .geffeRun k => kEncodable k
  | .geffeReset => true
  | .geffeGetSeq => true
  | .geffeGetCount => true
  | .geffeGetOutbit => true
  | .geffeGetSel => true
  | .geffe3Build => true
  | .geffe3Step => true
  | .geffe3Run k => kEncodable k
  | .geffe3Reset => true
  | .geffe3GetSeq => true
  | .geffe3GetCount => true
  | .geffe3GetOutbit => true

end Sys2Proof
end

