-- ==== Sys2Proof/Decode.lean ====
section
/-!
DEFINITION. The decoder, total on every `(hdr, va, vb)`, which names the reason of every rejection, and after it the encoder
(`30_encoding.md` R81 to R91). The conditions of R93 that depend on whether a composite is built are not the decoder's:
the meanings check them.
-/

namespace Sys2Proof

/-- Why a command is reserved (R91). `vectorTooLong` is no case of R91: such a triple is no command at all (R81), and the
model answers it like a reserved one (log entry 6). -/
inductive Reserved where
  | vectorTooLong
  | unknownOpcode
  | reservedUnit
  | reservedSlot
  | mustBeZero
  | reservedInit
  | unexpectedVector
  deriving DecidableEq, Repr

/-! ### The fields of the header (R82) -/

def opField (h : Header) : BitVec 8 := h.extractLsb' 24 8
def unitField (h : Header) : BitVec 4 := h.extractLsb' 20 4
def slotField (h : Header) : BitVec 4 := h.extractLsb' 16 4
def immField (h : Header) : BitVec 16 := h.extractLsb' 0 16

/-- The header with these fields. -/
def header (op : BitVec 8) (unit slot : BitVec 4) (imm : BitVec 16) : Header := op ++ unit ++ slot ++ imm

/-! ### The opcode map (R84, R90) -/

/-- The engine class, `op` 0x01 to 0x1F. -/
inductive EOp where
  | new | step | run | runFull | reset | setPoly | setState | setConf | setOidx
  | getState | getPoly | getSeq | getCount | getPeriod | getOutbit | getFb
  deriving DecidableEq, Repr

/-- The composite class, `op` 0x20 to 0x2F. -/
inductive COp where
  | build | step | run | reset | getSeq | getCount | getOutbit | getAux
  deriving DecidableEq, Repr

/-- The two classes. -/
inductive Op where
  | engine (op : EOp)
  | composite (op : COp)
  deriving DecidableEq, Repr

/-- The table of R90. -/
def Op.ofByte (b : BitVec 8) : Option Op :=
  match b.toNat with
  | 0x01 => some (.engine .new)
  | 0x02 => some (.engine .step)
  | 0x03 => some (.engine .run)
  | 0x04 => some (.engine .runFull)
  | 0x05 => some (.engine .reset)
  | 0x06 => some (.engine .setPoly)
  | 0x07 => some (.engine .setState)
  | 0x08 => some (.engine .setConf)
  | 0x09 => some (.engine .setOidx)
  | 0x10 => some (.engine .getState)
  | 0x11 => some (.engine .getPoly)
  | 0x12 => some (.engine .getSeq)
  | 0x13 => some (.engine .getCount)
  | 0x14 => some (.engine .getPeriod)
  | 0x15 => some (.engine .getOutbit)
  | 0x16 => some (.engine .getFb)
  | 0x20 => some (.composite .build)
  | 0x21 => some (.composite .step)
  | 0x22 => some (.composite .run)
  | 0x23 => some (.composite .reset)
  | 0x28 => some (.composite .getSeq)
  | 0x29 => some (.composite .getCount)
  | 0x2A => some (.composite .getOutbit)
  | 0x2B => some (.composite .getAux)
  | _ => none

/-! ### Units and slots (R82, R83, R93) -/

/-- The three composite units. -/
inductive CompositeRef where
  | a51 | geffe | geffe3
  deriving DecidableEq, Repr

/-- Slots 1 to 3 of an A5/1 or a Geffe3 unit. -/
def Reg3.ofSlot (slot : BitVec 4) : Option Reg3 :=
  match slot.toNat with
  | 1 => some .r1
  | 2 => some .r2
  | 3 => some .r3
  | _ => none

/-- The engine an engine-class command addresses (R83). -/
def EngineRef.ofFields (unit slot : BitVec 4) : Except Reserved EngineRef :=
  match unit.toNat with
  | 0 => if slot = 0 then .ok .lfsr else .error .reservedSlot
  | 1 =>
    match Reg3.ofSlot slot with
    | some r => .ok (.a51 r)
    | none => .error .reservedSlot
  | 2 =>
    if slot = 0 then .ok .geffeS
    else if h : slot.toNat - 1 < kMax then .ok (.geffeC ⟨slot.toNat - 1, h⟩)
    else .error .reservedSlot
  | 3 =>
    match Reg3.ofSlot slot with
    | some r => .ok (.geffe3 r)
    | none => .error .reservedSlot
  | _ => .error .reservedUnit

/-- The composite a composite-class command addresses: `unit` 1 to 3 with `slot` 0 (R84). -/
def CompositeRef.ofFields (unit slot : BitVec 4) : Except Reserved CompositeRef :=
  if slot ≠ 0 then .error .reservedSlot
  else
    match unit.toNat with
    | 1 => .ok .a51
    | 2 => .ok .geffe
    | 3 => .ok .geffe3
    | _ => .error .reservedUnit

/-! ### Operands (R85 to R88) -/

/-- The taps a mask names, counting positions from `i`. -/
def tapsFrom (i : Nat) : Bits → List Int
  | [] => []
  | b :: v => if b then (i : Int) :: tapsFrom (i + 1) v else tapsFrom (i + 1) v

/-- Tap-mask decode (R87): `va[p-1] = 1` says tap position `p` is present. -/
def tapsOfMask (va : Bits) : List Int := tapsFrom 1 va

/-- The largest tap of an operand list, 0 for the empty list. -/
def maxTapOperand (taps : List Int) : Nat := taps.foldr (fun p d => max p.toNat d) 0

/-- The shortest mask that names the taps (R86, R163: its length is the largest tap). -/
def tapMask (taps : List Int) : Bits :=
  (List.range (maxTapOperand taps)).map fun (i : Nat) => decide ((i : Int) + 1 ∈ taps)

/-- Output index decode (R88): the field read as a two's-complement integer. -/
def oidxOfField (f : BitVec 8) : Int := f.toInt

/-- The `conf` field (R85). -/
def ConfTag.ofField (f : BitVec 2) : ConfTag :=
  match f.toNat with
  | 0 => .fibonacci
  | 1 => .galois
  | 2 => .neither2
  | _ => .neither3

def ConfTag.field : ConfTag → BitVec 2
  | .fibonacci => 0
  | .galois => 1
  | .neither2 => 2
  | .neither3 => 3

def Policy.ofField (f : BitVec 1) : Policy := if f = 0 then .zero else .one

def Policy.field : Policy → BitVec 1
  | .zero => 0
  | .one => 1

/-- The `init` field with the vector it may carry (R85, R91): 3 is reserved, and `vb` is empty unless `init` is explicit. -/
def InitSpec.ofField (f : BitVec 2) (vb : Bits) : Except Reserved InitSpec :=
  match f.toNat with
  | 0 => if vb = [] then .ok .allOnes else .error .unexpectedVector
  | 1 => if vb = [] then .ok .random else .error .unexpectedVector
  | 2 => .ok (.explicit vb)
  | _ => .error .reservedInit

def InitSpec.field : InitSpec → BitVec 2
  | .allOnes => 0
  | .random => 1
  | .explicit _ => 2

def InitSpec.vector : InitSpec → Bits
  | .allOnes => []
  | .random => []
  | .explicit bits => bits

/-! ### The decoder -/

/-- The instruction, if the bits that must be 0 are and the vectors the opcode does not take are empty (R85, R91). -/
def accept (zero noVector : Bool) (i : Instr) : Except Reserved Instr :=
  if zero then if noVector then .ok i else .error .unexpectedVector else .error .mustBeZero

/-- `E_NEW`: `[1:0] conf`, `[3:2] init`, `[4] policy`, `[7:5]` zero, `[15:8] oidx8`. -/
def decodeNew (t : EngineRef) (imm : BitVec 16) (va vb : Bits) : Except Reserved Instr :=
  if imm.extractLsb' 5 3 = 0 then
    match InitSpec.ofField (imm.extractLsb' 2 2) vb with
    | .ok init =>
      .ok (.eNew t (tapsOfMask va) init (.ofField (imm.extractLsb' 0 2)) (oidxOfField (imm.extractLsb' 8 8))
        (.ofField (imm.extractLsb' 4 1)))
    | .error r => .error r
  else .error .mustBeZero

/-- The engine class. -/
def decodeEngine (op : EOp) (t : EngineRef) (imm : BitVec 16) (va vb : Bits) : Except Reserved Instr :=
  let none? := decide (va = []) && decide (vb = [])
  let zero? := decide (imm = 0)
  match op with
  | .new => decodeNew t imm va vb
  | .step => accept zero? none? (.eStep t)
  | .run => accept true none? (.eRun t imm.toNat)
  | .runFull => accept zero? none? (.eRunFull t)
  | .reset => accept zero? none? (.eReset t)
  | .setPoly =>
    accept (decide (imm.extractLsb' 2 14 = 0)) (decide (vb = []))
      (.eSetPoly t (tapsOfMask va) (imm.getLsbD 0) (imm.getLsbD 1))
  | .setState =>
    accept (decide (imm.extractLsb' 2 14 = 0) && !imm.getLsbD 0) (decide (va = [])) (.eSetState t vb (imm.getLsbD 1))
  | .setConf => accept (decide (imm.extractLsb' 2 14 = 0)) none? (.eSetConf t (.ofField (imm.extractLsb' 0 2)))
  | .setOidx => accept (decide (imm.extractLsb' 0 8 = 0)) none? (.eSetOidx t (oidxOfField (imm.extractLsb' 8 8)))
  | .getState => accept zero? none? (.eGetState t)
  | .getPoly => accept zero? none? (.eGetPoly t)
  | .getSeq => accept zero? none? (.eGetSeq t)
  | .getCount => accept zero? none? (.eGetCount t)
  | .getPeriod => accept zero? none? (.eGetPeriod t)
  | .getOutbit => accept zero? none? (.eGetOutbit t)
  | .getFb => accept zero? none? (.eGetFb t)

/-- The composite class: one instruction per unit; 0x2B names none for Geffe3 (R90). -/
def decodeComposite (op : COp) (u : CompositeRef) (imm : BitVec 16) (va vb : Bits) : Except Reserved Instr :=
  let none? := decide (va = []) && decide (vb = [])
  let zero? := decide (imm = 0)
  match op, u with
  | .build, .a51 => accept zero? none? .a51Build
  | .build, .geffe => accept (decide (imm.extractLsb' 4 12 = 0)) none? (.geffeBuild (imm.extractLsb' 0 4).toNat)
  | .build, .geffe3 => accept zero? none? .geffe3Build
  | .step, .a51 => accept zero? none? .a51Step
  | .step, .geffe => accept zero? none? .geffeStep
  | .step, .geffe3 => accept zero? none? .geffe3Step
  | .run, .a51 => accept true none? (.a51Run imm.toNat)
  | .run, .geffe => accept true none? (.geffeRun imm.toNat)
  | .run, .geffe3 => accept true none? (.geffe3Run imm.toNat)
  | .reset, .a51 => accept zero? none? .a51Reset
  | .reset, .geffe => accept zero? none? .geffeReset
  | .reset, .geffe3 => accept zero? none? .geffe3Reset
  | .getSeq, .a51 => accept zero? none? .a51GetSeq
  | .getSeq, .geffe => accept zero? none? .geffeGetSeq
  | .getSeq, .geffe3 => accept zero? none? .geffe3GetSeq
  | .getCount, .a51 => accept zero? none? .a51GetCount
  | .getCount, .geffe => accept zero? none? .geffeGetCount
  | .getCount, .geffe3 => accept zero? none? .geffe3GetCount
  | .getOutbit, .a51 => accept zero? none? .a51GetOutbit
  | .getOutbit, .geffe => accept zero? none? .geffeGetOutbit
  | .getOutbit, .geffe3 => accept zero? none? .geffe3GetOutbit
  | .getAux, .a51 => accept zero? none? .a51GetCb
  | .getAux, .geffe => accept zero? none? .geffeGetSel
  | .getAux, .geffe3 => .error .unknownOpcode

/-- Decode by opcode class (R84). -/
def decodeOp (op : Op) (unit slot : BitVec 4) (imm : BitVec 16) (va vb : Bits) : Except Reserved Instr :=
  match op with
  | .engine op =>
    match EngineRef.ofFields unit slot with
    | .ok t => decodeEngine op t imm va vb
    | .error r => .error r
  | .composite op =>
    match CompositeRef.ofFields unit slot with
    | .ok u => decodeComposite op u imm va vb
    | .error r => .error r

/-- Every command is exactly one instruction or reserved (R91). -/
def decode (c : Command) : Except Reserved Instr :=
  if c.va.length ≤ mMax ∧ c.vb.length ≤ mMax then
    match Op.ofByte (opField c.hdr) with
    | some op => decodeOp op (unitField c.hdr) (slotField c.hdr) (immField c.hdr) c.va c.vb
    | none => .error .unknownOpcode
  else .error .vectorTooLong

/-- The command whose header is a row's word of `spec/opcode_table.json` and whose vectors are empty: every bit above the
`nbits` the table gives is 0 (log entry 13). -/
def commandOfTableWord (nbits w : Nat) : Command := ⟨BitVec.ofNat 32 (w % 2 ^ nbits), [], []⟩

/-- What the decoder reads from a row's word (none where it rejects it). -/
def decodeTableWord (nbits w : Nat) : Option Instr :=
  match decode (commandOfTableWord nbits w) with
  | .ok i => some i
  | .error _ => none

/-! ### The encoder -/

def Reg3.slot : Reg3 → BitVec 4
  | .r1 => 1
  | .r2 => 2
  | .r3 => 3

/-- The `unit` field of an engine reference (R82). -/
def EngineRef.unit : EngineRef → BitVec 4
  | .lfsr => 0
  | .a51 _ => 1
  | .geffeS => 2
  | .geffeC _ => 2
  | .geffe3 _ => 3

/-- The `slot` field of an engine reference (R83). -/
def EngineRef.slot : EngineRef → BitVec 4
  | .lfsr => 0
  | .a51 r => r.slot
  | .geffeS => 0
  | .geffeC j => BitVec.ofNat 4 (j.val + 1)
  | .geffe3 r => r.slot

def CompositeRef.unit : CompositeRef → BitVec 4
  | .a51 => 1
  | .geffe => 2
  | .geffe3 => 3

/-- An engine-class command. -/
def engineCommand (op : BitVec 8) (t : EngineRef) (imm : BitVec 16) (va vb : Bits) : Command :=
  ⟨header op t.unit t.slot imm, va, vb⟩

/-- A composite-class command; it carries no vector. -/
def compositeCommand (op : BitVec 8) (u : CompositeRef) (imm : BitVec 16) : Command := ⟨header op u.unit 0 imm, [], []⟩

/-- `imm16` of `E_NEW` (R85). -/
def newImm (conf init : BitVec 2) (policy : BitVec 1) (oidx8 : BitVec 8) : BitVec 16 := oidx8 ++ 0#3 ++ policy ++ init ++ conf

/-- `imm16` of `E_SET_POLY` and `E_SET_STATE` (R85). -/
def flagsImm (reset enforce : Bool) : BitVec 16 := 0#14 ++ BitVec.ofBool enforce ++ BitVec.ofBool reset

/-- The command that carries a well-formed instruction (R82, R85 to R88, R90). -/
def encode : Instr → Command
  | .eNew t taps init conf oidx policy =>
    engineCommand 0x01 t (newImm conf.field init.field policy.field (BitVec.ofInt 8 oidx)) (tapMask taps) init.vector
  | .eStep t => engineCommand 0x02 t 0 [] []
  | .eRun t k => engineCommand 0x03 t (BitVec.ofNat 16 k) [] []
  | .eRunFull t => engineCommand 0x04 t 0 [] []
  | .eReset t => engineCommand 0x05 t 0 [] []
  | .eSetPoly t taps reset enforce => engineCommand 0x06 t (flagsImm reset enforce) (tapMask taps) []
  | .eSetState t bits enforce => engineCommand 0x07 t (flagsImm false enforce) [] bits
  | .eSetConf t conf => engineCommand 0x08 t (0#14 ++ conf.field) [] []
  | .eSetOidx t oidx => engineCommand 0x09 t (BitVec.ofInt 8 oidx ++ 0#8) [] []
  | .eGetState t => engineCommand 0x10 t 0 [] []
  | .eGetPoly t => engineCommand 0x11 t 0 [] []
  | .eGetSeq t => engineCommand 0x12 t 0 [] []
  | .eGetCount t => engineCommand 0x13 t 0 [] []
  | .eGetPeriod t => engineCommand 0x14 t 0 [] []
  | .eGetOutbit t => engineCommand 0x15 t 0 [] []
  | .eGetFb t => engineCommand 0x16 t 0 [] []
  | .a51Build => compositeCommand 0x20 .a51 0
  | .a51Step => compositeCommand 0x21 .a51 0
  | .a51Run k => compositeCommand 0x22 .a51 (BitVec.ofNat 16 k)
  | .a51Reset => compositeCommand 0x23 .a51 0
  | .a51GetSeq => compositeCommand 0x28 .a51 0
  | .a51GetCount => compositeCommand 0x29 .a51 0
  | .a51GetOutbit => compositeCommand 0x2A .a51 0
  | .a51GetCb => compositeCommand 0x2B .a51 0
  | .geffeBuild k => compositeCommand 0x20 .geffe (0#12 ++ BitVec.ofNat 4 k)
  | .geffeStep => compositeCommand 0x21 .geffe 0
  | .geffeRun k => compositeCommand 0x22 .geffe (BitVec.ofNat 16 k)
  | .geffeReset => compositeCommand 0x23 .geffe 0
  | .geffeGetSeq => compositeCommand 0x28 .geffe 0
  | .geffeGetCount => compositeCommand 0x29 .geffe 0
  | .geffeGetOutbit => compositeCommand 0x2A .geffe 0
  | .geffeGetSel => compositeCommand 0x2B .geffe 0
  | .geffe3Build => compositeCommand 0x20 .geffe3 0
  | .geffe3Step => compositeCommand 0x21 .geffe3 0
  | .geffe3Run k => compositeCommand 0x22 .geffe3 (BitVec.ofNat 16 k)
  | .geffe3Reset => compositeCommand 0x23 .geffe3 0
  | .geffe3GetSeq => compositeCommand 0x28 .geffe3 0
  | .geffe3GetCount => compositeCommand 0x29 .geffe3 0
  | .geffe3GetOutbit => compositeCommand 0x2A .geffe3 0

end Sys2Proof
end

