-- ==== Sys2Proof/Machine/State.lean ====
section
/-!
DEFINITION. The state of the block, its responses and its power-on value (`10_state.md`, `30_encoding.md` R89, R94,
`60_exceptions.md` R250). Plain data; a unit that is not constructed has no field (R49), so its fields stand under the
constructor that gives them.
-/

namespace Sys2Proof.Machine

/-- The configuration tag inside an engine (R24): there is no third value. -/
inductive Conf where
  | fib | gal
  deriving DecidableEq, Repr

/-- The nine errors, in the order of their codes 1 to 9 (R250). -/
inductive ErrorName where
  | invalidPolynomial
  | invalidState
  | invalidConfiguration
  | invalidOutputIndex
  | incompatibleMutation
  | inconsistent
  | invalidCommand
  | notConstructed
  | invalidComposite
  deriving DecidableEq, Repr

/-- The result of a command that succeeds (R89), of the type its rule states; `optNat` is the result of `GEFFE_GET_SEL`
(R229), which R89's list leaves out (log entry 10). -/
inductive Value where
  | nothing
  | bit (b : Bool)
  | optBit (b : Option Bool)
  | nat (n : Nat)
  | optNat (n : Option Nat)
  | bits (v : Bits)
  | taps (t : List Nat)
  | optTriple (c : Option (Bool × Bool × Bool))
  deriving DecidableEq, Repr

/-- What a command presents on the response port (R89). -/
inductive Response where
  | ok (v : Value)
  | err (e : ErrorName)
  deriving DecidableEq, Repr

/-- An LFSR engine (R20). -/
structure Engine where
  /-- The cells of the shift register, `state[0]` first (R22). -/
  state : Bits
  /-- The feedback polynomial, sorted descending (R23). -/
  taps : List Nat
  /-- The configuration tag (R24). -/
  conf : Conf
  /-- The output-tap index as supplied, possibly negative (R25). -/
  oidx : Int
  /-- The counter-start policy (R26). -/
  policy : Policy
  /-- The step counter (R27). -/
  count : Nat
  /-- The most recent feedback bit (R28). -/
  fb : Option Bool
  /-- The most recent output bit (R29). -/
  outbit : Option Bool
  /-- The output sequence, oldest first (R31). -/
  seq : Bits
  /-- The stored initial state (R32). -/
  initState : Bits
  deriving DecidableEq, Repr

/-- The engine slots of an A5/1 or a Geffe3 unit before it is built (R94). -/
structure Slots3 where
  r1 : Option Engine
  r2 : Option Engine
  r3 : Option Engine
  deriving DecidableEq, Repr

/-- A built A5/1 unit (R36). -/
structure A51 where
  r1 : Engine
  r2 : Engine
  r3 : Engine
  /-- The clocking bits sampled at the start of the latest cycle (R197). -/
  cb : Option (Bool × Bool × Bool)
  /-- The cycles done. -/
  count : Nat
  outbit : Option Bool
  seq : Bits
  deriving DecidableEq, Repr

/-- A built Geffe unit (R37); `K` is the length of `c`. -/
structure Geffe where
  /-- The component engines `C[0] … C[K-1]`. -/
  c : List Engine
  /-- The selector engine. -/
  s : Engine
  /-- The index formed in the latest cycle. -/
  sel : Option Nat
  /-- The cycles done. -/
  count : Nat
  outbit : Option Bool
  seq : Bits
  deriving DecidableEq, Repr

/-- A built Geffe3 unit (R38). -/
structure Geffe3 where
  r1 : Engine
  r2 : Engine
  r3 : Engine
  /-- The cycles done. -/
  count : Nat
  outbit : Option Bool
  seq : Bits
  deriving DecidableEq, Repr

/-- The A5/1 unit: staging its slots, or built and owning its engines (R40, R94). -/
inductive A51Unit where
  | staging (slots : Slots3)
  | built (u : A51)
  deriving DecidableEq, Repr

/-- The Geffe unit: staging slot 0 (`S`) and slots 1 to `KMAX` (`C`), or built; `spare` holds the slots above `K`, which the
unit ignores and the accessors still read (R83, R93, R216; log entry 9). -/
inductive GeffeUnit where
  | staging (sel : Option Engine) (comps : Vector (Option Engine) kMax)
  | built (u : Geffe) (spare : List (Option Engine))
  deriving DecidableEq, Repr

/-- The Geffe3 unit. -/
inductive Geffe3Unit where
  | staging (slots : Slots3)
  | built (u : Geffe3)
  deriving DecidableEq, Repr

/-- How many random vectors the engines of each unit have drawn. -/
structure Draws where
  lfsr : Nat
  a51 : Nat
  geffe : Nat
  geffe3 : Nat
  deriving DecidableEq, Repr

/-- The whole machine. -/
structure State where
  /-- Unit 0, the standalone engine. -/
  lfsr : Option Engine
  /-- Unit 1. -/
  a51 : A51Unit
  /-- Unit 2. -/
  geffe : GeffeUnit
  /-- Unit 3. -/
  geffe3 : Geffe3Unit
  /-- The commands the host has yet to present, the next one first: the model's own field (log entry 2). -/
  host : List Command
  /-- The response port: the response of the latest command (R80, R89; log entry 3). -/
  response : Option Response
  /-- How many random vectors each unit has drawn: the model's own field (log entry 4). -/
  draws : Draws
  /-- The open parameters, which no command writes: the model's own field (R11; log entry 5). -/
  cfg : Config
  deriving DecidableEq, Repr

/-- No command stops the machine: a failed command answers an error and the host goes on (R252; log entry 1). So nothing
raises a fault, and the type has no constructor. -/
inductive Fault where
  deriving DecidableEq, Repr

/-- Why the model has no next state. -/
inductive Refusal where
  /-- Raised by `exec` for an instruction that has no meaning yet; safe, since no claim about it can be proved. No arm
  raises it. -/
  | notModelled (mnemonic : String)
  deriving DecidableEq, Repr

/-- No engine staged. -/
def Slots3.empty : Slots3 := ⟨none, none, none⟩

/-- The machine after power-on (R49, R275): every unit unconstructed, every slot empty, no command given and none
answered. -/
def State.reset : State where
  lfsr := none
  a51 := .staging .empty
  geffe := .staging none (Vector.replicate kMax none)
  geffe3 := .staging .empty
  host := []
  response := none
  draws := ⟨0, 0, 0, 0⟩
  cfg := .default

end Sys2Proof.Machine
end

