-- ==== Sys2Proof/Machine/Operands.lean ====
section
/-!
DEFINITION. The operand functions of the rules: the effective output index and the tap of an engine (`00_scope.md` R16, R17),
the constructor's checks, which the mutators share (`40_lfsr_construction.md` R112 to R118), and the majority and index
functions of the composites.
-/

namespace Sys2Proof.Machine

/-- `maj(a, b, c)` (R14). -/
def maj (a b c : Bool) : Bool := (a && b) || (a && c) || (b && c)

/-- The code of an error on the response port (R250). -/
def ErrorName.code : ErrorName → BitVec 8
  | .invalidPolynomial => 1
  | .invalidState => 2
  | .invalidConfiguration => 3
  | .invalidOutputIndex => 4
  | .incompatibleMutation => 5
  | .inconsistent => 6
  | .invalidCommand => 7
  | .notConstructed => 8
  | .invalidComposite => 9

/-- The 8-bit code of a response: 0 is `Ok` (R250). -/
def Response.code : Response → BitVec 8
  | .ok _ => 0
  | .err e => e.code

/-- The tap mask that carries the result of `E_GET_POLY` (R163, R86). -/
def maskOfTaps (taps : List Nat) : Bits := tapMask (taps.map Int.ofNat)

/-- The unit an engine reference belongs to (R83). -/
def unitOfRef : EngineRef → UnitName
  | .lfsr => .lfsr
  | .a51 _ => .a51
  | .geffeS => .geffe
  | .geffeC _ => .geffe
  | .geffe3 _ => .geffe3

/-- Cell `i` of a register. A cell that does not exist reads as a free value; the step of a consistent engine never reads
one (log entry 7). -/
def cell (v : Bits) (i : Nat) : Bool := v.getD i (Config.absentCell v i)

/-- `max(taps)`, 0 for the empty list. -/
def maxTap (taps : List Nat) : Nat := taps.foldr max 0

/-- `eff(i, M)` (R16). -/
def eff (i : Int) (m : Nat) : Nat := if 0 ≤ i then i.toNat else (i + (m : Int)).toNat

/-- The register length `M` (R21). -/
def Engine.len (e : Engine) : Nat := e.state.length

/-- `period(E) = 2^M - 1` (R33). -/
def Engine.period (e : Engine) : Nat := 2 ^ e.len - 1

/-- An output index names a cell of a register of length `m` (R118). -/
abbrev OidxInRange (i : Int) (m : Nat) : Prop := -(m : Int) ≤ i ∧ i ≤ (m : Int) - 1

/-- `tap(E)`: the cell of the current state at the output index (R17), a free value where the index names none
(log entry 7). -/
def Engine.tap (e : Engine) : Bool :=
  if OidxInRange e.oidx e.len then cell e.state (eff e.oidx e.len) else Config.absentCell e.state e.oidx

/-- The consistency invariant (R30): (a) to (f) in order. -/
abbrev Engine.Consistent (e : Engine) : Prop :=
  2 ≤ e.taps.length ∧ e.taps.Nodup ∧ (∀ p ∈ e.taps, 1 ≤ p) ∧ maxTap e.taps ≤ e.len ∧
    (e.conf = .gal → maxTap e.taps = e.len) ∧ OidxInRange e.oidx e.len

/-- The configuration an operand names (R117). -/
def confOf : ConfTag → Option Conf
  | .fibonacci => some .fib
  | .galois => some .gal
  | .neither2 => none
  | .neither3 => none

/-- `check_conf` (R117). -/
def checkConf (c : ConfTag) : Except ErrorName Conf :=
  match confOf c with
  | some c => .ok c
  | none => .error .invalidConfiguration

/-- `check_poly` (R112). -/
def checkPoly (taps : List Int) : Except ErrorName Unit :=
  if 2 ≤ taps.length ∧ taps.Nodup ∧ ∀ p ∈ taps, 1 ≤ p then .ok () else .error .invalidPolynomial

/-- The taps as stored: naturals, sorted descending (R113). -/
def storedTaps (taps : List Int) : List Nat := (taps.map Int.toNat).insertionSort (· ≥ ·)

/-- `check_state` (R115): not empty and not all-zero. -/
def checkState (s : Bits) : Except ErrorName Unit := if true ∈ s then .ok () else .error .invalidState

/-- `check_length` (R116): not shorter than the largest tap `d`, and equal to it where the operand names `galois`. -/
def checkLength (s : Bits) (d : Nat) (galois : Bool) : Except ErrorName Unit :=
  if s.length < d then .error .invalidState
  else if galois = true ∧ s.length ≠ d then .error .invalidState
  else .ok ()

/-- `check_oidx` (R118). -/
def checkOidx (i : Int) (m : Nat) : Except ErrorName Unit :=
  if OidxInRange i m then .ok () else .error .invalidOutputIndex

/-- The `n`-th random vector drawn for the unit `u`, of length `d`: a free value (R114). -/
def draw (u : UnitName) (n d : Nat) : Bits := (List.range d).map (Config.drawBit u n)

/-- `resolve(init_spec, D)`, where a random vector would be the `n`-th drawn for the unit `u` (R114). -/
def resolve (init : InitSpec) (d : Nat) (u : UnitName) (n : Nat) : Bits :=
  match init with
  | .allOnes => List.replicate d true
  | .random => draw u n d
  | .explicit bits => bits

/-- How many vectors an `init_spec` draws. -/
def drawsTaken : InitSpec → Nat
  | .allOnes => 0
  | .random => 1
  | .explicit _ => 0

/-- The number whose bits are `b`, the first one the most significant. -/
def indexMsbFirst (b : Bits) : Nat := b.foldl (fun a x => 2 * a + x.toNat) 0

/-- The number whose bits are `b`, the first one the least significant. -/
def indexLsbFirst (b : Bits) : Nat := b.foldr (fun x a => x.toNat + 2 * a) 0

/-- `index(b)` under the parameter `GEFFE_SEL_MSB_FIRST` (R222). -/
def selIndex (msbFirst : Bool) (b : Bits) : Nat := if msbFirst then indexMsbFirst b else indexLsbFirst b

/-- `combine(r1, r2, r3)` under the parameter `GEFFE3_COMBINER` (R239). -/
def combine (c : Combiner) (r1 r2 r3 : Bool) : Bool :=
  match c with
  | .asDocumented => xor (r1 && r2) (!r1 && r2)
  | .published => xor (r1 && r2) (!r1 && r3)

/-- `K` is a power of two (R216). -/
def powerOfTwo (k : Nat) : Bool := k != 0 && 2 ^ Nat.log2 k == k

end Sys2Proof.Machine
end

