-- ==== Sys2Proof/Machine/Flags.lean ====
section
/-!
DEFINITION. The flags and the log of an engine (`10_state.md` R42): what every step latches (`41_lfsr_step.md` R134) and what
construction and reset clear (`10_state.md` R47). A composite's `outbit`, `seq` and `count` move the same way (R42, R48) and
are written by its cycle.
-/

namespace Sys2Proof.Machine

/-- The side effects of a step with feedback bit `f` and output bit `o` (R134). -/
def Engine.latch (f o : Bool) (e : Engine) : Engine :=
  { e with fb := some f, outbit := some o, seq := e.seq ++ [o], count := e.count + 1 }

/-- `count`, `seq`, `fb` and `outbit` as construction and reset leave them (R47). -/
def Engine.clear (e : Engine) : Engine := { e with fb := none, outbit := none, seq := [], count := 0 }

end Sys2Proof.Machine
end

