-- ==== Sys2Proof/Machine/Ops.lean ====
section
/-!
DEFINITION. The operations the meanings share: reading and writing an engine by reference (`30_encoding.md` R83, R93, R94),
answering, and failing, which is this block's exception (`60_exceptions.md` R251, R252). There is no handler and so no return
from an exception (R267).
-/

namespace Sys2Proof.Machine

/-- The outcome type of every meaning. -/
abbrev Result := Host.Outcome State Fault Refusal

/-! ### Engines by reference -/

def Slots3.get (s : Slots3) : Reg3 → Option Engine
  | .r1 => s.r1
  | .r2 => s.r2
  | .r3 => s.r3

def Slots3.put (s : Slots3) (r : Reg3) (e : Engine) : Slots3 :=
  match r with
  | .r1 => { s with r1 := some e }
  | .r2 => { s with r2 := some e }
  | .r3 => { s with r3 := some e }

def A51.get (u : A51) : Reg3 → Engine
  | .r1 => u.r1
  | .r2 => u.r2
  | .r3 => u.r3

def Geffe3.get (u : Geffe3) : Reg3 → Engine
  | .r1 => u.r1
  | .r2 => u.r2
  | .r3 => u.r3

/-- All slots 1 to `KMAX` of a built Geffe unit: the components, then the spare slots. -/
def geffeSlots (u : Geffe) (spare : List (Option Engine)) : List (Option Engine) := u.c.map some ++ spare

/-- The engine at a reference, none where it is not constructed. Staged and owned engines are read alike (R161). -/
def State.engine (s : State) : EngineRef → Option Engine
  | .lfsr => s.lfsr
  | .a51 r =>
    match s.a51 with
    | .staging slots => slots.get r
    | .built u => some (u.get r)
  | .geffeS =>
    match s.geffe with
    | .staging sel _ => sel
    | .built u _ => some u.s
  | .geffeC j =>
    match s.geffe with
    | .staging _ comps => comps[j.val]
    | .built u spare => (geffeSlots u spare).getD j.val none
  | .geffe3 r =>
    match s.geffe3 with
    | .staging slots => slots.get r
    | .built u => some (u.get r)

/-- The reference is an engine slot of a built composite, which R93 closes to writes. -/
def State.owned (s : State) : EngineRef → Bool
  | .lfsr => false
  | .a51 _ =>
    match s.a51 with
    | .staging _ => false
    | .built _ => true
  | .geffeS =>
    match s.geffe with
    | .staging _ _ => false
    | .built _ _ => true
  | .geffeC _ =>
    match s.geffe with
    | .staging _ _ => false
    | .built _ _ => true
  | .geffe3 _ =>
    match s.geffe3 with
    | .staging _ => false
    | .built _ => true

/-- Put an engine at a reference that is not owned; an owned slot is never written this way (R93). -/
def State.putEngine (s : State) (t : EngineRef) (e : Engine) : State :=
  match t with
  | .lfsr => { s with lfsr := some e }
  | .a51 r =>
    match s.a51 with
    | .staging slots => { s with a51 := .staging (slots.put r e) }
    | .built _ => s
  | .geffeS =>
    match s.geffe with
    | .staging _ comps => { s with geffe := .staging (some e) comps }
    | .built _ _ => s
  | .geffeC j =>
    match s.geffe with
    | .staging sel comps => { s with geffe := .staging sel (comps.set j.val (some e)) }
    | .built _ _ => s
  | .geffe3 r =>
    match s.geffe3 with
    | .staging slots => { s with geffe3 := .staging (slots.put r e) }
    | .built _ => s

/-! ### Writing a composite -/

def State.putA51 (s : State) (u : A51) : State := { s with a51 := .built u }
def State.putGeffe (s : State) (u : Geffe) (spare : List (Option Engine)) : State := { s with geffe := .built u spare }
def State.putGeffe3 (s : State) (u : Geffe3) : State := { s with geffe3 := .built u }

/-! ### The free vectors of a unit -/

def Draws.get (d : Draws) : UnitName → Nat
  | .lfsr => d.lfsr
  | .a51 => d.a51
  | .geffe => d.geffe
  | .geffe3 => d.geffe3

/-- Count `n` more vectors drawn for the unit `u`. -/
def Draws.take (d : Draws) (u : UnitName) (n : Nat) : Draws :=
  match u with
  | .lfsr => { d with lfsr := d.lfsr + n }
  | .a51 => { d with a51 := d.a51 + n }
  | .geffe => { d with geffe := d.geffe + n }
  | .geffe3 => { d with geffe3 := d.geffe3 + n }

/-- Take `n` free vectors for the unit `u`; the other units' draws do not move (R68). -/
def State.takeDraws (s : State) (u : UnitName) (n : Nat) : State := { s with draws := s.draws.take u n }

/-! ### Answering -/

/-- Present a response on the response port (R80). -/
def State.respond (s : State) (r : Response) : State := { s with response := some r }

/-- The command succeeds with result `v`, leaving the units as in `s`. -/
def answer (v : Value) (s : State) : Result := .next (s.respond (.ok v))

/-- TAKING AN ERROR: the command answers `Err(e)` and no unit changes; nothing is saved, no mode changes and control goes
nowhere (R252). -/
def fail (e : ErrorName) (s : State) : Result := .next (s.respond (.err e))

/-! ### The shape of an engine command -/

/-- A command that writes an engine: reserved on an owned slot (R93), then the engine must exist (R264), then its own checks
(R258). `f` gives the result and the engine after. -/
def onEngine (t : EngineRef) (f : Engine → Except ErrorName (Value × Engine)) (s : State) : Result :=
  if s.owned t then fail .invalidCommand s
  else
    match s.engine t with
    | none => fail .notConstructed s
    | some e =>
      match f e with
      | .error x => fail x s
      | .ok (v, e') => answer v (s.putEngine t e')

/-- A read accessor of an engine, staged or owned (R161). -/
def readEngine (t : EngineRef) (f : Engine → Value) (s : State) : Result :=
  match s.engine t with
  | none => fail .notConstructed s
  | some e => answer (f e) s

/-! ### The shape of a composite command -/

/-- A command of the A5/1 unit other than its build: it needs the unit built, and then it never errs (R93, R259). `f` gives the
result and the unit after. -/
def onA51 (f : A51 → Value × A51) (s : State) : Result :=
  match s.a51 with
  | .staging _ => fail .notConstructed s
  | .built u => answer (f u).1 (s.putA51 (f u).2)

/-- A command of the Geffe unit other than its build (R93, R259). -/
def onGeffe (f : Geffe → Value × Geffe) (s : State) : Result :=
  match s.geffe with
  | .staging _ _ => fail .notConstructed s
  | .built u spare => answer (f u).1 (s.putGeffe (f u).2 spare)

/-- A command of the Geffe3 unit other than its build (R93, R259). -/
def onGeffe3 (f : Geffe3 → Value × Geffe3) (s : State) : Result :=
  match s.geffe3 with
  | .staging _ => fail .notConstructed s
  | .built u => answer (f u).1 (s.putGeffe3 (f u).2)

end Sys2Proof.Machine
end

