-- ==== Sys2Proof/Machine/Mutators.lean ====
section
/-!
DEFINITION. The engine's reset and mutators (`42_lfsr_mutators_getters.md` R150 to R160).
-/

namespace Sys2Proof.Machine

/-- What `E_RESET` does to an engine (R152): no validation, and the control fields are kept as they are now. -/
def Engine.reset (e : Engine) : Engine := Engine.clear { e with state := e.initState }

/-- What `E_SET_POLY` does to an engine (R154, R155). -/
def setPoly (taps : List Int) (reset enforce : Bool) (e : Engine) : Except ErrorName (Value × Engine) :=
  match checkPoly taps with
  | .error x => .error x
  | .ok _ =>
    if enforce = false ∧ maxTapOperand taps ≠ e.len then .error .incompatibleMutation
    else
      let e' := { e with taps := storedTaps taps }
      .ok (.nothing, if reset then e'.reset else e')

/-- What `E_SET_STATE` does to an engine (R157). -/
def setState (v : Bits) (enforce : Bool) (e : Engine) : Except ErrorName (Value × Engine) :=
  match checkState v with
  | .error x => .error x
  | .ok _ =>
    if enforce = false ∧ v.length ≠ e.len then .error .incompatibleMutation
    else
      match checkLength v (maxTap e.taps) (e.conf = .gal) with
      | .error x => .error x
      | .ok _ =>
        match checkOidx e.oidx v.length with
        | .error x => .error x
        | .ok _ => .ok (.nothing, { e with state := v })

/-- What `E_SET_CONF` does to an engine (R159). On a Galois engine that `E_SET_POLY` or a reset left inconsistent, `conf=gal`
answers InvalidState, as R159's pseudocode says, against its remark that setting the configuration an engine already has
succeeds (log entry 18). -/
def setConf (conf : ConfTag) (e : Engine) : Except ErrorName (Value × Engine) :=
  match checkConf conf with
  | .error x => .error x
  | .ok c =>
    if c = .gal ∧ e.len ≠ maxTap e.taps then .error .invalidState else .ok (.nothing, { e with conf := c })

/-- What `E_SET_OIDX` does to an engine (R160). -/
def setOidx (i : Int) (e : Engine) : Except ErrorName (Value × Engine) :=
  match checkOidx i e.len with
  | .error x => .error x
  | .ok _ => .ok (.nothing, { e with oidx := i })

/-- `E_RESET` (R152). -/
def execEReset (t : EngineRef) (s : State) : Result := onEngine t (fun e => .ok (.nothing, e.reset)) s

/-- `E_SET_POLY` (R154). -/
def execESetPoly (t : EngineRef) (taps : List Int) (reset enforce : Bool) (s : State) : Result :=
  onEngine t (setPoly taps reset enforce) s

/-- `E_SET_STATE` (R157). -/
def execESetState (t : EngineRef) (v : Bits) (enforce : Bool) (s : State) : Result := onEngine t (setState v enforce) s

/-- `E_SET_CONF` (R159). -/
def execESetConf (t : EngineRef) (conf : ConfTag) (s : State) : Result := onEngine t (setConf conf) s

/-- `E_SET_OIDX` (R160). -/
def execESetOidx (t : EngineRef) (i : Int) (s : State) : Result := onEngine t (setOidx i) s

end Sys2Proof.Machine
end

