-- ==== Sys2Proof/Machine/Stepping.lean ====
section
/-!
DEFINITION. The LFSR transition and the commands that step an engine: `E_STEP`, `E_RUN`, `E_RUN_FULL`
(`41_lfsr_step.md` R130 to R138).
-/

namespace Sys2Proof.Machine

/-- The XOR of the register's cells at all tap positions (R120, R132). -/
def xorTaps (old : Bits) (taps : List Nat) : Bool := taps.foldr (fun p f => xor (cell old (p - 1)) f) false

/-- The Fibonacci shift: the feedback bit enters cell 0, the last cell is lost (R132). -/
def fibShift (f : Bool) (old : Bits) : Bits := f :: old.dropLast

/-- The Galois shift: a rotation, the feedback bit entering the last cell, with the bit XORed into the cell of every tap but
the leading one (R133). -/
def galShift (f : Bool) (taps : List Nat) (old : Bits) : Bits :=
  (old.tail ++ [f]).mapIdx fun i b => if i + 1 ∈ taps ∧ i + 1 ≠ taps.headD 0 then xor b f else b

/-- The feedback bit of the next step (R132, R133). -/
def Engine.feedback (e : Engine) : Bool :=
  match e.conf with
  | .fib => xorTaps e.state e.taps
  | .gal => cell e.state 0

/-- The register after the next step (R132, R133). -/
def Engine.shifted (e : Engine) : Bits :=
  match e.conf with
  | .fib => fibShift e.feedback e.state
  | .gal => galShift e.feedback e.taps e.state

/-- The output bit of the next step: sampled before the shift under `ZERO`, after it under `ONE` (R131). -/
def Engine.emit (e : Engine) : Bool :=
  match e.policy with
  | .zero => cell e.state (eff e.oidx e.len)
  | .one => cell e.shifted (eff e.oidx e.len)

/-- The engine after one step (R130). -/
def Engine.advance (e : Engine) : Engine := Engine.latch e.feedback e.emit { e with state := e.shifted }

/-- The engine after `k` steps. -/
def Engine.after : Nat → Engine → Engine
  | 0, e => e
  | k + 1, e => Engine.after k e.advance

/-- The output bits of the next `k` steps, in order. -/
def Engine.outputs : Nat → Engine → Bits
  | 0, _ => []
  | k + 1, e => e.emit :: Engine.outputs k e.advance

/-- An engine that a cycle of its composite steps: one `E_STEP`. On an engine that is not consistent `E_STEP` changes nothing
(R135), and its error goes no further, since a cycle never errs (R259; log entry 7). -/
def Engine.stepInCycle (e : Engine) : Engine := if e.Consistent then e.advance else e

/-- One `E_STEP` on an engine (R130, R135). -/
def stepEngine (e : Engine) : Except ErrorName (Value × Engine) :=
  if e.Consistent then .ok (.bit e.emit, e.advance) else .error .inconsistent

/-- `k` steps on an engine; the check is needed once (R137). -/
def runEngine (k : Nat) (e : Engine) : Except ErrorName (Value × Engine) :=
  if e.Consistent then .ok (.bits (e.outputs k), e.after k) else .error .inconsistent

/-- `E_STEP` (R130). -/
def execEStep (t : EngineRef) (s : State) : Result := onEngine t stepEngine s

/-- `E_RUN` (R137). -/
def execERun (t : EngineRef) (k : Nat) (s : State) : Result := onEngine t (runEngine k) s

/-- `E_RUN_FULL` (R138): `E_RUN` with `k = period(E)`. -/
def execERunFull (t : EngineRef) (s : State) : Result := onEngine t (fun e => runEngine e.period e) s

end Sys2Proof.Machine
end

