-- ==== Sys2Proof/Machine/A51.lean ====
section
/-!
DEFINITION. The A5/1 unit (`44_a51.md` R195 to R211).
-/

namespace Sys2Proof.Machine

/-- The register lengths (R195). -/
def a51Len1 : Nat := 19
def a51Len2 : Nat := 22
def a51Len3 : Nat := 23

/-- The clocking-bit positions, 0-indexed from the register start (R195). -/
def a51Clk1 : Nat := 8
def a51Clk2 : Nat := 10
def a51Clk3 : Nat := 10

/-- What `A51_BUILD` asks of the engine in a slot (R196). -/
abbrev A51Admits (len : Nat) (taps : List Nat) (e : Engine) : Prop :=
  e.Consistent ∧ e.len = len ∧ e.taps = taps ∧ e.conf = .fib

/-- The unit that `A51_BUILD` makes of the staged engines (R196). -/
def buildA51 (cfg : Config) (slots : Slots3) : Except ErrorName A51 :=
  match slots.r1, slots.r2, slots.r3 with
  | some e1, some e2, some e3 =>
    if A51Admits a51Len1 cfg.a51Taps1 e1 ∧ A51Admits a51Len2 cfg.a51Taps2 e2 ∧ A51Admits a51Len3 cfg.a51Taps3 e3 then
      .ok { r1 := e1, r2 := e2, r3 := e3, cb := none, count := 0, outbit := none, seq := [] }
    else .error .invalidComposite
  | _, _, _ => .error .invalidComposite

/-- The clocking bits as the next cycle samples them (R197). -/
def A51.clock (u : A51) : Bool × Bool × Bool := (cell u.r1.state a51Clk1, cell u.r2.state a51Clk2, cell u.r3.state a51Clk3)

/-- The vote of the next cycle (R200). -/
def A51.vote (u : A51) : Bool := maj u.clock.1 u.clock.2.1 u.clock.2.2

/-- An engine of the next cycle: stepped where its clocking bit `c` is the vote, and in no first cycle (R198, R199). -/
def A51.clocked (u : A51) (c : Bool) (e : Engine) : Engine :=
  if u.count = 0 then e else if c = u.vote then e.stepInCycle else e

/-- The unit with the engines as the next cycle steps them (R198, R201). -/
def A51.stepped (u : A51) : A51 :=
  { u with r1 := u.clocked u.clock.1 u.r1, r2 := u.clocked u.clock.2.1 u.r2, r3 := u.clocked u.clock.2.2 u.r3 }

/-- The output of the next cycle: the XOR of the three taps after the stepping (R202). -/
def A51.emit (u : A51) : Bool := xor (xor u.stepped.r1.tap u.stepped.r2.tap) u.stepped.r3.tap

/-- The unit after one cycle (R198). -/
def A51.advance (u : A51) : A51 :=
  { u.stepped with cb := some u.clock, count := u.count + 1, outbit := some u.emit, seq := u.seq ++ [u.emit] }

/-- The unit after `k` cycles. -/
def A51.after : Nat → A51 → A51
  | 0, u => u
  | k + 1, u => A51.after k u.advance

/-- The output bits of the next `k` cycles, in order. -/
def A51.outputs : Nat → A51 → Bits
  | 0, _ => []
  | k + 1, u => u.emit :: A51.outputs k u.advance

/-- The unit after `A51_RESET` (R205). -/
def A51.reset (u : A51) : A51 :=
  { r1 := u.r1.reset, r2 := u.r2.reset, r3 := u.r3.reset, cb := none, count := 0, outbit := none, seq := [] }

/-- `A51_BUILD` (R196); reserved once built (R93). -/
def execA51Build (s : State) : Result :=
  match s.a51 with
  | .built _ => fail .invalidCommand s
  | .staging slots =>
    match buildA51 s.cfg slots with
    | .error x => fail x s
    | .ok u => answer .nothing (s.putA51 u)

/-- `A51_STEP` (R198). -/
def execA51Step (s : State) : Result := onA51 (fun u => (.bit u.emit, u.advance)) s

/-- `A51_RUN` (R204). -/
def execA51Run (k : Nat) (s : State) : Result := onA51 (fun u => (.bits (u.outputs k), u.after k)) s

/-- `A51_RESET` (R205). -/
def execA51Reset (s : State) : Result := onA51 (fun u => (.nothing, u.reset)) s

/-- `A51_GET_SEQ` (R206). -/
def execA51GetSeq (s : State) : Result := onA51 (fun u => (.bits u.seq, u)) s

/-- `A51_GET_COUNT` (R207). -/
def execA51GetCount (s : State) : Result := onA51 (fun u => (.nat u.count, u)) s

/-- `A51_GET_OUTBIT` (R208). -/
def execA51GetOutbit (s : State) : Result := onA51 (fun u => (.optBit u.outbit, u)) s

/-- `A51_GET_CB` (R209). -/
def execA51GetCb (s : State) : Result := onA51 (fun u => (.optTriple u.cb, u)) s

end Sys2Proof.Machine
end

