-- ==== Sys2Proof/Machine/Accessors.lean ====
section
/-!
DEFINITION. The read accessors of an engine (`42_lfsr_mutators_getters.md` R161 to R168).
-/

namespace Sys2Proof.Machine

/-- `E_GET_STATE` (R162). -/
def execEGetState (t : EngineRef) (s : State) : Result := readEngine t (fun e => .bits e.state) s

/-- `E_GET_POLY` (R163); `maskOfTaps` is the form the result has in the encoding (log entry 10). -/
def execEGetPoly (t : EngineRef) (s : State) : Result := readEngine t (fun e => .taps e.taps) s

/-- `E_GET_SEQ` (R164). -/
def execEGetSeq (t : EngineRef) (s : State) : Result := readEngine t (fun e => .bits e.seq) s

/-- `E_GET_COUNT` (R165). -/
def execEGetCount (t : EngineRef) (s : State) : Result := readEngine t (fun e => .nat e.count) s

/-- `E_GET_PERIOD` (R166). -/
def execEGetPeriod (t : EngineRef) (s : State) : Result := readEngine t (fun e => .nat e.period) s

/-- `E_GET_OUTBIT` (R167). -/
def execEGetOutbit (t : EngineRef) (s : State) : Result := readEngine t (fun e => .optBit e.outbit) s

/-- `E_GET_FB` (R168). -/
def execEGetFb (t : EngineRef) (s : State) : Result := readEngine t (fun e => .optBit e.fb) s

end Sys2Proof.Machine
end

