-- ==== Sys2Proof/Machine/Construct.lean ====
section
/-!
DEFINITION. `E_NEW` (`40_lfsr_construction.md` R110 to R119).
-/

namespace Sys2Proof.Machine

/-- A fresh engine (R119, `10_state.md` R47). -/
def Engine.fresh (s : Bits) (taps : List Nat) (conf : Conf) (oidx : Int) (policy : Policy) : Engine where
  state := s
  taps := taps
  conf := conf
  oidx := oidx
  policy := policy
  count := 0
  fb := none
  outbit := none
  seq := []
  initState := s

/-- The constructor: the checks in the order of R110, the first that fails giving the error (R111). A random
vector would be the `n`-th drawn for the unit `u`. -/
def construct (taps : List Int) (init : InitSpec) (conf : ConfTag) (oidx : Int) (policy : Policy) (u : UnitName) (n : Nat) :
    Except ErrorName Engine :=
  match checkPoly taps with
  | .error x => .error x
  | .ok _ =>
    let d := maxTapOperand taps
    let s := resolve init d u n
    match checkState s with
    | .error x => .error x
    | .ok _ =>
      match checkLength s d (conf = .galois) with
      | .error x => .error x
      | .ok _ =>
        match checkConf conf with
        | .error x => .error x
        | .ok c =>
          match checkOidx oidx s.length with
          | .error x => .error x
          | .ok _ => .ok (.fresh s (storedTaps taps) c oidx policy)

/-- The free vectors an `E_NEW` takes: the draw comes after `check_poly` (R110) and is spent even where the command then
fails, so that the next draw is another one (log entry 4). -/
def drawsOfNew (taps : List Int) (init : InitSpec) : Nat :=
  match checkPoly taps with
  | .ok _ => drawsTaken init
  | .error _ => 0

/-- `E_NEW` (R110): it replaces the whole engine of a slot that is not owned (R93, R277). -/
def execENew (t : EngineRef) (taps : List Int) (init : InitSpec) (conf : ConfTag) (oidx : Int) (policy : Policy)
    (s : State) : Result :=
  if s.owned t then fail .invalidCommand s
  else
    let u := unitOfRef t
    let s' := s.takeDraws u (drawsOfNew taps init)
    match construct taps init conf oidx policy u (s.draws.get u) with
    | .error x => fail x s'
    | .ok e => answer .nothing (s'.putEngine t e)

end Sys2Proof.Machine
end

