-- ==== Sys2Proof/Machine/Geffe.lean ====
section
/-!
DEFINITION. The Geffe unit (`45_geffe.md` R215 to R230).
-/

namespace Sys2Proof.Machine

/-- The engines of the slots, if every slot holds one. -/
def allConstructed : List (Option Engine) → Option (List Engine)
  | [] => some []
  | none :: _ => none
  | some e :: rest =>
    match allConstructed rest with
    | some es => some (e :: es)
    | none => none

/-- The unit that `GEFFE_BUILD` makes of slot `S` and the slots `C[0] … C[KMAX-1]` (R216). -/
def buildGeffe (k : Nat) (sel : Option Engine) (comps : List (Option Engine)) : Except ErrorName Geffe :=
  if powerOfTwo k = true ∧ k ≤ kMax then
    match sel, allConstructed (comps.take k) with
    | some s, some es =>
      if s.Consistent ∧ ∀ e ∈ es, e.Consistent then
        .ok { c := es, s := s, sel := none, count := 0, outbit := none, seq := [] }
      else .error .invalidComposite
    | _, _ => .error .invalidComposite
  else .error .invalidComposite

/-- `n = log2(K)`, the selector bits of a cycle (R217). -/
def Geffe.selBits (u : Geffe) : Nat := Nat.log2 u.c.length

/-- The components as the next cycle steps them: none in a first cycle, all of them later (R219, R220). -/
def Geffe.stepped (u : Geffe) : List Engine := if u.count = 0 then u.c else u.c.map Engine.stepInCycle

/-- The bits the next cycle draws from the selector (R221). A selector that is not consistent gives none, and they are free
values (log entry 7). -/
def Geffe.drawn (u : Geffe) : Bits :=
  if u.s.Consistent then u.s.outputs u.selBits else (List.range u.selBits).map (Config.undrawnBit u.s.state u.count)

/-- The selector after the `n` steps of the next cycle (R221); one that is not consistent is left as it is (log entry 7). -/
def Geffe.selStepped (u : Geffe) : Engine := if u.s.Consistent then u.s.after u.selBits else u.s

/-- The index of the next cycle, from the bits it draws (R222). -/
def Geffe.index (msbFirst : Bool) (u : Geffe) : Nat := selIndex msbFirst u.drawn

/-- The output of the next cycle: the tap of the selected component after the stepping (R223). With `K` a power
of two the index always names a component. -/
def Geffe.emit (msbFirst : Bool) (u : Geffe) : Bool :=
  match u.stepped[u.index msbFirst]? with
  | some e => e.tap
  | none => Config.absentCell [] (u.index msbFirst)

/-- The unit after one cycle (R218). -/
def Geffe.advance (msbFirst : Bool) (u : Geffe) : Geffe where
  c := u.stepped
  s := u.selStepped
  sel := some (u.index msbFirst)
  count := u.count + 1
  outbit := some (u.emit msbFirst)
  seq := u.seq ++ [u.emit msbFirst]

/-- The unit after `k` cycles. -/
def Geffe.after (msbFirst : Bool) : Nat → Geffe → Geffe
  | 0, u => u
  | k + 1, u => Geffe.after msbFirst k (u.advance msbFirst)

/-- The output bits of the next `k` cycles, in order. -/
def Geffe.outputs (msbFirst : Bool) : Nat → Geffe → Bits
  | 0, _ => []
  | k + 1, u => u.emit msbFirst :: Geffe.outputs msbFirst k (u.advance msbFirst)

/-- The unit after `GEFFE_RESET` (R225). -/
def Geffe.reset (u : Geffe) : Geffe :=
  { c := u.c.map Engine.reset, s := u.s.reset, sel := none, count := 0, outbit := none, seq := [] }

/-- `GEFFE_BUILD` (R216); reserved once built (R93). -/
def execGeffeBuild (k : Nat) (s : State) : Result :=
  match s.geffe with
  | .built _ _ => fail .invalidCommand s
  | .staging sel comps =>
    match buildGeffe k sel comps.toList with
    | .error x => fail x s
    | .ok u => answer .nothing (s.putGeffe u (comps.toList.drop k))

/-- `GEFFE_STEP` (R218). -/
def execGeffeStep (s : State) : Result :=
  onGeffe (fun u => (.bit (u.emit s.cfg.geffeSelMsbFirst), u.advance s.cfg.geffeSelMsbFirst)) s

/-- `GEFFE_RUN` (R224). -/
def execGeffeRun (k : Nat) (s : State) : Result :=
  onGeffe (fun u => (.bits (u.outputs s.cfg.geffeSelMsbFirst k), u.after s.cfg.geffeSelMsbFirst k)) s

/-- `GEFFE_RESET` (R225). -/
def execGeffeReset (s : State) : Result := onGeffe (fun u => (.nothing, u.reset)) s

/-- `GEFFE_GET_SEQ` (R226). -/
def execGeffeGetSeq (s : State) : Result := onGeffe (fun u => (.bits u.seq, u)) s

/-- `GEFFE_GET_COUNT` (R227). -/
def execGeffeGetCount (s : State) : Result := onGeffe (fun u => (.nat u.count, u)) s

/-- `GEFFE_GET_OUTBIT` (R228). -/
def execGeffeGetOutbit (s : State) : Result := onGeffe (fun u => (.optBit u.outbit, u)) s

/-- `GEFFE_GET_SEL` (R229). -/
def execGeffeGetSel (s : State) : Result := onGeffe (fun u => (.optNat u.sel, u)) s

end Sys2Proof.Machine
end

