-- ==== Sys2Proof/Machine/Geffe3.lean ====
section
/-!
DEFINITION. The Geffe3 unit (`46_geffe3.md` R235 to R246).
-/

namespace Sys2Proof.Machine

/-- The unit that `GEFFE3_BUILD` makes of the staged engines (R236). -/
def buildGeffe3 (slots : Slots3) : Except ErrorName Geffe3 :=
  match slots.r1, slots.r2, slots.r3 with
  | some e1, some e2, some e3 =>
    if e1.Consistent ∧ e2.Consistent ∧ e3.Consistent then
      .ok { r1 := e1, r2 := e2, r3 := e3, count := 0, outbit := none, seq := [] }
    else .error .invalidComposite
  | _, _, _ => .error .invalidComposite

/-- The unit with the engines as the next cycle steps them: none in a first cycle, all three later (R237). -/
def Geffe3.stepped (u : Geffe3) : Geffe3 :=
  if u.count = 0 then u else { u with r1 := u.r1.stepInCycle, r2 := u.r2.stepInCycle, r3 := u.r3.stepInCycle }

/-- The output of the next cycle (R238). -/
def Geffe3.emit (c : Combiner) (u : Geffe3) : Bool := combine c u.stepped.r1.tap u.stepped.r2.tap u.stepped.r3.tap

/-- The unit after one cycle (R238). -/
def Geffe3.advance (c : Combiner) (u : Geffe3) : Geffe3 :=
  { u.stepped with count := u.count + 1, outbit := some (u.emit c), seq := u.seq ++ [u.emit c] }

/-- The unit after `k` cycles. -/
def Geffe3.after (c : Combiner) : Nat → Geffe3 → Geffe3
  | 0, u => u
  | k + 1, u => Geffe3.after c k (u.advance c)

/-- The output bits of the next `k` cycles, in order. -/
def Geffe3.outputs (c : Combiner) : Nat → Geffe3 → Bits
  | 0, _ => []
  | k + 1, u => u.emit c :: Geffe3.outputs c k (u.advance c)

/-- The unit after `GEFFE3_RESET` (R242). -/
def Geffe3.reset (u : Geffe3) : Geffe3 :=
  { r1 := u.r1.reset, r2 := u.r2.reset, r3 := u.r3.reset, count := 0, outbit := none, seq := [] }

/-- `GEFFE3_BUILD` (R236); reserved once built (R93). -/
def execGeffe3Build (s : State) : Result :=
  match s.geffe3 with
  | .built _ => fail .invalidCommand s
  | .staging slots =>
    match buildGeffe3 slots with
    | .error x => fail x s
    | .ok u => answer .nothing (s.putGeffe3 u)

/-- `GEFFE3_STEP` (R238). -/
def execGeffe3Step (s : State) : Result :=
  onGeffe3 (fun u => (.bit (u.emit s.cfg.geffe3Combiner), u.advance s.cfg.geffe3Combiner)) s

/-- `GEFFE3_RUN` (R241). -/
def execGeffe3Run (k : Nat) (s : State) : Result :=
  onGeffe3 (fun u => (.bits (u.outputs s.cfg.geffe3Combiner k), u.after s.cfg.geffe3Combiner k)) s

/-- `GEFFE3_RESET` (R242). -/
def execGeffe3Reset (s : State) : Result := onGeffe3 (fun u => (.nothing, u.reset)) s

/-- `GEFFE3_GET_SEQ` (R243). -/
def execGeffe3GetSeq (s : State) : Result := onGeffe3 (fun u => (.bits u.seq, u)) s

/-- `GEFFE3_GET_COUNT` (R244). -/
def execGeffe3GetCount (s : State) : Result := onGeffe3 (fun u => (.nat u.count, u)) s

/-- `GEFFE3_GET_OUTBIT` (R245). -/
def execGeffe3GetOutbit (s : State) : Result := onGeffe3 (fun u => (.optBit u.outbit, u)) s

end Sys2Proof.Machine
end

