-- ==== Sys2Proof/Machine/Dispatch.lean ====
section
/-!
DEFINITION. The meaning of every instruction, one arm per row of `spec/opcode_table.json`.
-/

namespace Sys2Proof.Machine

def exec (i : Instr) (s : State) : Host.Outcome State Fault Refusal :=
  match i with
  | .eNew t taps init conf oidx policy => Sys2Proof.Machine.execENew t taps init conf oidx policy s
  | .eStep t => Sys2Proof.Machine.execEStep t s
  | .eRun t k => Sys2Proof.Machine.execERun t k s
  | .eRunFull t => Sys2Proof.Machine.execERunFull t s
  | .eReset t => Sys2Proof.Machine.execEReset t s
  | .eSetPoly t taps reset enforce => Sys2Proof.Machine.execESetPoly t taps reset enforce s
  | .eSetState t bits enforce => Sys2Proof.Machine.execESetState t bits enforce s
  | .eSetConf t conf => Sys2Proof.Machine.execESetConf t conf s
  | .eSetOidx t oidx => Sys2Proof.Machine.execESetOidx t oidx s
  | .eGetState t => Sys2Proof.Machine.execEGetState t s
  | .eGetPoly t => Sys2Proof.Machine.execEGetPoly t s
  | .eGetSeq t => Sys2Proof.Machine.execEGetSeq t s
  | .eGetCount t => Sys2Proof.Machine.execEGetCount t s
  | .eGetPeriod t => Sys2Proof.Machine.execEGetPeriod t s
  | .eGetOutbit t => Sys2Proof.Machine.execEGetOutbit t s
  | .eGetFb t => Sys2Proof.Machine.execEGetFb t s
  | .a51Build => Sys2Proof.Machine.execA51Build s
  | .a51Step => Sys2Proof.Machine.execA51Step s
  | .a51Run k => Sys2Proof.Machine.execA51Run k s
  | .a51Reset => Sys2Proof.Machine.execA51Reset s
  | .a51GetSeq => Sys2Proof.Machine.execA51GetSeq s
  | .a51GetCount => Sys2Proof.Machine.execA51GetCount s
  | .a51GetOutbit => Sys2Proof.Machine.execA51GetOutbit s
  | .a51GetCb => Sys2Proof.Machine.execA51GetCb s
  | .geffeBuild k => Sys2Proof.Machine.execGeffeBuild k s
  | .geffeStep => Sys2Proof.Machine.execGeffeStep s
  | .geffeRun k => Sys2Proof.Machine.execGeffeRun k s
  | .geffeReset => Sys2Proof.Machine.execGeffeReset s
  | .geffeGetSeq => Sys2Proof.Machine.execGeffeGetSeq s
  | .geffeGetCount => Sys2Proof.Machine.execGeffeGetCount s
  | .geffeGetOutbit => Sys2Proof.Machine.execGeffeGetOutbit s
  | .geffeGetSel => Sys2Proof.Machine.execGeffeGetSel s
  | .geffe3Build => Sys2Proof.Machine.execGeffe3Build s
  | .geffe3Step => Sys2Proof.Machine.execGeffe3Step s
  | .geffe3Run k => Sys2Proof.Machine.execGeffe3Run k s
  | .geffe3Reset => Sys2Proof.Machine.execGeffe3Reset s
  | .geffe3GetSeq => Sys2Proof.Machine.execGeffe3GetSeq s
  | .geffe3GetCount => Sys2Proof.Machine.execGeffe3GetCount s
  | .geffe3GetOutbit => Sys2Proof.Machine.execGeffe3GetOutbit s

end Sys2Proof.Machine
end

