-- ==== Sys2Proof/Machine/Fetch.lean ====
section
/-!
DEFINITION. Taking the next command from the host (`30_encoding.md` R80; log entry 2), and answering a reserved one (R91).
-/

namespace Sys2Proof.Machine

/-- The next command the host presents, and the state with that command off the port. -/
def State.fetch (s : State) : Option (Command × State) :=
  match s.host with
  | [] => none
  | c :: rest => some (c, { s with host := rest })

/-- The state in which the host presents `c` next. -/
def State.present (c : Command) (s : State) : State := { s with host := c :: s.host }

/-- No command is presented: the block does nothing (log entry 2). -/
def idle (s : State) : Result := .next s

/-- A reserved command changes no state and its response is `Err(InvalidCommand)` (R91). -/
def answerReserved (s : State) : Result := fail .invalidCommand s

end Sys2Proof.Machine
end

