-- ==== Sys2Proof/Machine/Step.lean ====
section
/-!
DEFINITION. One step of the machine: the next command of the host is taken, decoded and performed, and its response stands
on the response port (`30_encoding.md` R80, R91).
-/

namespace Sys2Proof.Machine

/-- One step. -/
def step (s : State) : Host.Outcome State Fault Refusal :=
  match s.fetch with
  | none => idle s
  | some (c, s') =>
    match decode c with
    | .ok i => exec i s'
    | .error _ => answerReserved s'

/-- The state in which the host presents next the command whose header is the word `w` of `nbits` bits and whose vectors are
empty (log entries 2 and 13). -/
def State.withFetchWord (s : State) (nbits w : Nat) : State := s.present (commandOfTableWord nbits w)

end Sys2Proof.Machine
end

