-- ==== Sys2Proof/Machine/Reference.lean ====
section
/-!
DEFINITION. The spec's reference functions (`00_scope.md` R5): the image transform (`40_lfsr_construction.md` R121) and the
sequence properties (`43_sequence_properties.md` R180 to R188). They are no hardware: no command reaches them and they have
no state.
-/

namespace Sys2Proof.Machine

/-- `image(t)` of a tap list sorted descending (R121). -/
def image (t : List Nat) : List Nat := (t.take 1 ++ t.tail.map (t.headD 0 - ·)).insertionSort (· ≥ ·)

/-- A verdict with the two counts (R182). -/
structure BalanceReport where
  pass : Bool
  ones : Nat
  zeros : Nat
  deriving DecidableEq, Repr

/-- `check_balance(p)` (R182). -/
def checkBalance (p : Bits) : BalanceReport where
  pass := p.count true == p.count false + 1
  ones := p.count true
  zeros := p.count false

/-- Rotate by one position. -/
def rotateOne : Bits → Bits
  | [] => []
  | b :: v => v ++ [b]

/-- Rotate, at most `n` times, until the first and last bits differ (R183). -/
def rotateToCut : Nat → Bits → Option Bits
  | 0, p => if p.head? ≠ p.getLast? then some p else none
  | n + 1, p => if p.head? ≠ p.getLast? then some p else rotateToCut n (rotateOne p)

/-- The lengths of the maximal runs, the current run having `n` bits equal to `b`; the last run is not closed, so the caller
appends a sentinel (R183). -/
def scanRuns (b : Bool) (n : Nat) : Bits → List Nat
  | [] => []
  | x :: v => if x = b then scanRuns b (n + 1) v else n :: scanRuns x 1 v

/-- The run lengths of a sequence whose first and last bits differ: append the opposite of the last bit, then scan. -/
def runLengths : Bits → List Nat
  | [] => []
  | b :: v => scanRuns b 1 (v ++ [!(b :: v).getLastD b])

/-- How many of the lengths are 1, 2, …, up to the largest. -/
def histogram (lengths : List Nat) : List Nat := (List.range (lengths.foldr max 0)).map fun j => lengths.count (j + 1)

/-- `runs(p)` (R183): entry `j` counts the maximal runs of length `j + 1` in the cyclic sequence. For a constant sequence the
source gives no result (U13): a free value (log entry 11). -/
def runHistogram (p : Bits) : List Nat :=
  match rotateToCut p.length p with
  | some q => histogram (runLengths q)
  | none => Config.constantRuns p

/-- The law of R184 on a histogram of at least two entries. -/
def runLaw : List Nat → Bool
  | [] => true
  | [_] => true
  | [a, b] => a == b
  | a :: b :: rest => a == 2 * b && runLaw (b :: rest)

/-- `check_run_length(p)` (R184): the verdict with the histogram. For fewer than two entries the source gives no verdict
(U13): a free value (log entry 11). -/
def checkRunLength (p : Bits) : Bool × List Nat :=
  let runs := runHistogram p
  (if runs.length < 2 then Config.shortVerdict runs else runLaw runs, runs)

/-- `rotate(p, k)` (R185). -/
def rotate (p : Bits) (k : Nat) : Bits := (List.range p.length).map fun i => cell p ((i + k) % p.length)

/-- `matches(p, q)` (R185). -/
def matchCount (p q : Bits) : Nat := (p.zip q).countP fun x => x.1 == x.2

/-- The numerator `A(k) = matches - mismatches` (R185). -/
def autocorrNumerator (p : Bits) (k : Nat) : Int :=
  (matchCount p (rotate p k) : Int) - ((p.length : Int) - (matchCount p (rotate p k) : Int))

/-- `Rxx(k)` (R185). For the empty sequence, `T = 0`, which R180 and R281 admit, R185 divides by 0 and the spec gives no value:
a free value (log entry 11). -/
def autocorr (p : Bits) (k : Nat) : Rat :=
  if p = [] then Config.emptyAutocorr k else (autocorrNumerator p k : Rat) / (p.length : Rat)

/-- A verdict with the shifts and the autocorrelation (R186). -/
structure AutocorrReport where
  pass : Bool
  shifts : List Nat
  values : List Rat
  deriving DecidableEq, Repr

/-- "Close to" within a tolerance `AUTOCORR_TOL` of at least `2/T`: a difference of at most the tolerance (log entry 11). -/
def closeTo (tol x y : Rat) : Bool := decide (x - y ≤ tol) && decide (y - x ≤ tol)

/-- The test of the shift `k` within the tolerance `AUTOCORR_TOL` (R188): for any tolerance below `2/T`, at every `T`, the integer
test `A(k) = -1`; above, "`Rxx(k)` close to `-1/T`" (R186). -/
def shiftPasses (tol : Rat) (p : Bits) (k : Nat) : Bool :=
  if tol < 2 / (p.length : Rat) then autocorrNumerator p k == -1
  else closeTo tol (autocorr p k) (-1 / (p.length : Rat))

/-- `check_autocorrelation(p)` with the tolerance as an argument (R186, R188). For `T = 0` no shift lies in `[1, T-1]`, so the
check passes, its one value being the free value of `autocorr` (log entry 11). -/
def checkAutocorrelation (tol : Rat) (p : Bits) : AutocorrReport where
  pass := (List.range (p.length - 1)).all fun i => shiftPasses tol p (i + 1)
  shifts := List.range (2 * p.length + 1)
  values := (List.range (2 * p.length + 1)).map (autocorr p)

/-- Full period `i`, counted from 0, of those that `E_RUN_FULL`s from `e` return. On an engine that is not consistent
`E_RUN_FULL` raises and returns none, and the functions never raise (R180, R259): a free value (log entry 11). -/
def fullPeriod (e : Engine) (i : Nat) : Bits :=
  if e.Consistent then (e.after (i * e.period)).outputs e.period else Config.unrunPeriod e.state i

/-- The engine after `n` `E_RUN_FULL`s, none of which changes an engine that is not consistent (R135). -/
def afterPeriods (n : Nat) (e : Engine) : Engine := if e.Consistent then e.after (n * e.period) else e

/-- A verdict with the two full periods it compares (R180, R181). -/
structure PeriodicityReport where
  pass : Bool
  first : Bits
  second : Bits
  deriving DecidableEq, Repr

/-- `check_periodicity(E)` (R181): two `E_RUN_FULL`s, compared, and the engine where they leave it. -/
def checkPeriodicity (e : Engine) : PeriodicityReport × Engine :=
  (⟨fullPeriod e 0 == fullPeriod e 1, fullPeriod e 0, fullPeriod e 1⟩, afterPeriods 2 e)

/-- Which full period `check_all` captures (U14). -/
inductive Captured where
  | first | second | third
  deriving DecidableEq, Repr

/-- The captured full period, and the engine after the aggregate: a third period is a third `E_RUN_FULL` (U14). -/
def capture (which : Captured) (e : Engine) : Bits × Engine :=
  match which with
  | .first => (fullPeriod e 0, afterPeriods 2 e)
  | .second => (fullPeriod e 1, afterPeriods 2 e)
  | .third => (fullPeriod e 2, afterPeriods 3 e)

/-- The overall verdict with the reports of the four checks (R180, R187). -/
structure AggregateReport where
  pass : Bool
  periodicity : PeriodicityReport
  balance : BalanceReport
  runLength : Bool × List Nat
  autocorrelation : AutocorrReport
  deriving DecidableEq, Repr

/-- `check_all(E)` (R187): the conjunction of the four checks. -/
def checkAll (tol : Rat) (which : Captured) (e : Engine) : AggregateReport × Engine :=
  let p := (capture which e).1
  let periodicity := (checkPeriodicity e).1
  let balance := checkBalance p
  let runLength := checkRunLength p
  let autocorrelation := checkAutocorrelation tol p
  (⟨periodicity.pass && balance.pass && runLength.1 && autocorrelation.pass, periodicity, balance, runLength,
    autocorrelation⟩, (capture which e).2)

end Sys2Proof.Machine
end

