-- ==== Sys2Proof/Machine/Table.lean ====
section
/-!
DEFINITION. The encoding as the spec's tables list it, in the words the statements about the decoder use: the rows of
`spec/opcode_table.json`, and the cases of `30_encoding.md` R91. The decoder is not written from these definitions.
-/

namespace Sys2Proof.Machine

/-- The `match` and `mask` words of an instruction's row of `spec/opcode_table.json`. -/
def tableRow : Instr → Header × Header
  | .eNew _ _ _ _ _ _ => (0x01000000#32, 0xFF0000E0#32)
  | .eStep _ => (0x02000000#32, 0xFF00FFFF#32)
  | .eRun _ _ => (0x03000000#32, 0xFF000000#32)
  | .eRunFull _ => (0x04000000#32, 0xFF00FFFF#32)
  | .eReset _ => (0x05000000#32, 0xFF00FFFF#32)
  | .eSetPoly _ _ _ _ => (0x06000000#32, 0xFF00FFFC#32)
  | .eSetState _ _ _ => (0x07000000#32, 0xFF00FFFD#32)
  | .eSetConf _ _ => (0x08000000#32, 0xFF00FFFC#32)
  | .eSetOidx _ _ => (0x09000000#32, 0xFF0000FF#32)
  | .eGetState _ => (0x10000000#32, 0xFF00FFFF#32)
  | .eGetPoly _ => (0x11000000#32, 0xFF00FFFF#32)
  | .eGetSeq _ => (0x12000000#32, 0xFF00FFFF#32)
  | .eGetCount _ => (0x13000000#32, 0xFF00FFFF#32)
  | .eGetPeriod _ => (0x14000000#32, 0xFF00FFFF#32)
  | .eGetOutbit _ => (0x15000000#32, 0xFF00FFFF#32)
  | .eGetFb _ => (0x16000000#32, 0xFF00FFFF#32)
  | .a51Build => (0x20100000#32, 0xFFFFFFFF#32)
  | .a51Step => (0x21100000#32, 0xFFFFFFFF#32)
  | .a51Run _ => (0x22100000#32, 0xFFFF0000#32)
  | .a51Reset => (0x23100000#32, 0xFFFFFFFF#32)
  | .a51GetSeq => (0x28100000#32, 0xFFFFFFFF#32)
  | .a51GetCount => (0x29100000#32, 0xFFFFFFFF#32)
  | .a51GetOutbit => (0x2A100000#32, 0xFFFFFFFF#32)
  | .a51GetCb => (0x2B100000#32, 0xFFFFFFFF#32)
  | .geffeBuild _ => (0x20200000#32, 0xFFFFFFF0#32)
  | .geffeStep => (0x21200000#32, 0xFFFFFFFF#32)
  | .geffeRun _ => (0x22200000#32, 0xFFFF0000#32)
  | .geffeReset => (0x23200000#32, 0xFFFFFFFF#32)
  | .geffeGetSeq => (0x28200000#32, 0xFFFFFFFF#32)
  | .geffeGetCount => (0x29200000#32, 0xFFFFFFFF#32)
  | .geffeGetOutbit => (0x2A200000#32, 0xFFFFFFFF#32)
  | .geffeGetSel => (0x2B200000#32, 0xFFFFFFFF#32)
  | .geffe3Build => (0x20300000#32, 0xFFFFFFFF#32)
  | .geffe3Step => (0x21300000#32, 0xFFFFFFFF#32)
  | .geffe3Run _ => (0x22300000#32, 0xFFFF0000#32)
  | .geffe3Reset => (0x23300000#32, 0xFFFFFFFF#32)
  | .geffe3GetSeq => (0x28300000#32, 0xFFFFFFFF#32)
  | .geffe3GetCount => (0x29300000#32, 0xFFFFFFFF#32)
  | .geffe3GetOutbit => (0x2A300000#32, 0xFFFFFFFF#32)

/-- The bits `hi` down to `lo` of the header as a number (R82). -/
def headerBits (h : Header) (hi lo : Nat) : Nat := h.toNat / 2 ^ lo % 2 ^ (hi + 1 - lo)

/-- The opcodes of the table of R90. -/
def opcodes : List Nat :=
  [0x01, 0x02, 0x03, 0x04, 0x05, 0x06, 0x07, 0x08, 0x09, 0x10, 0x11, 0x12, 0x13, 0x14, 0x15, 0x16,
    0x20, 0x21, 0x22, 0x23, 0x28, 0x29, 0x2A, 0x2B]

/-- The `(op, unit, slot)` combinations that R83, R84 and R93 allow in some condition of the unit. -/
def targetAllowed (op unit slot : Nat) : Prop :=
  if op < 0x20 then
    unit = 0 ∧ slot = 0 ∨ (unit = 1 ∨ unit = 3) ∧ 1 ≤ slot ∧ slot ≤ 3 ∨ unit = 2 ∧ slot ≤ 8
  else 1 ≤ unit ∧ unit ≤ 3 ∧ slot = 0 ∧ ¬(op = 0x2B ∧ unit = 3)

/-- The bits of `imm16` that must be 0 (R85). -/
def zeroBits (op unit : Nat) : List Nat :=
  match op with
  | 0x01 => [5, 6, 7]
  | 0x03 => []
  | 0x06 => (List.range 16).drop 2
  | 0x07 => 0 :: (List.range 16).drop 2
  | 0x08 => (List.range 16).drop 2
  | 0x09 => List.range 8
  | 0x20 => if unit = 2 then (List.range 16).drop 4 else List.range 16
  | 0x22 => []
  | _ => List.range 16

/-- The command is reserved, whatever the condition of the units: the cases of R91, the dynamic rows of R93 left out. -/
def ReservedEncoding (c : Command) : Prop :=
  let op := headerBits c.hdr 31 24
  let unit := headerBits c.hdr 23 20
  let slot := headerBits c.hdr 19 16
  let init := headerBits c.hdr 3 2
  op ∉ opcodes ∨ 3 < unit ∨ ¬targetAllowed op unit slot ∨ (∃ b ∈ zeroBits op unit, c.hdr.getLsbD b = true) ∨
    (op = 0x01 ∧ init = 3) ∨ (c.va ≠ [] ∧ op ≠ 0x01 ∧ op ≠ 0x06) ∨
    (c.vb ≠ [] ∧ op ≠ 0x07 ∧ ¬(op = 0x01 ∧ init = 2))

end Sys2Proof.Machine
end

