-- ==== Sys2Proof/Safety.lean ====
section
/-!
DEFINITION. The terms claims use: the invariants of the units (`10_state.md` R22 to R34, R36 to R40), and what it is for a
command to leave everything else alone (`20_memory.md` R68, `10_state.md` R35, R39).
-/

namespace Sys2Proof.Machine

/-- What holds of every engine the block holds, consistent or not: the taps are at least two, sorted descending and at least
1 (R23); the register and the stored initial state have at least two cells and the latter is not all-zero (R8, R32, R34);
the log has one bit per step (R31); the two flags are absent exactly before the first step (R28, R29). -/
structure Engine.Wf (e : Engine) : Prop where
  taps_two : 2 ≤ e.taps.length
  taps_sorted : e.taps.Pairwise (· > ·)
  taps_pos : ∀ p ∈ e.taps, 1 ≤ p
  len_two : 2 ≤ e.len
  init_two : 2 ≤ e.initState.length
  init_nonzero : true ∈ e.initState
  seq_count : e.seq.length = e.count
  fb_count : e.fb.isSome = true ↔ 0 < e.count
  outbit_count : e.outbit.isSome = true ↔ 0 < e.count

/-- What holds of a built A5/1 unit: its engines carry the tap sets and the configuration `A51_BUILD` admitted (R196, R39),
and its own fields move together (R36, R48). Their registers need not keep the lengths 19, 22, 23: a reset restores an
`init_state` of another length where the engine was resized before the build (log entry 7). -/
structure A51.Wf (cfg : Config) (u : A51) : Prop where
  r1 : u.r1.Wf ∧ u.r1.taps = cfg.a51Taps1 ∧ u.r1.conf = .fib
  r2 : u.r2.Wf ∧ u.r2.taps = cfg.a51Taps2 ∧ u.r2.conf = .fib
  r3 : u.r3.Wf ∧ u.r3.taps = cfg.a51Taps3 ∧ u.r3.conf = .fib
  seq_count : u.seq.length = u.count
  outbit_count : u.outbit.isSome = true ↔ 0 < u.count
  cb_count : u.cb.isSome = true ↔ 0 < u.count

/-- What holds of a built Geffe unit (R37, R216, R217): `K` is a power of two and at most `KMAX`, and the index names a
component. -/
structure Geffe.Wf (u : Geffe) : Prop where
  comps : ∀ e ∈ u.c, e.Wf
  sel_engine : u.s.Wf
  power : ∃ n, u.c.length = 2 ^ n
  sel_lt : ∀ i, u.sel = some i → i < u.c.length
  seq_count : u.seq.length = u.count
  outbit_count : u.outbit.isSome = true ↔ 0 < u.count
  sel_count : u.sel.isSome = true ↔ 0 < u.count

/-- What holds of a built Geffe3 unit (R38, R236). -/
structure Geffe3.Wf (u : Geffe3) : Prop where
  r1 : u.r1.Wf
  r2 : u.r2.Wf
  r3 : u.r3.Wf
  seq_count : u.seq.length = u.count
  outbit_count : u.outbit.isSome = true ↔ 0 < u.count

/-- The built A5/1 unit, none while it is staging. -/
def State.a51Built (s : State) : Option A51 :=
  match s.a51 with
  | .staging _ => none
  | .built u => some u

/-- The built Geffe unit, none while it is staging. -/
def State.geffeBuilt (s : State) : Option Geffe :=
  match s.geffe with
  | .staging _ _ => none
  | .built u _ => some u

/-- The built Geffe3 unit, none while it is staging. -/
def State.geffe3Built (s : State) : Option Geffe3 :=
  match s.geffe3 with
  | .staging _ => none
  | .built u => some u

/-- The slots of a Geffe unit are `KMAX` in number, built or not (R83). -/
def State.GeffeSlotsFull (s : State) : Prop :=
  match s.geffe with
  | .staging _ _ => True
  | .built u spare => (geffeSlots u spare).length = kMax

/-- The invariant of the machine. -/
structure State.Inv (s : State) : Prop where
  engines : ∀ t e, s.engine t = some e → e.Wf
  a51 : ∀ u, s.a51Built = some u → u.Wf s.cfg
  geffe : ∀ u, s.geffeBuilt = some u → u.Wf
  geffe3 : ∀ u, s.geffe3Built = some u → u.Wf
  slots : s.GeffeSlotsFull

/-- The four units hold in `s'` what they hold in `s`. -/
structure SameUnits (s s' : State) : Prop where
  lfsr : s'.lfsr = s.lfsr
  a51 : s'.a51 = s.a51
  geffe : s'.geffe = s.geffe
  geffe3 : s'.geffe3 = s.geffe3

/-- The host's further commands, the free values and the parameters are in `s'` what they are in `s`. -/
structure SameRest (s s' : State) : Prop where
  host : s'.host = s.host
  draws : s'.draws = s.draws
  cfg : s'.cfg = s.cfg

/-- From `s` to `s'` the engine at `t` became `e`, and nothing else of any unit changed: every other engine, and the
composites' own fields and condition. -/
structure EngineChanged (t : EngineRef) (e : Engine) (s s' : State) : Prop where
  written : s'.engine t = some e
  others : ∀ t', t' ≠ t → s'.engine t' = s.engine t'
  a51 : s'.a51Built = s.a51Built
  geffe : s'.geffeBuilt = s.geffeBuilt
  geffe3 : s'.geffe3Built = s.geffe3Built

/-- The fields of an engine that only a mutator or the constructor writes are in `e'` what they are in `e` (R134, R39). -/
structure SameControl (e e' : Engine) : Prop where
  taps : e'.taps = e.taps
  conf : e'.conf = e.conf
  oidx : e'.oidx = e.oidx
  policy : e'.policy = e.policy
  initState : e'.initState = e.initState

/-- The cell the output index names holds `b` (R16, R17): index `i` itself if it is not negative, else `i + M`. -/
def TapIs (e : Engine) (b : Bool) : Prop :=
  ∀ j : Nat, (j : Int) = e.oidx ∨ (j : Int) = e.oidx + (e.len : Int) → j < e.len → e.state[j]? = some b

/-- `E_STEP` makes `e'` of `e` and returns `b`, wherever the engine stands alone. -/
def EStepMakes (e e' : Engine) (b : Bool) : Prop :=
  ∀ s : State, ∃ s', exec (.eStep .lfsr) { s with lfsr := some e } = .next s' ∧ s'.lfsr = some e' ∧
    s'.response = some (.ok (.bit b))

/-- `E_RUN k` makes `e'` of `e` and returns the bits `r`, wherever the engine stands alone. -/
def ERunMakes (k : Nat) (e e' : Engine) (r : Bits) : Prop :=
  ∀ s : State, ∃ s', exec (.eRun .lfsr k) { s with lfsr := some e } = .next s' ∧ s'.lfsr = some e' ∧
    s'.response = some (.ok (.bits r))

/-- What `E_RESET` makes of `e` (R152). -/
def ResetOf (e : Engine) : Engine :=
  { e with state := e.initState, count := 0, fb := none, outbit := none, seq := [] }

/-- An engine that was never resized: the register and the stored initial state have one length, so a reset keeps `M`. -/
def Engine.Unresized (e : Engine) : Prop := e.initState.length = e.len

/-- `d` is the largest of the operand taps. -/
def IsMaxTap (taps : List Int) (d : Nat) : Prop := (d : Int) ∈ taps ∧ ∀ p ∈ taps, p ≤ (d : Int)

/-- The operand taps pass `check_poly` (R112). -/
def PolyValid (taps : List Int) : Prop := 2 ≤ taps.length ∧ taps.Nodup ∧ ∀ p ∈ taps, 1 ≤ p

/-- `stored` is the operand list sorted descending (R113). -/
def StoredAs (taps : List Int) (stored : List Nat) : Prop :=
  (stored.map Int.ofNat).Perm taps ∧ stored.Pairwise (· > ·)

/-- The command fails with `x`: it answers `Err(x)` and nothing else changes (R252). -/
def Rejects (i : Instr) (s : State) (x : ErrorName) : Prop := exec i s = .next { s with response := some (.err x) }

/-- The command returns `v` and changes nothing else. -/
def Returns (i : Instr) (s : State) (v : Value) : Prop := exec i s = .next { s with response := some (.ok v) }

/-- The unit a command addresses (R82, R84). -/
def unitOf : Instr → UnitName
  | .eNew t _ _ _ _ _ => unitOfRef t
  | .eStep t => unitOfRef t
  | .eRun t _ => unitOfRef t
  | .eRunFull t => unitOfRef t
  | .eReset t => unitOfRef t
  | .eSetPoly t _ _ _ => unitOfRef t
  | .eSetState t _ _ => unitOfRef t
  | .eSetConf t _ => unitOfRef t
  | .eSetOidx t _ => unitOfRef t
  | .eGetState t => unitOfRef t
  | .eGetPoly t => unitOfRef t
  | .eGetSeq t => unitOfRef t
  | .eGetCount t => unitOfRef t
  | .eGetPeriod t => unitOfRef t
  | .eGetOutbit t => unitOfRef t
  | .eGetFb t => unitOfRef t
  | .a51Build => .a51
  | .a51Step => .a51
  | .a51Run _ => .a51
  | .a51Reset => .a51
  | .a51GetSeq => .a51
  | .a51GetCount => .a51
  | .a51GetOutbit => .a51
  | .a51GetCb => .a51
  | .geffeBuild _ => .geffe
  | .geffeStep => .geffe
  | .geffeRun _ => .geffe
  | .geffeReset => .geffe
  | .geffeGetSeq => .geffe
  | .geffeGetCount => .geffe
  | .geffeGetOutbit => .geffe
  | .geffeGetSel => .geffe
  | .geffe3Build => .geffe3
  | .geffe3Step => .geffe3
  | .geffe3Run _ => .geffe3
  | .geffe3Reset => .geffe3
  | .geffe3GetSeq => .geffe3
  | .geffe3GetCount => .geffe3
  | .geffe3GetOutbit => .geffe3

/-- The unit `n` holds in `s'` what it holds in `s`. -/
def SameUnit (n : UnitName) (s s' : State) : Prop :=
  match n with
  | .lfsr => s'.lfsr = s.lfsr
  | .a51 => s'.a51 = s.a51
  | .geffe => s'.geffe = s.geffe
  | .geffe3 => s'.geffe3 = s.geffe3

end Sys2Proof.Machine
end

