-- ==== Sys2Proof/Certificates/Slice0/Obligations.lean ====
section
/-!
DEFINITION. The statements for the provers. Each docstring says which rule of `spec/` the statement formalises; where it rests
on a choice of the model, it names the log entry.
-/

open Sys2Proof Sys2Proof.Machine

/-! ### Encoding -/

/-- `30_encoding.md` R81 to R90: the encoding carries every operand of every well-formed instruction. -/
def Obligations.EncodedInstructionsDecodeBack : Prop :=
  ∀ i : Instr, i.wellFormed = true → decode (encode i) = .ok i

/-- `30_encoding.md` R81, R85, R87, R88: what the decoder reads fits the encoding. -/
def Obligations.DecodedInstructionsAreWellFormed : Prop :=
  ∀ (c : Command) (i : Instr), decode c = .ok i → i.wellFormed = true

/-- `30_encoding.md` R86, R91: a command that decodes is the encoding of what it decodes to, up to absent taps at the end of
its mask. -/
def Obligations.DecodingLosesNoBit : Prop :=
  ∀ (c : Command) (i : Instr), decode c = .ok i →
    (encode i).hdr = c.hdr ∧ (encode i).vb = c.vb ∧
      ∀ p : Nat, (encode i).va[p]? = some true ↔ c.va[p]? = some true

/-- `30_encoding.md` R97: the nine worked encodings. -/
def Obligations.WorkedEncodingsDecode : Prop :=
  decode ⟨0x0100FF00, [false, true, false, false, true], []⟩ = .ok (.eNew .lfsr [2, 5] .allOnes .fibonacci (-1) .zero) ∧
  decode ⟨0x01000019, [false, true, true], [true, true, true]⟩ =
    .ok (.eNew .lfsr [2, 3] (.explicit [true, true, true]) .galois 0 .one) ∧
  decode ⟨0x02000000, [], []⟩ = .ok (.eStep .lfsr) ∧
  decode ⟨0x0300000E, [], []⟩ = .ok (.eRun .lfsr 14) ∧
  decode ⟨0x06000001, [false, false, true, false, true], []⟩ = .ok (.eSetPoly .lfsr [3, 5] true false) ∧
  decode ⟨0x0112FF00, List.replicate 20 false ++ [true, true], []⟩ =
    .ok (.eNew (.a51 .r2) [21, 22] .allOnes .fibonacci (-1) .zero) ∧
  decode ⟨0x21100000, [], []⟩ = .ok .a51Step ∧
  decode ⟨0x20200002, [], []⟩ = .ok (.geffeBuild 2) ∧
  decode ⟨0x22300018, [], []⟩ = .ok (.geffe3Run 24)

/-- `spec/opcode_table.json`: a command decodes to an instruction only if its header matches the instruction's row. -/
def Obligations.DecodedHeadersMatchTheirTableRow : Prop :=
  ∀ (c : Command) (i : Instr), decode c = .ok i → c.hdr &&& (tableRow i).2 = (tableRow i).1

/-- `30_encoding.md` R91 (its static cases) and R81: a command is rejected exactly when it is reserved or a vector is longer
than the port carries (the latter is log entry 6). -/
def Obligations.DecoderRejectsExactlyReserved : Prop :=
  ∀ c : Command, (∃ r, decode c = .error r) ↔
    mMax < c.va.length ∨ mMax < c.vb.length ∨ ReservedEncoding c

/-! ### Steps and reset -/

/-- `30_encoding.md` R80: the next command of the host is taken off the port, decoded and performed (the host's list is log
entry 2). -/
def Obligations.StepPerformsTheDecodedCommand : Prop :=
  ∀ (s : State) (c : Command) (rest : List Command) (i : Instr), s.host = c :: rest → decode c = .ok i →
    step s = exec i { s with host := rest }

/-- `30_encoding.md` R91, `60_exceptions.md` R263: a reserved command answers InvalidCommand and changes no unit. -/
def Obligations.ReservedCommandsAnswerInvalidCommand : Prop :=
  ∀ (s : State) (c : Command) (rest : List Command), s.host = c :: rest → ReservedEncoding c →
    step s = .next { s with host := rest, response := some (.err .invalidCommand) }

/-- `20_memory.md` R67, `30_encoding.md` R91, `60_exceptions.md` R252: every step completes, whatever the state and the
command (that an error is a next state is log entry 1; that no command is an idle step is log entry 2). -/
def Obligations.EveryStepCompletes : Prop := ∀ s : State, ∃ s', step s = .next s'

/-- `10_state.md` R49, `60_exceptions.md` R264: after power-on no engine is constructed and no composite is built. -/
def Obligations.PowerOnLeavesEveryUnitUnconstructed : Prop :=
  (∀ t, State.reset.engine t = none) ∧ (∀ t, State.reset.owned t = false) ∧
    State.reset.a51Built = none ∧ State.reset.geffeBuilt = none ∧ State.reset.geffe3Built = none

/-! ### Construction -/

/-- `40_lfsr_construction.md` R113, R114, R119 with R47: the engine a successful E_NEW makes, with its frame. A random state is
the free value `Config.drawBit` at the unit's draw counter, which is the model's own choice (log entry 4), and the statement
holds for every value of it. -/
def Obligations.NewMakesTheEngine : Prop :=
  ∀ (s : State) (t : EngineRef) (taps : List Int) (init : InitSpec) (conf : ConfTag) (c : Conf) (oidx : Int)
    (policy : Policy) (d : Nat) (v : Bits),
    s.owned t = false → PolyValid taps → IsMaxTap taps d →
    (v = match init with
      | .allOnes => List.replicate d true
      | .random => (List.range d).map (Config.drawBit (unitOfRef t) (s.draws.get (unitOfRef t)))
      | .explicit bits => bits) →
    true ∈ v → d ≤ v.length → (conf = .galois → v.length = d) →
    (conf = .fibonacci ∧ c = .fib ∨ conf = .galois ∧ c = .gal) →
    -(v.length : Int) ≤ oidx → oidx ≤ (v.length : Int) - 1 →
    ∃ s' e, exec (.eNew t taps init conf oidx policy) s = .next s' ∧ s'.response = some (.ok .nothing) ∧
      EngineChanged t e s s' ∧ s'.host = s.host ∧ s'.cfg = s.cfg ∧ (init ≠ .random → s'.draws = s.draws) ∧
      StoredAs taps e.taps ∧
      e = { state := v, taps := e.taps, conf := c, oidx := oidx, policy := policy, count := 0, fb := none,
            outbit := none, seq := [], initState := v } ∧
      e.taps.head? = some d ∧ e.len = v.length ∧ e.period = 2 ^ v.length - 1 ∧ e.Consistent ∧
      ((∀ bits, init ≠ .explicit bits) → e.len = d)

/-- `40_lfsr_construction.md` R111, R112, R114 to R118, `60_exceptions.md` R258: the checks of E_NEW in order, the first that
fails giving the error, and no unit changed. A random state is the free value `Config.drawBit` at the unit's draw counter, which
is the model's own choice, as is what an E_NEW that fails leaves of the counter (log entry 4). -/
def Obligations.NewReportsTheFirstFailedCheck : Prop :=
  ∀ (s : State) (t : EngineRef) (taps : List Int) (init : InitSpec) (conf : ConfTag) (oidx : Int) (policy : Policy),
    s.owned t = false →
    let fails (x : ErrorName) : Prop := ∃ s', exec (.eNew t taps init conf oidx policy) s = .next s' ∧
      s'.response = some (.err x) ∧ SameUnits s s' ∧ s'.host = s.host ∧ s'.cfg = s.cfg ∧
      (init ≠ .random → s'.draws = s.draws)
    (¬PolyValid taps → fails .invalidPolynomial) ∧
    ∀ (d : Nat) (v : Bits), PolyValid taps → IsMaxTap taps d →
      (v = match init with
        | .allOnes => List.replicate d true
        | .random => (List.range d).map (Config.drawBit (unitOfRef t) (s.draws.get (unitOfRef t)))
        | .explicit bits => bits) →
      (true ∉ v → fails .invalidState) ∧
      (true ∈ v → (v.length < d ∨ conf = .galois ∧ v.length ≠ d) → fails .invalidState) ∧
      (true ∈ v → d ≤ v.length → (conf = .neither2 ∨ conf = .neither3) → fails .invalidConfiguration) ∧
      (true ∈ v → d ≤ v.length → (conf = .fibonacci ∨ conf = .galois ∧ v.length = d) →
        (oidx < -(v.length : Int) ∨ (v.length : Int) - 1 < oidx) → fails .invalidOutputIndex)

/-! ### The step -/

/-- `41_lfsr_step.md` R131, R132, R134: one Fibonacci step, cell by cell, with its flags, its log and its frame. -/
def Obligations.FibonacciStepShiftsTowardTheOutput : Prop :=
  ∀ (s : State) (t : EngineRef) (e : Engine), s.owned t = false → s.engine t = some e → e.Consistent → e.conf = .fib →
    ∃ s' e' f o, exec (.eStep t) s = .next s' ∧ s'.response = some (.ok (.bit o)) ∧ SameRest s s' ∧
      EngineChanged t e' s s' ∧ SameControl e e' ∧
      (f = true ↔ Odd (e.taps.countP fun p => e.state[p - 1]? == some true)) ∧
      e'.len = e.len ∧ e'.state[0]? = some f ∧ (∀ i, 1 ≤ i → i < e.len → e'.state[i]? = e.state[i - 1]?) ∧
      (e.policy = .zero → TapIs e o) ∧ (e.policy = .one → TapIs e' o) ∧
      e'.fb = some f ∧ e'.outbit = some o ∧ e'.seq = e.seq ++ [o] ∧ e'.count = e.count + 1

/-- `41_lfsr_step.md` R131, R133, R134: one Galois step, cell by cell. The taps are sorted, as they are stored (R23), so that
`taps[0]` is the leading tap; the machine's invariant says so of every engine. -/
def Obligations.GaloisStepRotatesAndInjects : Prop :=
  ∀ (s : State) (t : EngineRef) (e : Engine), s.owned t = false → s.engine t = some e → e.Consistent → e.conf = .gal →
    e.taps.Pairwise (· > ·) →
    ∃ s' e' f o, exec (.eStep t) s = .next s' ∧ s'.response = some (.ok (.bit o)) ∧ SameRest s s' ∧
      EngineChanged t e' s s' ∧ SameControl e e' ∧
      e.state[0]? = some f ∧ e'.len = e.len ∧ e'.state[e.len - 1]? = some f ∧
      (∀ i, i + 1 < e.len → e'.state[i]? =
        e.state[i + 1]?.map fun b => if i + 1 ∈ e.taps ∧ e.taps[0]? ≠ some (i + 1) then xor b f else b) ∧
      (e.policy = .zero → TapIs e o) ∧ (e.policy = .one → TapIs e' o) ∧
      e'.fb = some f ∧ e'.outbit = some o ∧ e'.seq = e.seq ++ [o] ∧ e'.count = e.count + 1

/-- `41_lfsr_step.md` R135, `60_exceptions.md` R262: stepping an engine that is not consistent. -/
def Obligations.InconsistentEnginesAreNotStepped : Prop :=
  ∀ (s : State) (t : EngineRef) (e : Engine) (k : Nat), s.owned t = false → s.engine t = some e → ¬e.Consistent →
    Rejects (.eStep t) s .inconsistent ∧ Rejects (.eRun t k) s .inconsistent ∧ Rejects (.eRunFull t) s .inconsistent

/-- `41_lfsr_step.md` R137: E_RUN of `k + 1` is an E_STEP and then an E_RUN of `k`, and E_RUN of 0 changes nothing. -/
def Obligations.RunIsStepsInOrder : Prop :=
  ∀ (s : State) (t : EngineRef) (e : Engine), s.owned t = false → s.engine t = some e → e.Consistent →
    Returns (.eRun t 0) s (.bits []) ∧
    ∀ k : Nat, ∃ s1 s2 b r, exec (.eStep t) s = .next s1 ∧ s1.response = some (.ok (.bit b)) ∧
      exec (.eRun t k) s1 = .next s2 ∧ s2.response = some (.ok (.bits r)) ∧ r.length = k ∧
      exec (.eRun t (k + 1)) s = .next { s2 with response := some (.ok (.bits (b :: r))) }

/-- `41_lfsr_step.md` R138: E_RUN_FULL is E_RUN with `k = 2^M - 1`, and it returns that many bits. -/
def Obligations.RunFullRunsTheNominalPeriod : Prop :=
  ∀ (s : State) (t : EngineRef) (e : Engine), s.engine t = some e →
    exec (.eRunFull t) s = exec (.eRun t (2 ^ e.state.length - 1)) s ∧
    (s.owned t = false → e.Consistent → ∃ s' e' r, exec (.eRunFull t) s = .next s' ∧
      s'.response = some (.ok (.bits r)) ∧ r.length = 2 ^ e.state.length - 1 ∧ SameRest s s' ∧
      EngineChanged t e' s s' ∧ SameControl e e' ∧ e'.seq = e.seq ++ r ∧ e'.count = e.count + (2 ^ e.state.length - 1))

/-- `41_lfsr_step.md` R139: the stream under ONE is the stream under ZERO without its first bit, and the registers do not
depend on the policy. -/
def Obligations.PoliciesDifferByOneSample : Prop :=
  ∀ (s : State) (t : EngineRef) (e : Engine) (k : Nat), s.owned t = false → e.Consistent →
    ∃ s0 s1 s2 r0 r1 r2 e1 e2,
      exec (.eRun t (k + 1)) (s.putEngine t { e with policy := .zero }) = .next s0 ∧
      s0.response = some (.ok (.bits r0)) ∧
      exec (.eRun t k) (s.putEngine t { e with policy := .one }) = .next s1 ∧
      s1.response = some (.ok (.bits r1)) ∧ r1 = r0.tail ∧
      exec (.eRun t k) (s.putEngine t { e with policy := .zero }) = .next s2 ∧
      s2.response = some (.ok (.bits r2)) ∧
      s1.engine t = some e1 ∧ s2.engine t = some e2 ∧ e1.state = e2.state

/-- `41_lfsr_step.md` R136, `60_exceptions.md` R259: the all-zero state is a fixed point, steps complete on it and emit 0. -/
def Obligations.AllZeroStateIsAbsorbing : Prop :=
  ∀ (s : State) (t : EngineRef) (e : Engine) (k : Nat), s.owned t = false → s.engine t = some e → e.Consistent →
    true ∉ e.state →
    ∃ s' e', exec (.eRun t k) s = .next s' ∧ s'.response = some (.ok (.bits (List.replicate k false))) ∧
      s'.engine t = some e' ∧ e'.state = e.state ∧ (0 < k → e'.fb = some false ∧ e'.outbit = some false) ∧
      e'.count = e.count + k ∧ e'.seq = e.seq ++ List.replicate k false

/-- `41_lfsr_step.md` R136, `70_reset_and_hazards.md` R289: in Galois, and in Fibonacci with `M` a tap, a step is injective on
registers, so a register that is not all-zero never becomes all-zero. -/
def Obligations.StepIsReversibleWhereLengthIsATap : Prop :=
  ∀ (s : State) (t : EngineRef) (e : Engine) (a b : Bits), s.owned t = false →
    { e with state := a }.Consistent → e.taps.Pairwise (· > ·) → b.length = a.length → a.length ∈ e.taps →
    ∃ s1 s2 e1 e2, exec (.eStep t) (s.putEngine t { e with state := a }) = .next s1 ∧
      exec (.eStep t) (s.putEngine t { e with state := b }) = .next s2 ∧
      s1.engine t = some e1 ∧ s2.engine t = some e2 ∧ (e1.state = e2.state → a = b) ∧
      (true ∈ a → true ∈ e1.state)

/-- `41_lfsr_step.md` R140: the transition is linear over GF(2), for fixed taps and configuration. -/
def Obligations.StepIsLinear : Prop :=
  ∀ (s : State) (t : EngineRef) (e : Engine) (a b : Bits), s.owned t = false →
    { e with state := a }.Consistent → b.length = a.length →
    ∃ s1 s2 s3 e1 e2 e3, exec (.eStep t) (s.putEngine t { e with state := a }) = .next s1 ∧
      exec (.eStep t) (s.putEngine t { e with state := b }) = .next s2 ∧
      exec (.eStep t) (s.putEngine t { e with state := a.zipWith xor b }) = .next s3 ∧
      s1.engine t = some e1 ∧ s2.engine t = some e2 ∧ s3.engine t = some e3 ∧
      e3.state = e1.state.zipWith xor e2.state

/-! ### Reset and mutators -/

/-- `42_lfsr_mutators_getters.md` R152 with `10_state.md` R47: E_RESET on any engine, consistent or not, with its frame. -/
def Obligations.ResetRestoresTheInitialState : Prop :=
  ∀ (s : State) (t : EngineRef) (e : Engine), s.owned t = false → s.engine t = some e →
    ∃ s', exec (.eReset t) s = .next s' ∧ s'.response = some (.ok .nothing) ∧ SameRest s s' ∧
      EngineChanged t { e with state := e.initState, count := 0, fb := none, outbit := none, seq := [] } s s'

/-- `42_lfsr_mutators_getters.md` R153: after any number of steps from a fresh engine, a reset gives back the machine as it
was but for the response, so the stream starts again; a second reset changes nothing. -/
def Obligations.ResetUndoesAnyRun : Prop :=
  ∀ (s : State) (t : EngineRef) (e : Engine) (n : Nat), s.owned t = false → s.engine t = some e → e.Consistent →
    e.state = e.initState → e.count = 0 → e.fb = none → e.outbit = none → e.seq = [] →
    ∃ s1, exec (.eRun t n) s = .next s1 ∧
      Returns (.eReset t) s .nothing ∧
      exec (.eReset t) s1 = .next { s with response := some (.ok .nothing) }

/-- `42_lfsr_mutators_getters.md` R154: E_SET_POLY, its result, its two errors in their order, and its frame. -/
def Obligations.SetPolyReplacesTheTaps : Prop :=
  ∀ (s : State) (t : EngineRef) (e : Engine) (taps : List Int) (reset enforce : Bool),
    s.owned t = false → s.engine t = some e →
    (¬PolyValid taps → Rejects (.eSetPoly t taps reset enforce) s .invalidPolynomial) ∧
    ∀ d : Nat, PolyValid taps → IsMaxTap taps d →
      (enforce = false → d ≠ e.len → Rejects (.eSetPoly t taps reset enforce) s .incompatibleMutation) ∧
      (enforce = true ∨ d = e.len →
        ∃ s' stored, exec (.eSetPoly t taps reset enforce) s = .next s' ∧ s'.response = some (.ok .nothing) ∧
          SameRest s s' ∧ StoredAs taps stored ∧
          EngineChanged t (if reset then ResetOf { e with taps := stored } else { e with taps := stored }) s s')

/-- `42_lfsr_mutators_getters.md` R155, `70_reset_and_hazards.md` R280: taps beyond the register leave the engine
inconsistent, a step is refused, and a fitting E_SET_STATE with `enforce` makes the engine consistent again. -/
def Obligations.EnforcedResizeTakesTwoCommands : Prop :=
  ∀ (s : State) (t : EngineRef) (e : Engine) (taps : List Int) (d : Nat) (v : Bits),
    s.owned t = false → s.engine t = some e → e.Consistent → PolyValid taps → IsMaxTap taps d → e.len < d →
    v.length = d → true ∈ v →
    ∃ s1 s2 e1 e2, exec (.eSetPoly t taps false true) s = .next s1 ∧ s1.engine t = some e1 ∧ e1.state = e.state ∧
      ¬e1.Consistent ∧ Rejects (.eStep t) s1 .inconsistent ∧
      exec (.eSetState t v true) s1 = .next s2 ∧ s2.engine t = some e2 ∧ e2.state = v ∧ e2.Consistent

/-- `42_lfsr_mutators_getters.md` R157: E_SET_STATE, its errors in their order, its result and its frame. -/
def Obligations.SetStateReplacesTheRegister : Prop :=
  ∀ (s : State) (t : EngineRef) (e : Engine) (v : Bits) (enforce : Bool),
    s.owned t = false → s.engine t = some e → e.Wf →
    let d := e.taps.headD 0
    (true ∉ v → Rejects (.eSetState t v enforce) s .invalidState) ∧
    (true ∈ v → enforce = false → v.length ≠ e.len → Rejects (.eSetState t v enforce) s .incompatibleMutation) ∧
    (true ∈ v → (enforce = true ∨ v.length = e.len) → (v.length < d ∨ e.conf = .gal ∧ v.length ≠ d) →
      Rejects (.eSetState t v enforce) s .invalidState) ∧
    (true ∈ v → (enforce = true ∨ v.length = e.len) → d ≤ v.length → (e.conf = .gal → v.length = d) →
      (e.oidx < -(v.length : Int) ∨ (v.length : Int) - 1 < e.oidx) →
      Rejects (.eSetState t v enforce) s .invalidOutputIndex) ∧
    (true ∈ v → (enforce = true ∨ v.length = e.len) → d ≤ v.length → (e.conf = .gal → v.length = d) →
      -(v.length : Int) ≤ e.oidx → e.oidx ≤ (v.length : Int) - 1 →
      ∃ s', exec (.eSetState t v enforce) s = .next s' ∧ s'.response = some (.ok .nothing) ∧ SameRest s s' ∧
        EngineChanged t { e with state := v } s s' ∧ { e with state := v }.Consistent)

/-- `42_lfsr_mutators_getters.md` R159: E_SET_CONF, its errors in their order, its result and its frame. That `conf=gal` on a
Galois engine that was left inconsistent is refused, as the pseudocode says, is the model's reading (log entry 18). -/
def Obligations.SetConfSwitchesTheTransition : Prop :=
  ∀ (s : State) (t : EngineRef) (e : Engine), s.owned t = false → s.engine t = some e → e.Wf →
    Rejects (.eSetConf t .neither2) s .invalidConfiguration ∧
    Rejects (.eSetConf t .neither3) s .invalidConfiguration ∧
    (e.taps.head? ≠ some e.len → Rejects (.eSetConf t .galois) s .invalidState) ∧
    (e.taps.head? = some e.len → ∃ s', exec (.eSetConf t .galois) s = .next s' ∧ s'.response = some (.ok .nothing) ∧
      SameRest s s' ∧ EngineChanged t { e with conf := .gal } s s') ∧
    (∃ s', exec (.eSetConf t .fibonacci) s = .next s' ∧ s'.response = some (.ok .nothing) ∧
      SameRest s s' ∧ EngineChanged t { e with conf := .fib } s s')

/-- `42_lfsr_mutators_getters.md` R160: E_SET_OIDX, its error, its result and its frame. -/
def Obligations.SetOidxMovesTheOutput : Prop :=
  ∀ (s : State) (t : EngineRef) (e : Engine) (i : Int), s.owned t = false → s.engine t = some e →
    ((i < -(e.len : Int) ∨ (e.len : Int) - 1 < i) → Rejects (.eSetOidx t i) s .invalidOutputIndex) ∧
    (-(e.len : Int) ≤ i → i ≤ (e.len : Int) - 1 →
      ∃ s', exec (.eSetOidx t i) s = .next s' ∧ s'.response = some (.ok .nothing) ∧ SameRest s s' ∧
        EngineChanged t { e with oidx := i } s s')

/-! ### Accessors -/

/-- `42_lfsr_mutators_getters.md` R161, R162, R164 to R168, and R163 but for its encoded form: the accessors of an engine
return the field they name and change nothing, on staged and owned engines alike. -/
def Obligations.EngineAccessorsReturnTheirField : Prop :=
  ∀ (s : State) (t : EngineRef) (e : Engine), s.engine t = some e →
    Returns (.eGetState t) s (.bits e.state) ∧ Returns (.eGetPoly t) s (.taps e.taps) ∧
    Returns (.eGetSeq t) s (.bits e.seq) ∧ Returns (.eGetCount t) s (.nat e.count) ∧
    Returns (.eGetPeriod t) s (.nat (2 ^ e.state.length - 1)) ∧
    Returns (.eGetOutbit t) s (.optBit e.outbit) ∧ Returns (.eGetFb t) s (.optBit e.fb)

/-- `42_lfsr_mutators_getters.md` R163, `30_encoding.md` R86: the mask that carries the result of E_GET_POLY has the largest
tap as its length and names exactly the taps. -/
def Obligations.PolynomialMaskNamesTheTaps : Prop :=
  ∀ (e : Engine), e.Wf → (maskOfTaps e.taps).length = e.taps.headD 0 ∧
    ∀ p, 1 ≤ p → ((maskOfTaps e.taps)[p - 1]? = some true ↔ p ∈ e.taps)

/-- `44_a51.md` R206 to R209, `45_geffe.md` R226 to R229, `46_geffe3.md` R243 to R245: the accessors of the composites. -/
def Obligations.CompositeAccessorsReturnTheirField : Prop :=
  (∀ (s : State) (u : A51), s.a51Built = some u →
    Returns .a51GetSeq s (.bits u.seq) ∧ Returns .a51GetCount s (.nat u.count) ∧
    Returns .a51GetOutbit s (.optBit u.outbit) ∧ Returns .a51GetCb s (.optTriple u.cb)) ∧
  (∀ (s : State) (u : Geffe), s.geffeBuilt = some u →
    Returns .geffeGetSeq s (.bits u.seq) ∧ Returns .geffeGetCount s (.nat u.count) ∧
    Returns .geffeGetOutbit s (.optBit u.outbit) ∧ Returns .geffeGetSel s (.optNat u.sel)) ∧
  (∀ (s : State) (u : Geffe3), s.geffe3Built = some u →
    Returns .geffe3GetSeq s (.bits u.seq) ∧ Returns .geffe3GetCount s (.nat u.count) ∧
    Returns .geffe3GetOutbit s (.optBit u.outbit))

/-! ### Who may address what -/

/-- `60_exceptions.md` R264: commands to what is not constructed or not built. A writing command to an owned slot is R93's
case, whichever engine stands there. -/
def Obligations.MissingUnitsAnswerNotConstructed : Prop :=
  (∀ (s : State) (t : EngineRef), s.engine t = none →
    (s.owned t = false → ∀ (k : Nat) (taps : List Int) (v : Bits) (a b : Bool) (c : ConfTag) (i : Int),
      ∀ cmd ∈ [Instr.eStep t, .eRun t k, .eRunFull t, .eReset t, .eSetPoly t taps a b, .eSetState t v a, .eSetConf t c,
        .eSetOidx t i], Rejects cmd s .notConstructed) ∧
    ∀ cmd ∈ [Instr.eGetState t, .eGetPoly t, .eGetSeq t, .eGetCount t, .eGetPeriod t, .eGetOutbit t, .eGetFb t],
      Rejects cmd s .notConstructed) ∧
  ∀ (s : State) (k : Nat),
    (s.a51Built = none → ∀ cmd ∈ [Instr.a51Step, .a51Run k, .a51Reset, .a51GetSeq, .a51GetCount, .a51GetOutbit,
      .a51GetCb], Rejects cmd s .notConstructed) ∧
    (s.geffeBuilt = none → ∀ cmd ∈ [Instr.geffeStep, .geffeRun k, .geffeReset, .geffeGetSeq, .geffeGetCount,
      .geffeGetOutbit, .geffeGetSel], Rejects cmd s .notConstructed) ∧
    (s.geffe3Built = none → ∀ cmd ∈ [Instr.geffe3Step, .geffe3Run k, .geffe3Reset, .geffe3GetSeq, .geffe3GetCount,
      .geffe3GetOutbit], Rejects cmd s .notConstructed)

/-- `30_encoding.md` R93, `10_state.md` R39: the engine slots of a built composite are closed to every writing command, and
a composite is built at most once. -/
def Obligations.BuiltCompositesAreClosedToWrites : Prop :=
  (∀ (s : State) (t : EngineRef), s.owned t = true →
    ∀ (k : Nat) (taps : List Int) (v : Bits) (a b : Bool) (c : ConfTag) (i : Int) (init : InitSpec) (p : Policy),
    ∀ cmd ∈ [Instr.eNew t taps init c i p, .eStep t, .eRun t k, .eRunFull t, .eReset t, .eSetPoly t taps a b,
      .eSetState t v a, .eSetConf t c, .eSetOidx t i], Rejects cmd s .invalidCommand) ∧
  ∀ (s : State) (k : Nat),
    (s.a51Built ≠ none → Rejects .a51Build s .invalidCommand) ∧
    (s.geffeBuilt ≠ none → Rejects (.geffeBuild k) s .invalidCommand) ∧
    (s.geffe3Built ≠ none → Rejects .geffe3Build s .invalidCommand)

/-! ### The A5/1 unit -/

/-- `44_a51.md` R196: which staged engines A51_BUILD admits, the unit it makes, and its frame. -/
def Obligations.A51BuildAdmitsItsThreeEngines : Prop :=
  ∀ (s : State) (slots : Slots3), s.a51 = .staging slots →
    let fits (o : Option Engine) (len : Nat) (taps : List Nat) (e : Engine) : Prop :=
      o = some e ∧ e.Consistent ∧ e.state.length = len ∧ e.taps = taps ∧ e.conf = .fib
    (∀ e1 e2 e3, fits slots.r1 19 s.cfg.a51Taps1 e1 → fits slots.r2 22 s.cfg.a51Taps2 e2 →
      fits slots.r3 23 s.cfg.a51Taps3 e3 →
      exec .a51Build s = .next { s with
        a51 := .built { r1 := e1, r2 := e2, r3 := e3, cb := none, count := 0, outbit := none, seq := [] },
        response := some (.ok .nothing) }) ∧
    ((¬∃ e1 e2 e3, fits slots.r1 19 s.cfg.a51Taps1 e1 ∧ fits slots.r2 22 s.cfg.a51Taps2 e2 ∧
      fits slots.r3 23 s.cfg.a51Taps3 e3) → Rejects .a51Build s .invalidComposite)

/-- `44_a51.md` R197, R199, R202: the first cycle steps no engine, samples the clocking bits and emits the XOR of the taps.
The registers reach the clocking cells and the output indices name cells, as in every unit as built (log entry 7). -/
def Obligations.A51FirstCycleStepsNoEngine : Prop :=
  ∀ (s : State) (u : A51), s.a51 = .built u → u.count = 0 → 8 < u.r1.len → 10 < u.r2.len → 10 < u.r3.len →
    (∀ r, -((u.get r).len : Int) ≤ (u.get r).oidx ∧ (u.get r).oidx ≤ ((u.get r).len : Int) - 1) →
    ∃ c1 c2 c3 b1 b2 b3, u.r1.state[8]? = some c1 ∧ u.r2.state[10]? = some c2 ∧ u.r3.state[10]? = some c3 ∧
      TapIs u.r1 b1 ∧ TapIs u.r2 b2 ∧ TapIs u.r3 b3 ∧
      exec .a51Step s = .next { s with
        a51 := .built { u with
          cb := some (c1, c2, c3), count := 1, outbit := some (xor b1 (xor b2 b3)), seq := u.seq ++ [xor b1 (xor b2 b3)] },
        response := some (.ok (.bit (xor b1 (xor b2 b3)))) }

/-- `44_a51.md` R198, R200 to R202: in a later cycle exactly the engines whose clocking bit is the majority make one E_STEP,
two or three of them, and the output is the XOR of the three taps after the stepping. -/
def Obligations.A51LaterCyclesStepTheMajority : Prop :=
  ∀ (s : State) (u : A51), s.a51 = .built u → 0 < u.count →
    u.r1.Consistent → u.r2.Consistent → u.r3.Consistent → 8 < u.r1.len → 10 < u.r2.len → 10 < u.r3.len →
    ∃ u' c1 c2 c3 b1 b2 b3, u.r1.state[8]? = some c1 ∧ u.r2.state[10]? = some c2 ∧ u.r3.state[10]? = some c3 ∧
      let m := decide (2 ≤ [c1, c2, c3].count true)
      (c1 = m → ∃ b, EStepMakes u.r1 u'.r1 b) ∧ (c1 ≠ m → u'.r1 = u.r1) ∧
      (c2 = m → ∃ b, EStepMakes u.r2 u'.r2 b) ∧ (c2 ≠ m → u'.r2 = u.r2) ∧
      (c3 = m → ∃ b, EStepMakes u.r3 u'.r3 b) ∧ (c3 ≠ m → u'.r3 = u.r3) ∧
      2 ≤ [c1, c2, c3].count m ∧
      TapIs u'.r1 b1 ∧ TapIs u'.r2 b2 ∧ TapIs u'.r3 b3 ∧
      u' = { r1 := u'.r1, r2 := u'.r2, r3 := u'.r3, cb := some (c1, c2, c3), count := u.count + 1,
             outbit := some (xor b1 (xor b2 b3)), seq := u.seq ++ [xor b1 (xor b2 b3)] } ∧
      exec .a51Step s = .next { s with a51 := .built u', response := some (.ok (.bit (xor b1 (xor b2 b3)))) }

/-! ### The Geffe unit -/

/-- `45_geffe.md` R216: which staged engines GEFFE_BUILD admits for which `K`, the unit it makes, and its frame; the slots above
`K` stay readable (log entry 9). -/
def Obligations.GeffeBuildTakesAPowerOfTwo : Prop :=
  ∀ (s : State) (sel : Option Engine) (comps : Vector (Option Engine) kMax) (k : Nat), s.geffe = .staging sel comps →
    let fits (e : Engine) (es : List Engine) : Prop :=
      (∃ n, k = 2 ^ n) ∧ k ≤ 8 ∧ sel = some e ∧ e.Consistent ∧ comps.toList.take k = es.map some ∧
        ∀ x ∈ es, x.Consistent
    (∀ e es, fits e es → exec (.geffeBuild k) s = .next { s with
      geffe := .built { c := es, s := e, sel := none, count := 0, outbit := none, seq := [] } (comps.toList.drop k),
      response := some (.ok .nothing) }) ∧
    ((¬∃ e es, fits e es) → Rejects (.geffeBuild k) s .invalidComposite)

/-- `45_geffe.md` R217 to R223: one cycle of a Geffe unit, first or later, under either value of GEFFE_SEL_MSB_FIRST. -/
def Obligations.GeffeCycleSelectsOneComponent : Prop :=
  ∀ (s : State) (u : Geffe) (spare : List (Option Engine)) (n : Nat), s.geffe = .built u spare → u.c.length = 2 ^ n →
    u.s.Consistent → (∀ e ∈ u.c, e.Consistent) →
    ∃ (u' : Geffe) (idx : Nat) (o : Bool) (r : Bits) (e : Engine),
      u'.c.length = u.c.length ∧
      (u.count = 0 → u'.c = u.c) ∧
      (0 < u.count → ∀ (j : Nat) (x y : Engine), u.c[j]? = some x → u'.c[j]? = some y → ∃ b, EStepMakes x y b) ∧
      ERunMakes n u.s u'.s r ∧ r.length = n ∧ idx < u.c.length ∧
      (idx : Nat) = (if s.cfg.geffeSelMsbFirst then
        ((List.range n).map fun t => (cell r t).toNat * 2 ^ (n - 1 - t)).sum
        else ((List.range n).map fun t => (cell r t).toNat * 2 ^ t).sum) ∧
      u'.c[idx]? = some e ∧ TapIs e o ∧
      u' = { c := u'.c, s := u'.s, sel := some idx, count := u.count + 1, outbit := some o, seq := u.seq ++ [o] } ∧
      exec .geffeStep s = .next { s with geffe := .built u' spare, response := some (.ok (.bit o)) }

/-! ### The Geffe3 unit -/

/-- `46_geffe3.md` R236: which staged engines GEFFE3_BUILD admits, the unit it makes, and its frame. -/
def Obligations.Geffe3BuildAdmitsAnyThreeEngines : Prop :=
  ∀ (s : State) (slots : Slots3), s.geffe3 = .staging slots →
    let fits (o : Option Engine) (e : Engine) : Prop := o = some e ∧ e.Consistent
    (∀ e1 e2 e3, fits slots.r1 e1 → fits slots.r2 e2 → fits slots.r3 e3 →
      exec .geffe3Build s = .next { s with
        geffe3 := .built { r1 := e1, r2 := e2, r3 := e3, count := 0, outbit := none, seq := [] },
        response := some (.ok .nothing) }) ∧
    ((¬∃ e1 e2 e3, fits slots.r1 e1 ∧ fits slots.r2 e2 ∧ fits slots.r3 e3) → Rejects .geffe3Build s .invalidComposite)

/-- `46_geffe3.md` R237 to R239: one cycle of a Geffe3 unit, first or later, under either value of GEFFE3_COMBINER. The formula
of PUBLISHED is general knowledge and not in the source (R239; log entry 5, PRESUMED). -/
def Obligations.Geffe3CycleCombinesTheTaps : Prop :=
  ∀ (s : State) (u : Geffe3), s.geffe3 = .built u → u.r1.Consistent → u.r2.Consistent → u.r3.Consistent →
    ∃ u' b1 b2 b3 o,
      (u.count = 0 → u'.r1 = u.r1 ∧ u'.r2 = u.r2 ∧ u'.r3 = u.r3) ∧
      (0 < u.count → (∃ b, EStepMakes u.r1 u'.r1 b) ∧ (∃ b, EStepMakes u.r2 u'.r2 b) ∧ ∃ b, EStepMakes u.r3 u'.r3 b) ∧
      TapIs u'.r1 b1 ∧ TapIs u'.r2 b2 ∧ TapIs u'.r3 b3 ∧
      (s.cfg.geffe3Combiner = .asDocumented → o = xor (b1 && b2) (!b1 && b2) ∧ o = b2) ∧
      (s.cfg.geffe3Combiner = .published → o = xor (b1 && b2) (!b1 && b3)) ∧
      u' = { r1 := u'.r1, r2 := u'.r2, r3 := u'.r3, count := u.count + 1, outbit := some o, seq := u.seq ++ [o] } ∧
      exec .geffe3Step s = .next { s with geffe3 := .built u', response := some (.ok (.bit o)) }

/-- `46_geffe3.md` R240 (a): under AS_DOCUMENTED the stream of a unit in its first cycle is the stream of the taps of `R2`:
cycle `c` emits the tap of `R2` after `c` steps. -/
def Obligations.Geffe3AsDocumentedFollowsR2 : Prop :=
  ∀ (s : State) (u : Geffe3) (k : Nat), s.geffe3 = .built u → u.count = 0 → s.cfg.geffe3Combiner = .asDocumented →
    u.r1.Consistent → u.r2.Consistent → u.r3.Consistent →
    ∃ s' r, exec (.geffe3Run k) s = .next s' ∧ s'.response = some (.ok (.bits r)) ∧ r.length = k ∧
      ∀ c < k, ∃ e b x, ERunMakes c u.r2 e b ∧ TapIs e x ∧ r[c]? = some x

/-! ### Runs and resets of the composites -/

/-- `44_a51.md` R204, `45_geffe.md` R224, `46_geffe3.md` R241: a run of 0 cycles changes nothing, and a run of `k + 1` is a cycle
and then a run of `k`, on every built unit. -/
def Obligations.CompositeRunsAreCyclesInOrder : Prop :=
  let unrolls (one : Instr) (many : Nat → Instr) (s : State) : Prop :=
    Returns (many 0) s (.bits []) ∧
    ∀ k : Nat, ∃ s1 s2 b r, exec one s = .next s1 ∧ s1.response = some (.ok (.bit b)) ∧
      exec (many k) s1 = .next s2 ∧ s2.response = some (.ok (.bits r)) ∧ r.length = k ∧
      exec (many (k + 1)) s = .next { s2 with response := some (.ok (.bits (b :: r))) }
  (∀ (s : State) (u : A51), s.a51Built = some u → unrolls .a51Step .a51Run s) ∧
  (∀ (s : State) (u : Geffe), s.geffeBuilt = some u → unrolls .geffeStep .geffeRun s) ∧
  (∀ (s : State) (u : Geffe3), s.geffe3Built = some u → unrolls .geffe3Step .geffe3Run s)

/-- `60_exceptions.md` R259, `44_a51.md` R198, R204, `45_geffe.md` R218, R224, `46_geffe3.md` R238, R241: a cycle, and a run of any
length, of a built composite never errs, whatever its engines hold: it answers its bits, counts its cycles and appends the bits
to the unit's sequence. -/
def Obligations.CompositeCyclesNeverErr : Prop :=
  (∀ (s : State) (u : A51) (k : Nat), s.a51Built = some u →
    (∃ s' u' b, exec .a51Step s = .next s' ∧ s'.response = some (.ok (.bit b)) ∧ SameRest s s' ∧ s'.a51Built = some u' ∧
      u'.count = u.count + 1 ∧ u'.outbit = some b ∧ u'.seq = u.seq ++ [b]) ∧
    ∃ s' u' r, exec (.a51Run k) s = .next s' ∧ s'.response = some (.ok (.bits r)) ∧ SameRest s s' ∧ s'.a51Built = some u' ∧
      r.length = k ∧ u'.count = u.count + k ∧ u'.seq = u.seq ++ r) ∧
  (∀ (s : State) (u : Geffe) (k : Nat), s.geffeBuilt = some u →
    (∃ s' u' b, exec .geffeStep s = .next s' ∧ s'.response = some (.ok (.bit b)) ∧ SameRest s s' ∧ s'.geffeBuilt = some u' ∧
      u'.count = u.count + 1 ∧ u'.outbit = some b ∧ u'.seq = u.seq ++ [b]) ∧
    ∃ s' u' r, exec (.geffeRun k) s = .next s' ∧ s'.response = some (.ok (.bits r)) ∧ SameRest s s' ∧ s'.geffeBuilt = some u' ∧
      r.length = k ∧ u'.count = u.count + k ∧ u'.seq = u.seq ++ r) ∧
  (∀ (s : State) (u : Geffe3) (k : Nat), s.geffe3Built = some u →
    (∃ s' u' b, exec .geffe3Step s = .next s' ∧ s'.response = some (.ok (.bit b)) ∧ SameRest s s' ∧ s'.geffe3Built = some u' ∧
      u'.count = u.count + 1 ∧ u'.outbit = some b ∧ u'.seq = u.seq ++ [b]) ∧
    ∃ s' u' r, exec (.geffe3Run k) s = .next s' ∧ s'.response = some (.ok (.bits r)) ∧ SameRest s s' ∧ s'.geffe3Built = some u' ∧
      r.length = k ∧ u'.count = u.count + k ∧ u'.seq = u.seq ++ r)

/-- `41_lfsr_step.md` R135 ("change nothing") inside a composite: a cycle leaves an engine that is not consistent as it is, and
a later cycle of a Geffe or a Geffe3 unit steps the consistent ones beside it. The spec calls such a unit unreachable; a composite reset after a resize reaches it, and that
the cycle goes on without that engine's step is the model's choice (log entry 7). -/
def Obligations.CyclesLeaveInconsistentEnginesAlone : Prop :=
  (∀ (s s' : State) (u : A51) (r : Reg3), s.a51Built = some u → ¬(u.get r).Consistent → exec .a51Step s = .next s' →
    s'.engine (.a51 r) = some (u.get r)) ∧
  (∀ (s s' : State) (u : Geffe), s.geffeBuilt = some u → exec .geffeStep s = .next s' →
    ∃ u', s'.geffeBuilt = some u' ∧ (¬u.s.Consistent → u'.s = u.s) ∧
      ∀ (j : Nat) (x : Engine), u.c[j]? = some x →
        (¬x.Consistent → u'.c[j]? = some x) ∧
        (x.Consistent → 0 < u.count → ∃ y b, u'.c[j]? = some y ∧ EStepMakes x y b)) ∧
  (∀ (s s' : State) (u : Geffe3) (r : Reg3), s.geffe3Built = some u → exec .geffe3Step s = .next s' →
    (¬(u.get r).Consistent → s'.engine (.geffe3 r) = some (u.get r)) ∧
    ((u.get r).Consistent → 0 < u.count → ∃ y b, s'.engine (.geffe3 r) = some y ∧ EStepMakes (u.get r) y b))

/-- `44_a51.md` R205, `45_geffe.md` R225, `46_geffe3.md` R242 with `10_state.md` R48: the reset of a composite. -/
def Obligations.CompositeResetResetsItsEngines : Prop :=
  (∀ (s : State) (u : A51), s.a51 = .built u → exec .a51Reset s = .next { s with
    a51 := .built ⟨ResetOf u.r1, ResetOf u.r2, ResetOf u.r3, none, 0, none, []⟩,
    response := some (.ok .nothing) }) ∧
  (∀ (s : State) (u : Geffe) (spare : List (Option Engine)), s.geffe = .built u spare → exec .geffeReset s = .next { s with
    geffe := .built { c := u.c.map ResetOf, s := ResetOf u.s, sel := none, count := 0, outbit := none, seq := [] } spare,
    response := some (.ok .nothing) }) ∧
  (∀ (s : State) (u : Geffe3), s.geffe3 = .built u → exec .geffe3Reset s = .next { s with
    geffe3 := .built { r1 := ResetOf u.r1, r2 := ResetOf u.r2, r3 := ResetOf u.r3, count := 0, outbit := none, seq := [] },
    response := some (.ok .nothing) })

/-! ### Rules of the whole machine -/

/-- `10_state.md` R22 to R34, R36 to R38: every step keeps the machine's invariant. -/
def Obligations.EveryStepKeepsTheInvariant : Prop := ∀ s s' : State, s.Inv → step s = .next s' → s'.Inv

/-- `10_state.md` R49: the invariant holds after power-on. -/
def Obligations.PowerOnMeetsTheInvariant : Prop := State.reset.Inv

/-- `60_exceptions.md` R252: a command that answers an error, rejected by the decoder or by its meaning, has changed no
unit. -/
def Obligations.FailedCommandsChangeNoUnit : Prop :=
  (∀ (i : Instr) (s s' : State) (x : ErrorName), exec i s = .next s' → s'.response = some (.err x) →
    SameUnits s s' ∧ s'.host = s.host ∧ s'.cfg = s.cfg) ∧
  ∀ (s s' : State) (x : ErrorName), step s = .next s' → s'.response = some (.err x) → SameUnits s s' ∧ s'.cfg = s.cfg

/-- `60_exceptions.md` R250 (the column of codes): the codes of the nine errors, and 0 for success. -/
def Obligations.ResponsesCarryTheirCodes : Prop :=
  (∀ v, (Response.ok v).code = 0) ∧
  [ErrorName.invalidPolynomial, .invalidState, .invalidConfiguration, .invalidOutputIndex, .incompatibleMutation,
    .inconsistent, .invalidCommand, .notConstructed, .invalidComposite].map (fun x => (Response.err x).code.toNat) =
    [1, 2, 3, 4, 5, 6, 7, 8, 9]

/-- `60_exceptions.md` R250 (the column of commands): which commands raise which error, and R93 for the reserved ones that
decode. -/
def Obligations.ErrorsComeFromTheCommandsOfTheTable : Prop :=
  ∀ (i : Instr) (s s' : State) (x : ErrorName), exec i s = .next s' → s'.response = some (.err x) →
    let new := ∃ t p n c o q, i = .eNew t p n c o q
    let setPoly := ∃ t p a b, i = .eSetPoly t p a b
    let setState := ∃ t v a, i = .eSetState t v a
    let setConf := ∃ t c, i = .eSetConf t c
    let setOidx := ∃ t o, i = .eSetOidx t o
    let steps := ∃ t, i = .eStep t ∨ i = .eRunFull t ∨ ∃ k, i = .eRun t k
    let reset := ∃ t, i = .eReset t
    let build := i = .a51Build ∨ i = .geffe3Build ∨ ∃ k, i = .geffeBuild k
    match x with
    | .invalidPolynomial => new ∨ setPoly
    | .invalidState => new ∨ setState ∨ setConf
    | .invalidConfiguration => new ∨ setConf
    | .invalidOutputIndex => new ∨ setOidx ∨ setState
    | .incompatibleMutation => setPoly ∨ setState
    | .inconsistent => steps
    | .invalidCommand => new ∨ steps ∨ reset ∨ setPoly ∨ setState ∨ setConf ∨ setOidx ∨ build
    | .notConstructed => ¬new ∧ ¬build
    | .invalidComposite => build

/-- `20_memory.md` R68, `10_state.md` R35: a command changes no unit but the one it addresses, nor the free values that another
unit will draw (whose counters are the model's own, log entry 4). -/
def Obligations.CommandsTouchOnlyTheirUnit : Prop :=
  ∀ (i : Instr) (s s' : State), exec i s = .next s' →
    (∀ n, n ≠ unitOf i → SameUnit n s s' ∧ s'.draws.get n = s.draws.get n) ∧ s'.host = s.host ∧ s'.cfg = s.cfg

/-- `20_memory.md` R68: what a command answers and what it makes of its unit depend on that unit alone (and on the
parameters and on how many random vectors the unit has drawn, log entries 4 and 5): two machines that differ in the other
units cannot be told apart through it. -/
def Obligations.UnitsDependOnlyOnTheirOwnCommands : Prop :=
  ∀ (i : Instr) (s t s' t' : State), SameUnit (unitOf i) s t → t.cfg = s.cfg →
    t.draws.get (unitOf i) = s.draws.get (unitOf i) → exec i s = .next s' → exec i t = .next t' →
    SameUnit (unitOf i) s' t' ∧ t'.response = s'.response ∧ t'.draws.get (unitOf i) = s'.draws.get (unitOf i)

/-- `20_memory.md` R68, R71: commands to different units commute. That this takes in two random constructions, and that the free
values left to draw are the same in either order, rests on the draw counters, one for each unit, which are the model's own choice
(log entry 4). -/
def Obligations.CommandsToDifferentUnitsCommute : Prop :=
  ∀ (i j : Instr) (s si sij sj sji : State), unitOf i ≠ unitOf j →
    exec i s = .next si → exec j si = .next sij → exec j s = .next sj → exec i sj = .next sji →
    SameUnits sij sji ∧ SameRest sij sji

/-- `10_state.md` R26, R32, `70_reset_and_hazards.md` R277: only E_NEW writes an engine's policy or its stored initial state,
and no command but E_NEW puts another engine in its place or takes it away. -/
def Obligations.OnlyNewWritesPolicyAndInitialState : Prop :=
  ∀ (i : Instr) (s s' : State) (t : EngineRef) (e : Engine), (∀ r p n c o q, i ≠ .eNew r p n c o q) →
    exec i s = .next s' → s.engine t = some e →
    ∃ e', s'.engine t = some e' ∧ e'.policy = e.policy ∧ e'.initState = e.initState

/-- `10_state.md` R39: a composite's commands write of a component engine only what E_STEP and E_RESET write. -/
def Obligations.CompositesNeverMutateTheirEngines : Prop :=
  ∀ (i : Instr) (s s' : State) (t : EngineRef) (e : Engine),
    i ∈ [Instr.a51Build, .a51Step, .a51Reset, .geffeStep, .geffeReset, .geffe3Build, .geffe3Step, .geffe3Reset] ∨
      (∃ k, i = .a51Run k ∨ i = .geffeBuild k ∨ i = .geffeRun k ∨ i = .geffe3Run k) →
    exec i s = .next s' → s.engine t = some e → ∃ e', s'.engine t = some e' ∧ SameControl e e'

/-- `30_encoding.md` R94, `70_reset_and_hazards.md` R277: no command undoes a construction or a build. -/
def Obligations.NoCommandUnbuilds : Prop :=
  ∀ (i : Instr) (s s' : State), exec i s = .next s' →
    (∀ t, s.owned t = true → s'.owned t = true) ∧
    ∀ t, s.engine t ≠ none → s'.engine t ≠ none

/-- `10_state.md` R30, `44_a51.md` R196, R198, `45_geffe.md` R216, R218, `46_geffe3.md` R236, R238, `60_exceptions.md` R259: a
built unit of consistent engines that were never resized keeps them consistent, whatever command is given, resets included. (After
a resize before the build, a reset can leave them inconsistent: log entry 7.) -/
def Obligations.UnresizedUnitsKeepConsistentEngines : Prop :=
  let fit (e : Engine) : Prop := e.Consistent ∧ e.Unresized
  (∀ (i : Instr) (s s' : State) (u : A51), s.a51Built = some u → exec i s = .next s' → (∀ r, fit (u.get r)) →
    ∃ u', s'.a51Built = some u' ∧ ∀ r, fit (u'.get r) ∧ (u'.get r).len = (u.get r).len) ∧
  (∀ (i : Instr) (s s' : State) (u : Geffe), s.geffeBuilt = some u → exec i s = .next s' → fit u.s → (∀ e ∈ u.c, fit e) →
    ∃ u', s'.geffeBuilt = some u' ∧ fit u'.s ∧ u'.s.len = u.s.len ∧ u'.c.length = u.c.length ∧
      ∀ (j : Nat) (x : Engine), u.c[j]? = some x → ∃ y, u'.c[j]? = some y ∧ fit y ∧ y.len = x.len) ∧
  (∀ (i : Instr) (s s' : State) (u : Geffe3), s.geffe3Built = some u → exec i s = .next s' → (∀ r, fit (u.get r)) →
    ∃ u', s'.geffe3Built = some u' ∧ ∀ r, fit (u'.get r) ∧ (u'.get r).len = (u.get r).len)

/-- `10_state.md` R30: a consistent engine becomes inconsistent only where its taps and its register come to differ in length: by
an E_SET_POLY with `enforce` whose largest tap does not fit the register (R154), or by a reset (an E_RESET, an E_SET_POLY with
`reset`, the reset of a composite) of an engine that was resized (R152). Every other command, and each of these where it does not
resize, leaves every engine that was consistent consistent, or E_NEW puts a consistent one in its place. -/
def Obligations.OnlyResizingBreaksConsistency : Prop :=
  ∀ (i : Instr) (s s' : State) (t : EngineRef) (e : Engine),
    let resets := i = .eReset t ∨ (∃ p f, i = .eSetPoly t p true f) ∨ i = .a51Reset ∨ i = .geffeReset ∨ i = .geffe3Reset
    (∀ p r d, i = .eSetPoly t p r true → IsMaxTap p d → d ≤ e.len ∧ (e.conf = .gal → d = e.len)) →
    (resets → e.Unresized) →
    exec i s = .next s' → s.engine t = some e → e.Consistent → ∃ e', s'.engine t = some e' ∧ e'.Consistent

/-! ### Reference functions -/

/-- `40_lfsr_construction.md` R121, `90_conflicts.md` C6: the formula of the image transform is an involution on the tap lists an
engine stores. -/
def Obligations.ImageIsAnInvolution : Prop :=
  ∀ t : List Nat, t.Pairwise (· > ·) → (∀ p ∈ t, 1 ≤ p) → image (image t) = t

/-- `43_sequence_properties.md` R185, R186, R188: two different values of `Rxx` differ by at least `2/T`; below a tolerance of `2/T`
the autocorrelation test is the integer test `A(k) = -1`, at every length, which at an odd length (as every full period has) is a
difference of at most the tolerance from `-1/T`; from `2/T` on, the test is such a difference. That "close to" means a
difference of at most the tolerance is the model's choice (log entry 11). -/
def Obligations.AutocorrelationTestIsTheIntegerTest : Prop :=
  ∀ p : Bits,
    (p ≠ [] → ∀ k l, autocorr p k ≠ autocorr p l → 2 / (p.length : Rat) ≤ |autocorr p k - autocorr p l|) ∧
    ∀ tol : Rat,
      let near (k : Nat) : Prop := |autocorr p k - -1 / (p.length : Rat)| ≤ tol
      (tol < 2 / (p.length : Rat) → ((checkAutocorrelation tol p).pass = true ↔
        ∀ k, 1 ≤ k → k < p.length → autocorrNumerator p k = -1)) ∧
      (0 ≤ tol → tol < 2 / (p.length : Rat) → p.length % 2 = 1 → ∀ k, autocorrNumerator p k = -1 ↔ near k) ∧
      (2 / (p.length : Rat) ≤ tol → ((checkAutocorrelation tol p).pass = true ↔ ∀ k, 1 ≤ k → k < p.length → near k))
end

