-- ==== Sys2Proof/Laws/Engine.lean ====
section
/-!
SUPPORT. The laws of one engine: what a step, a reset and a run do to every field, that they keep the register's length and
the engine's consistency and well-formedness.
-/

namespace Sys2Proof.Machine

/-! ### The fields after a step, `clear` and `reset` -/

@[simp] theorem Engine.advance_state (e : Engine) : e.advance.state = e.shifted := rfl
@[simp] theorem Engine.advance_taps (e : Engine) : e.advance.taps = e.taps := rfl
@[simp] theorem Engine.advance_conf (e : Engine) : e.advance.conf = e.conf := rfl
@[simp] theorem Engine.advance_oidx (e : Engine) : e.advance.oidx = e.oidx := rfl
@[simp] theorem Engine.advance_policy (e : Engine) : e.advance.policy = e.policy := rfl
@[simp] theorem Engine.advance_count (e : Engine) : e.advance.count = e.count + 1 := rfl
@[simp] theorem Engine.advance_fb (e : Engine) : e.advance.fb = some e.feedback := rfl
@[simp] theorem Engine.advance_outbit (e : Engine) : e.advance.outbit = some e.emit := rfl
@[simp] theorem Engine.advance_seq (e : Engine) : e.advance.seq = e.seq ++ [e.emit] := rfl
@[simp] theorem Engine.advance_initState (e : Engine) : e.advance.initState = e.initState := rfl

@[simp] theorem Engine.reset_state (e : Engine) : e.reset.state = e.initState := rfl
@[simp] theorem Engine.reset_taps (e : Engine) : e.reset.taps = e.taps := rfl
@[simp] theorem Engine.reset_conf (e : Engine) : e.reset.conf = e.conf := rfl
@[simp] theorem Engine.reset_oidx (e : Engine) : e.reset.oidx = e.oidx := rfl
@[simp] theorem Engine.reset_policy (e : Engine) : e.reset.policy = e.policy := rfl
@[simp] theorem Engine.reset_count (e : Engine) : e.reset.count = 0 := rfl
@[simp] theorem Engine.reset_fb (e : Engine) : e.reset.fb = none := rfl
@[simp] theorem Engine.reset_outbit (e : Engine) : e.reset.outbit = none := rfl
@[simp] theorem Engine.reset_seq (e : Engine) : e.reset.seq = [] := rfl
@[simp] theorem Engine.reset_initState (e : Engine) : e.reset.initState = e.initState := rfl

theorem Engine.reset_eq (e : Engine) : e.reset = ResetOf e := rfl

theorem Engine.sameControl_advance (e : Engine) : SameControl e e.advance := ⟨rfl, rfl, rfl, rfl, rfl⟩
theorem Engine.sameControl_reset (e : Engine) : SameControl e e.reset := ⟨rfl, rfl, rfl, rfl, rfl⟩
theorem SameControl.rfl' (e : Engine) : SameControl e e := ⟨rfl, rfl, rfl, rfl, rfl⟩
theorem SameControl.trans' {a b c : Engine} (h : SameControl a b) (k : SameControl b c) : SameControl a c :=
  ⟨k.taps.trans h.taps, k.conf.trans h.conf, k.oidx.trans h.oidx, k.policy.trans h.policy, k.initState.trans h.initState⟩

/-! ### Cells and the two shifts -/

theorem cell_of_lt {v : Bits} {i : Nat} (h : i < v.length) : cell v i = v[i] := by simp [cell, h]

theorem getElem?_of_cell {v : Bits} {i : Nat} (h : i < v.length) : v[i]? = some (cell v i) := by simp [cell, h]

@[simp] theorem fibShift_length (f : Bool) (v : Bits) (h : 0 < v.length) : (fibShift f v).length = v.length := by
  simp only [fibShift, List.length_cons, List.length_dropLast]; omega

@[simp] theorem galShift_length (f : Bool) (taps : List Nat) (v : Bits) (h : 0 < v.length) :
    (galShift f taps v).length = v.length := by
  simp only [galShift, List.length_mapIdx, List.length_append, List.length_tail, List.length_singleton]; omega

theorem fibShift_getElem?_zero (f : Bool) (v : Bits) : (fibShift f v)[0]? = some f := rfl

theorem fibShift_getElem?_succ (f : Bool) (v : Bits) (i : Nat) (h : i + 1 < v.length) :
    (fibShift f v)[i + 1]? = v[i]? := by
  rw [fibShift, List.getElem?_cons_succ, List.getElem?_dropLast, if_pos (by omega)]

theorem galShift_getElem?_lt (f : Bool) (taps : List Nat) (v : Bits) (i : Nat) (h : i + 1 < v.length) :
    (galShift f taps v)[i]? = v[i + 1]?.map fun b => if i + 1 ∈ taps ∧ i + 1 ≠ taps.headD 0 then xor b f else b := by
  have hi : i < v.tail.length := by rw [List.length_tail]; omega
  rw [galShift, List.getElem?_mapIdx, List.getElem?_append_left hi, List.getElem?_tail]

theorem galShift_getElem?_last (f : Bool) (taps : List Nat) (v : Bits) (h : 0 < v.length)
    (ht : v.length ∈ taps → v.length = taps.headD 0) : (galShift f taps v)[v.length - 1]? = some f := by
  have hn : ¬(v.length - 1 + 1 ∈ taps ∧ v.length - 1 + 1 ≠ taps.headD 0) := by
    rw [Nat.sub_add_cancel h]; exact fun hh => hh.2 (ht hh.1)
  have hl : v.length - 1 = v.tail.length := by simp
  rw [galShift, List.getElem?_mapIdx, List.getElem?_append_right hl.symm.le, ← hl, Nat.sub_self]
  exact congrArg some (if_neg hn)

theorem xorTaps_congr (v w : Bits) (taps : List Nat) (h : ∀ p ∈ taps, cell v (p - 1) = cell w (p - 1)) :
    xorTaps v taps = xorTaps w taps := by
  induction taps with
  | nil => rfl
  | cons p taps ih =>
    simp only [xorTaps, List.foldr_cons] at *
    rw [h p (by simp), ih fun q hq => h q (by simp [hq])]

/-! ### Consistency -/

theorem le_maxTap {taps : List Nat} {p : Nat} (h : p ∈ taps) : p ≤ maxTap taps := by
  induction taps with
  | nil => cases h
  | cons q taps ih =>
    simp only [maxTap, List.foldr_cons] at *
    rcases List.mem_cons.1 h with rfl | h
    · exact le_max_left _ _
    · exact le_max_of_le_right (ih h)

theorem maxTap_mem {taps : List Nat} (h : taps ≠ []) (hp : ∀ p ∈ taps, 1 ≤ p) : maxTap taps ∈ taps := by
  induction taps with
  | nil => exact absurd rfl h
  | cons q taps ih =>
    rw [maxTap, List.foldr_cons]
    rcases taps.eq_nil_or_concat with rfl | ⟨_, _, _⟩
    · simp
    · rcases max_cases q (taps.foldr max 0) with ⟨h1, _⟩ | ⟨h1, _⟩ <;> rw [h1]
      · simp
      · exact List.mem_cons_of_mem _ (ih (by simp_all) fun p hp' => hp p (by simp [hp']))

/-- Two distinct taps of at least 1 reach at least 2. -/
theorem two_le_maxTap {taps : List Nat} (h2 : 2 ≤ taps.length) (hn : taps.Nodup) (hp : ∀ p ∈ taps, 1 ≤ p) :
    2 ≤ maxTap taps := by
  match taps, h2 with
  | a :: b :: rest, _ =>
    have ha := hp a (by simp)
    have hb := hp b (by simp)
    have hab : a ≠ b := by rintro rfl; simp at hn
    have la := le_maxTap (taps := a :: b :: rest) (p := a) (by simp)
    have lb := le_maxTap (taps := a :: b :: rest) (p := b) (by simp)
    omega

theorem Engine.Consistent.two_le_len {e : Engine} (h : e.Consistent) : 2 ≤ e.len :=
  le_trans (two_le_maxTap h.1 h.2.1 h.2.2.1) h.2.2.2.1

theorem Engine.Consistent.tap_le {e : Engine} (h : e.Consistent) {p : Nat} (hp : p ∈ e.taps) : 1 ≤ p ∧ p ≤ e.len :=
  ⟨h.2.2.1 p hp, (le_maxTap hp).trans h.2.2.2.1⟩

theorem eff_lt {i : Int} {m : Nat} (h : OidxInRange i m) : eff i m < m := by
  unfold eff; obtain ⟨h1, h2⟩ := h; split <;> omega

theorem eff_eq {i : Int} {m j : Nat} (hj : (j : Int) = i ∨ (j : Int) = i + (m : Int)) (hl : j < m) : j = eff i m := by
  unfold eff; split <;> omega

theorem tapIs_tap {e : Engine} (h : OidxInRange e.oidx e.len) : TapIs e e.tap := by
  intro j hj hl
  rw [Engine.tap, if_pos h, ← eff_eq hj hl, getElem?_of_cell hl]

theorem Engine.shifted_length {e : Engine} (h : 0 < e.len) : e.shifted.length = e.len := by
  unfold Engine.shifted
  cases e.conf <;> simp [Engine.len] at * <;> simp [h]

@[simp] theorem Engine.advance_len {e : Engine} (h : 0 < e.len) : e.advance.len = e.len := Engine.shifted_length h

/-- A step keeps the engine consistent, so a run checks once (R137). -/
theorem Engine.Consistent.advance {e : Engine} (h : e.Consistent) : e.advance.Consistent := by
  have hl := e.advance_len (by have := h.two_le_len; omega)
  simpa only [Engine.Consistent, Engine.advance_taps, Engine.advance_conf, Engine.advance_oidx, hl] using h

theorem Engine.Consistent.after {e : Engine} (h : e.Consistent) (k : Nat) : (e.after k).Consistent := by
  induction k generalizing e with
  | zero => exact h
  | succ k ih => exact ih h.advance

/-! ### The step inside a cycle -/

theorem Engine.stepInCycle_consistent {e : Engine} (h : e.Consistent) : e.stepInCycle = e.advance := if_pos h
theorem Engine.stepInCycle_inconsistent {e : Engine} (h : ¬e.Consistent) : e.stepInCycle = e := if_neg h

/-- What holds of an engine and of the engine a step later holds of it after its step in a cycle. -/
theorem Engine.stepInCycle_keeps {P : Engine → Prop} {e : Engine} (he : P e) (ha : P e.advance) : P e.stepInCycle := by
  unfold Engine.stepInCycle; split <;> assumption

/-! ### Runs -/

@[simp] theorem Engine.after_zero (e : Engine) : e.after 0 = e := rfl
theorem Engine.after_succ (k : Nat) (e : Engine) : e.after (k + 1) = e.advance.after k := rfl
@[simp] theorem Engine.outputs_zero (e : Engine) : e.outputs 0 = [] := rfl
theorem Engine.outputs_succ (k : Nat) (e : Engine) : e.outputs (k + 1) = e.emit :: e.advance.outputs k := rfl

theorem Engine.after_succ' (k : Nat) (e : Engine) : e.after (k + 1) = (e.after k).advance := by
  induction k generalizing e with
  | zero => rfl
  | succ k ih => rw [Engine.after_succ, ih, ← Engine.after_succ]

@[simp] theorem Engine.outputs_length (k : Nat) (e : Engine) : (e.outputs k).length = k := by
  induction k generalizing e with
  | zero => rfl
  | succ k ih => simp [Engine.outputs_succ, ih]

@[simp] theorem Engine.after_count (k : Nat) (e : Engine) : (e.after k).count = e.count + k := by
  induction k generalizing e with
  | zero => rfl
  | succ k ih => rw [Engine.after_succ, ih, Engine.advance_count]; omega

@[simp] theorem Engine.after_seq (k : Nat) (e : Engine) : (e.after k).seq = e.seq ++ e.outputs k := by
  induction k generalizing e with
  | zero => simp
  | succ k ih => rw [Engine.after_succ, ih, Engine.advance_seq, Engine.outputs_succ]; simp

theorem Engine.sameControl_after (k : Nat) (e : Engine) : SameControl e (e.after k) := by
  induction k generalizing e with
  | zero => exact .rfl' e
  | succ k ih => exact (Engine.sameControl_advance e).trans' (ih e.advance)

theorem Engine.after_len {e : Engine} (h : 0 < e.len) (k : Nat) : (e.after k).len = e.len := by
  induction k generalizing e with
  | zero => rfl
  | succ k ih => rw [Engine.after_succ, ih (by rwa [Engine.advance_len h]), Engine.advance_len h]

/-! ### Well-formedness -/

theorem Engine.Wf.advance {e : Engine} (h : e.Wf) : e.advance.Wf where
  taps_two := h.taps_two
  taps_sorted := h.taps_sorted
  taps_pos := h.taps_pos
  len_two := by rw [Engine.advance_len (by have := h.len_two; omega)]; exact h.len_two
  init_two := h.init_two
  init_nonzero := h.init_nonzero
  seq_count := by simp [h.seq_count]
  fb_count := by simp
  outbit_count := by simp

theorem Engine.Wf.after {e : Engine} (h : e.Wf) (k : Nat) : (e.after k).Wf := by
  induction k generalizing e with
  | zero => exact h
  | succ k ih => exact ih h.advance

theorem Engine.Wf.reset {e : Engine} (h : e.Wf) : e.reset.Wf where
  taps_two := h.taps_two
  taps_sorted := h.taps_sorted
  taps_pos := h.taps_pos
  len_two := h.init_two
  init_two := h.init_two
  init_nonzero := h.init_nonzero
  seq_count := rfl
  fb_count := by simp
  outbit_count := by simp

theorem Engine.Wf.nodup {e : Engine} (h : e.Wf) : e.taps.Nodup := h.taps_sorted.imp fun h => Nat.ne_of_gt h

/-- The leading tap of a sorted list is the largest. -/
theorem headD_eq_maxTap {taps : List Nat} (h : taps.Pairwise (· > ·)) : taps.headD 0 = maxTap taps := by
  cases taps with
  | nil => rfl
  | cons p taps =>
    have hle : maxTap taps ≤ p := by
      by_contra hc
      have hne : taps ≠ [] := by rintro rfl; simp [maxTap] at hc
      have : ∀ l : List Nat, (∀ q ∈ l, q < p) → l.foldr max 0 ≤ p := by
        intro l hl
        induction l with
        | nil => simp
        | cons q l ih => exact max_le (hl q (by simp)).le (ih fun r hr => hl r (by simp [hr]))
      exact hc (this taps fun q hq => (List.pairwise_cons.1 h).1 q hq)
    show p = max p (taps.foldr max 0)
    exact (max_eq_left hle).symm

end Sys2Proof.Machine
end

