-- ==== Sys2Proof/Laws/Taps.lean ====
section
/-!
SUPPORT. The tap lists of operands and engines: sorting, the largest tap, and the tap masks.
-/

namespace Sys2Proof.Machine

theorem storedTaps_perm (taps : List Int) : (storedTaps taps).Perm (taps.map Int.toNat) := List.perm_insertionSort _ _

theorem mem_storedTaps {taps : List Int} {p : Nat} : p ∈ storedTaps taps ↔ ∃ q ∈ taps, q.toNat = p := by
  rw [(storedTaps_perm taps).mem_iff, List.mem_map]

@[simp] theorem storedTaps_length (taps : List Int) : (storedTaps taps).length = taps.length := by
  simp [storedTaps]

theorem storedTaps_pos {taps : List Int} (h : ∀ p ∈ taps, 1 ≤ p) : ∀ p ∈ storedTaps taps, 1 ≤ p := by
  intro p hp
  obtain ⟨q, hq, rfl⟩ := mem_storedTaps.1 hp
  have := h q hq
  omega

theorem storedTaps_nodup {taps : List Int} (h : ∀ p ∈ taps, 1 ≤ p) (hn : taps.Nodup) : (storedTaps taps).Nodup := by
  refine (storedTaps_perm taps).nodup_iff.2 (List.Nodup.map_on (fun a ha b hb hab => ?_) hn)
  have := h a ha
  have := h b hb
  omega

/-- A list sorted by `≥` without repeats is sorted by `>`. -/
theorem pairwise_gt_of_ge {l : List Nat} (h : l.Pairwise (· ≥ ·)) (hn : l.Nodup) : l.Pairwise (· > ·) :=
  h.imp₂ (fun _ _ h1 h2 => lt_of_le_of_ne h1 (Ne.symm h2)) hn

theorem storedTaps_sorted {taps : List Int} (h : ∀ p ∈ taps, 1 ≤ p) (hn : taps.Nodup) :
    (storedTaps taps).Pairwise (· > ·) :=
  pairwise_gt_of_ge (List.pairwise_insertionSort _ _) (storedTaps_nodup h hn)

theorem storedTaps_storedAs {taps : List Int} (h : PolyValid taps) : StoredAs taps (storedTaps taps) := by
  refine ⟨?_, storedTaps_sorted h.2.2 h.2.1⟩
  refine ((storedTaps_perm taps).map _).trans ?_
  rw [List.map_map]
  have : taps.map (Int.ofNat ∘ Int.toNat) = taps.map id := List.map_congr_left fun p hp => by
    have := h.2.2 p hp
    simp only [Function.comp_apply, id]; exact Int.toNat_of_nonneg (by omega)
  rw [this, List.map_id]

/-- The sorted form of an operand is unique (R113). -/
theorem StoredAs.unique {taps : List Int} {a b : List Nat} (ha : StoredAs taps a) (hb : StoredAs taps b) : a = b := by
  have hp : a.Perm b := by
    have := ha.1.trans hb.1.symm
    simpa [List.map_map, Function.comp_def] using this.map Int.toNat
  exact hp.eq_of_pairwise (fun x y _ _ h1 h2 => absurd (lt_trans h1 h2) (lt_irrefl _)) ha.2 hb.2

theorem maxTapOperand_eq (taps : List Int) : maxTapOperand taps = maxTap (taps.map Int.toNat) := by
  induction taps with
  | nil => rfl
  | cons p taps ih => simp only [maxTapOperand, maxTap, List.foldr_cons, List.map_cons] at *; rw [ih]

theorem maxTap_perm {a b : List Nat} (h : a.Perm b) : maxTap a = maxTap b := by
  unfold maxTap; exact h.foldr_eq 0

/-- The largest stored tap is the largest operand tap. -/
@[simp] theorem maxTap_storedTaps (taps : List Int) : maxTap (storedTaps taps) = maxTapOperand taps := by
  rw [maxTap_perm (storedTaps_perm taps), maxTapOperand_eq]

theorem le_maxTapOperand {taps : List Int} {p : Int} (h : p ∈ taps) : p ≤ (maxTapOperand taps : Int) := by
  have := le_maxTap (List.mem_map_of_mem (f := Int.toNat) h)
  rw [← maxTapOperand_eq] at this
  omega

theorem maxTapOperand_mem {taps : List Int} (h : taps ≠ []) (hp : ∀ p ∈ taps, 1 ≤ p) : (maxTapOperand taps : Int) ∈ taps := by
  have := maxTap_mem (taps := taps.map Int.toNat) (by simpa using h) (by
    intro q hq
    obtain ⟨r, hr, rfl⟩ := List.mem_map.1 hq
    have := hp r hr
    omega)
  rw [← maxTapOperand_eq, List.mem_map] at this
  obtain ⟨q, hq, he⟩ := this
  have := hp q hq
  rwa [← he, Int.toNat_of_nonneg (by omega)]

/-- The largest operand tap, as statements name it. -/
theorem isMaxTap_iff {taps : List Int} (h : PolyValid taps) {d : Nat} : IsMaxTap taps d ↔ d = maxTapOperand taps := by
  have hne : taps ≠ [] := by rintro rfl; simp [PolyValid] at h
  constructor
  · rintro ⟨h1, h2⟩
    have := h2 _ (maxTapOperand_mem hne h.2.2)
    have := le_maxTapOperand h1
    omega
  · rintro rfl
    exact ⟨maxTapOperand_mem hne h.2.2, fun p hp => le_maxTapOperand hp⟩

theorem PolyValid.two_le_max {taps : List Int} (h : PolyValid taps) : 2 ≤ maxTapOperand taps := by
  rw [← maxTap_storedTaps]
  exact two_le_maxTap (by simpa using h.1) (storedTaps_nodup h.2.2 h.2.1) (storedTaps_pos h.2.2)

/-- The leading stored tap is the largest. -/
theorem headD_storedTaps {taps : List Int} (h : PolyValid taps) : (storedTaps taps).headD 0 = maxTapOperand taps := by
  rw [headD_eq_maxTap (storedTaps_sorted h.2.2 h.2.1), maxTap_storedTaps]

theorem head?_of_headD {taps : List Nat} (h : taps ≠ []) : taps.head? = some (taps.headD 0) := by
  cases taps <;> simp_all

theorem Engine.Wf.headD {e : Engine} (h : e.Wf) : e.taps.headD 0 = maxTap e.taps := headD_eq_maxTap h.taps_sorted
theorem Engine.Wf.head? {e : Engine} (h : e.Wf) : e.taps.head? = some (maxTap e.taps) := by
  rw [head?_of_headD (by have := h.taps_two; rintro hn; simp [hn] at this), h.headD]

end Sys2Proof.Machine
end

