-- ==== Sys2Proof/Laws/Decode.lean ====
section
/-!
SUPPORT. The fields of the header, of the immediates and of the tap masks: what is written into one is read back from it, and
nothing else is.
-/

namespace Sys2Proof

/-! ### The header -/

/-- Two adjacent slices of a word are one slice. -/
theorem slices_join {w : Nat} (x : BitVec w) (s₂ l₂ s₁ l₁ : Nat) (h : s₂ = s₁ + l₁) :
    x.extractLsb' s₂ l₂ ++ x.extractLsb' s₁ l₁ = x.extractLsb' s₁ (l₂ + l₁) :=
  BitVec.extractLsb'_append_extractLsb'_eq_extractLsb' h

section Header
variable (op : BitVec 8) (u s : BitVec 4) (imm : BitVec 16)

@[simp] theorem opField_header : opField (header op u s imm) = op := by
  rw [opField, header, BitVec.extractLsb'_append_eq_of_le (by omega), BitVec.extractLsb'_append_eq_of_le (by omega),
    BitVec.extractLsb'_append_eq_of_le (by omega)]
  exact BitVec.extractLsb'_eq_self

@[simp] theorem unitField_header : unitField (header op u s imm) = u := by
  rw [unitField, header, BitVec.extractLsb'_append_eq_of_le (by omega), BitVec.extractLsb'_append_eq_of_le (by omega)]
  exact BitVec.extractLsb'_append_eq_right

@[simp] theorem slotField_header : slotField (header op u s imm) = s := by
  rw [slotField, header, BitVec.extractLsb'_append_eq_of_le (by omega)]
  exact BitVec.extractLsb'_append_eq_right

@[simp] theorem immField_header : immField (header op u s imm) = imm := BitVec.extractLsb'_append_eq_right

end Header

/-- A header is its four fields. -/
theorem header_fields (h : Header) : header (opField h) (unitField h) (slotField h) (immField h) = h := by
  simp only [opField, unitField, slotField, immField, header]
  rw [slices_join h 24 8 20 4 rfl, slices_join h 20 12 16 4 rfl, slices_join h 16 16 0 16 rfl]
  exact BitVec.extractLsb'_eq_self

theorem header_injective {op op' : BitVec 8} {u u' s s' : BitVec 4} {imm imm' : BitVec 16}
    (h : header op u s imm = header op' u' s' imm') : op = op' ∧ u = u' ∧ s = s' ∧ imm = imm' :=
  ⟨by simpa using congrArg opField h, by simpa using congrArg unitField h, by simpa using congrArg slotField h,
    by simpa using congrArg immField h⟩

/-! ### Units and slots -/

@[simp] theorem EngineRef.ofFields_self (t : EngineRef) : EngineRef.ofFields t.unit t.slot = .ok t := by
  rcases t with _ | r | _ | j | r
  · rfl
  · cases r <;> rfl
  · rfl
  · revert j; decide
  · cases r <;> rfl

/-- The fields name one engine (R83). -/
theorem EngineRef.ofFields_ok {u s : BitVec 4} {t : EngineRef} : EngineRef.ofFields u s = .ok t ↔ u = t.unit ∧ s = t.slot := by
  constructor
  · revert u s
    have : ∀ u s : BitVec 4, ∀ t, EngineRef.ofFields u s = .ok t → u = t.unit ∧ s = t.slot := by
      intro u s t h
      have key : ∀ u s : BitVec 4, (match EngineRef.ofFields u s with
        | .ok t => decide (u = t.unit ∧ s = t.slot)
        | .error _ => true) = true := by decide +revert
      have := key u s
      rw [h] at this
      simpa using this
    exact fun {u s} => this u s t
  · rintro ⟨rfl, rfl⟩; simp

@[simp] theorem CompositeRef.ofFields_self (u : CompositeRef) : CompositeRef.ofFields u.unit 0 = .ok u := by cases u <;> rfl

/-- The fields name one composite (R84). -/
theorem CompositeRef.ofFields_ok {u s : BitVec 4} {t : CompositeRef} :
    CompositeRef.ofFields u s = .ok t ↔ u = t.unit ∧ s = 0 := by
  constructor
  · intro h
    have key : ∀ u s : BitVec 4, (match CompositeRef.ofFields u s with
      | .ok t => decide (u = t.unit ∧ s = 0)
      | .error _ => true) = true := by decide +revert
    have := key u s
    rw [h] at this
    simpa using this
  · rintro ⟨rfl, rfl⟩; exact CompositeRef.ofFields_self t

/-! ### Immediates -/

@[simp] theorem ConfTag.ofField_field (c : ConfTag) : ConfTag.ofField c.field = c := by cases c <;> rfl
@[simp] theorem ConfTag.field_ofField (f : BitVec 2) : (ConfTag.ofField f).field = f := by revert f; decide
@[simp] theorem Policy.ofField_field (p : Policy) : Policy.ofField p.field = p := by cases p <;> rfl
@[simp] theorem Policy.field_ofField (f : BitVec 1) : (Policy.ofField f).field = f := by revert f; decide
@[simp] theorem InitSpec.ofField_field (i : InitSpec) : InitSpec.ofField i.field i.vector = .ok i := by cases i <;> rfl

/-- Only the field and the vector of an `init_spec` give it (R85, R91). -/
theorem InitSpec.ofField_ok {f : BitVec 2} {vb : Bits} {i : InitSpec} :
    InitSpec.ofField f vb = .ok i ↔ f = i.field ∧ vb = i.vector := by
  constructor
  · have : f = 0 ∨ f = 1 ∨ f = 2 ∨ f = 3 := by revert f; decide
    rcases this with rfl | rfl | rfl | rfl <;> intro h <;> simp only [InitSpec.ofField] at h
    · cases vb <;> cases h; exact ⟨rfl, rfl⟩
    · cases vb <;> cases h; exact ⟨rfl, rfl⟩
    · cases h; exact ⟨rfl, rfl⟩
    · cases h
  · rintro ⟨rfl, rfl⟩; simp

theorem oidx_roundtrip {i : Int} (h : oidxEncodable i = true) : oidxOfField (BitVec.ofInt 8 i) = i := by
  simp only [oidxEncodable, Bool.and_eq_true, decide_eq_true_eq] at h
  simp only [oidxOfField, BitVec.toInt_ofInt]
  rw [Int.bmod_eq_of_le] <;> omega

@[simp] theorem ofInt_oidxOfField (f : BitVec 8) : BitVec.ofInt 8 (oidxOfField f) = f := by simp [oidxOfField]

theorem oidxEncodable_ofField (f : BitVec 8) : oidxEncodable (oidxOfField f) = true := by revert f; decide

section NewImm
variable (c i : BitVec 2) (p : BitVec 1) (o : BitVec 8)

@[simp] theorem newImm_conf : (newImm c i p o).extractLsb' 0 2 = c := BitVec.extractLsb'_append_eq_right

@[simp] theorem newImm_init : (newImm c i p o).extractLsb' 2 2 = i := by
  rw [newImm, BitVec.extractLsb'_append_eq_of_le (by omega)]
  exact BitVec.extractLsb'_append_eq_right

@[simp] theorem newImm_policy : (newImm c i p o).extractLsb' 4 1 = p := by
  rw [newImm, BitVec.extractLsb'_append_eq_of_le (by omega), BitVec.extractLsb'_append_eq_of_le (by omega)]
  exact BitVec.extractLsb'_append_eq_right

@[simp] theorem newImm_zero : (newImm c i p o).extractLsb' 5 3 = 0#3 := by
  rw [newImm, BitVec.extractLsb'_append_eq_of_le (by omega), BitVec.extractLsb'_append_eq_of_le (by omega),
    BitVec.extractLsb'_append_eq_of_le (by omega)]
  exact BitVec.extractLsb'_append_eq_right

@[simp] theorem newImm_oidx : (newImm c i p o).extractLsb' 8 8 = o := by
  rw [newImm, BitVec.extractLsb'_append_eq_of_le (by omega), BitVec.extractLsb'_append_eq_of_le (by omega),
    BitVec.extractLsb'_append_eq_of_le (by omega), BitVec.extractLsb'_append_eq_of_le (by omega)]
  exact BitVec.extractLsb'_eq_self

end NewImm

/-- An `imm16` of `E_NEW` with zeros in bits 7 to 5 is its fields. -/
theorem newImm_fields {imm : BitVec 16} (h : imm.extractLsb' 5 3 = 0) :
    newImm (imm.extractLsb' 0 2) (imm.extractLsb' 2 2) (imm.extractLsb' 4 1) (imm.extractLsb' 8 8) = imm := by
  rw [newImm, show (0#3) = imm.extractLsb' 5 3 from h.symm, slices_join imm 8 8 5 3 rfl, slices_join imm 5 11 4 1 rfl,
    slices_join imm 4 12 2 2 rfl, slices_join imm 2 14 0 2 rfl]
  exact BitVec.extractLsb'_eq_self

@[simp] theorem flagsImm_reset (r e : Bool) : (flagsImm r e)[0] = r := by cases r <;> cases e <;> rfl
@[simp] theorem flagsImm_enforce (r e : Bool) : (flagsImm r e)[1] = e := by cases r <;> cases e <;> rfl
@[simp] theorem flagsImm_zero (r e : Bool) : (flagsImm r e).extractLsb' 2 14 = 0 := by cases r <;> cases e <;> rfl

/-- An `imm16` with zeros in bits 15 to 2 is its two flags. -/
theorem flagsImm_fields {imm : BitVec 16} (h : imm.extractLsb' 2 14 = 0) : flagsImm (imm.getLsbD 0) (imm.getLsbD 1) = imm := by
  have e0 : BitVec.ofBool (imm.getLsbD 0) = imm.extractLsb' 0 1 := by ext i hi; simp [show i = 0 by omega]
  have e1 : BitVec.ofBool (imm.getLsbD 1) = imm.extractLsb' 1 1 := by ext i hi; simp [show i = 0 by omega]
  rw [flagsImm, show (0#14) = imm.extractLsb' 2 14 from h.symm, e0, e1, slices_join imm 2 14 1 1 rfl,
    slices_join imm 1 15 0 1 rfl]
  exact BitVec.extractLsb'_eq_self

/-! ### Tap masks (R87) -/

theorem mem_tapsFrom {i : Nat} {v : Bits} {p : Int} : p ∈ tapsFrom i v ↔ ∃ j : Nat, v[j]? = some true ∧ p = (i : Int) + j := by
  induction v generalizing i with
  | nil => simp [tapsFrom]
  | cons b v ih =>
    have hs : (∃ j : Nat, (b :: v)[j]? = some true ∧ p = (i : Int) + j) ↔
        (b = true ∧ p = (i : Int)) ∨ ∃ j : Nat, v[j]? = some true ∧ p = ((i + 1 : Nat) : Int) + j := by
      constructor
      · rintro ⟨j, h1, h2⟩
        cases j with
        | zero => left; simpa using And.intro h1 h2
        | succ j => right; exact ⟨j, by simpa using h1, by omega⟩
      · rintro (⟨rfl, rfl⟩ | ⟨j, h1, h2⟩)
        · exact ⟨0, rfl, by omega⟩
        · exact ⟨j + 1, by simpa using h1, by omega⟩
    rw [hs, tapsFrom]
    cases b <;> simp [ih]

/-- Tap position `p` is present exactly when element `p - 1` of the mask is set. -/
theorem mem_tapsOfMask {va : Bits} {p : Int} : p ∈ tapsOfMask va ↔ ∃ j : Nat, va[j]? = some true ∧ p = (j : Int) + 1 := by
  rw [tapsOfMask, mem_tapsFrom]
  exact exists_congr fun j => and_congr_right fun _ => by omega

theorem tapsFrom_sorted (i : Nat) (v : Bits) : (tapsFrom i v).Pairwise (· < ·) := by
  induction v generalizing i with
  | nil => exact List.Pairwise.nil
  | cons b v ih =>
    rw [tapsFrom]
    split
    · refine List.pairwise_cons.2 ⟨fun p hp => ?_, ih _⟩
      obtain ⟨j, -, rfl⟩ := mem_tapsFrom.1 hp
      omega
    · exact ih _

theorem tapsOfMask_encodable {va : Bits} (h : va.length ≤ mMax) : tapsEncodable (tapsOfMask va) = true := by
  simp only [tapsEncodable, Bool.and_eq_true, decide_eq_true_eq, List.all_eq_true]
  refine ⟨tapsFrom_sorted _ _, fun p hp => ?_⟩
  obtain ⟨j, hj, rfl⟩ := mem_tapsOfMask.1 hp
  have := (List.getElem?_eq_some_iff.1 hj).1
  omega

@[simp] theorem tapMask_length (taps : List Int) : (tapMask taps).length = maxTapOperand taps := by simp [tapMask]

/-- Element `j` of the mask of a list is set exactly when position `j + 1` is in the list. -/
theorem tapMask_getElem? {taps : List Int} {j : Nat} : (tapMask taps)[j]? = some true ↔ (j : Int) + 1 ∈ taps := by
  have hm : (j : Int) + 1 ∈ taps → j < maxTapOperand taps := fun h => by
    have := Machine.le_maxTapOperand h
    omega
  simp only [tapMask, List.getElem?_map, Option.map_eq_some_iff]
  constructor
  · rintro ⟨i, h1, h2⟩
    obtain ⟨_, rfl⟩ := List.getElem?_eq_some_iff.1 h1
    simpa using h2
  · exact fun h => ⟨j, by simp [hm h], by simpa using h⟩

/-- An encodable tap list is read back from its mask. -/
theorem tapsOfMask_tapMask {taps : List Int} (h : tapsEncodable taps = true) : tapsOfMask (tapMask taps) = taps := by
  simp only [tapsEncodable, Bool.and_eq_true, decide_eq_true_eq, List.all_eq_true] at h
  have hm : ∀ p, p ∈ tapsOfMask (tapMask taps) ↔ p ∈ taps := fun p => by
    rw [mem_tapsOfMask]
    constructor
    · rintro ⟨j, hj, rfl⟩
      exact tapMask_getElem?.1 hj
    · intro hp
      have := (h.2 p hp).1
      exact ⟨(p - 1).toNat, tapMask_getElem?.2 (by rwa [Int.toNat_of_nonneg (by omega), sub_add_cancel]), by omega⟩
  have nodup : ∀ l : List Int, l.Pairwise (· < ·) → l.Nodup := fun l hl => hl.imp fun h => ne_of_lt h
  refine List.Perm.eq_of_pairwise (fun x y _ _ h1 h2 => absurd (lt_trans h1 h2) (lt_irrefl _)) (tapsFrom_sorted 1 _) h.1 ?_
  exact (List.perm_ext_iff_of_nodup (nodup _ (tapsFrom_sorted 1 _)) (nodup _ h.1)).2 hm

theorem maxTapOperand_le {taps : List Int} {n : Nat} (h : ∀ p ∈ taps, p ≤ (n : Int)) : maxTapOperand taps ≤ n := by
  induction taps with
  | nil => exact Nat.zero_le _
  | cons p taps ih =>
    have := h p (by simp)
    have := ih fun q hq => h q (by simp [hq])
    simp only [maxTapOperand, List.foldr_cons] at *
    omega

/-- The mask of an encodable tap list fits the port. -/
theorem tapMask_fits {taps : List Int} (h : tapsEncodable taps = true) : (tapMask taps).length ≤ mMax := by
  simp only [tapsEncodable, Bool.and_eq_true, decide_eq_true_eq, List.all_eq_true] at h
  rw [tapMask_length]
  exact maxTapOperand_le fun p hp => (h.2 p hp).2

/-- A mask and the mask of what it names set the same elements. -/
theorem tapMask_tapsOfMask (va : Bits) (p : Nat) : (tapMask (tapsOfMask va))[p]? = some true ↔ va[p]? = some true := by
  rw [tapMask_getElem?, mem_tapsOfMask]
  exact ⟨fun ⟨j, hj, h⟩ => by rwa [show p = j by omega], fun h => ⟨p, h, rfl⟩⟩

/-! ### Acceptance -/

theorem accept_ok {zero noVector : Bool} {i j : Instr} : accept zero noVector i = .ok j ↔ zero = true ∧ noVector = true ∧ i = j := by
  cases zero <;> cases noVector <;> simp [accept]

theorem accept_error {zero noVector : Bool} {i : Instr} :
    (∃ r, accept zero noVector i = .error r) ↔ ¬(zero = true ∧ noVector = true) := by
  cases zero <;> cases noVector <;> simp [accept]

/-! ### Decoding by class -/

/-- The opcode byte of an engine-class operation (R90). -/
def EOp.byte : EOp → BitVec 8
  | .new => 0x01
  | .step => 0x02
  | .run => 0x03
  | .runFull => 0x04
  | .reset => 0x05
  | .setPoly => 0x06
  | .setState => 0x07
  | .setConf => 0x08
  | .setOidx => 0x09
  | .getState => 0x10
  | .getPoly => 0x11
  | .getSeq => 0x12
  | .getCount => 0x13
  | .getPeriod => 0x14
  | .getOutbit => 0x15
  | .getFb => 0x16

/-- The opcode byte of a composite-class operation (R90). -/
def COp.byte : COp → BitVec 8
  | .build => 0x20
  | .step => 0x21
  | .run => 0x22
  | .reset => 0x23
  | .getSeq => 0x28
  | .getCount => 0x29
  | .getOutbit => 0x2A
  | .getAux => 0x2B

def Op.byte : Op → BitVec 8
  | .engine op => op.byte
  | .composite op => op.byte

@[simp] theorem Op.ofByte_byte (op : Op) : Op.ofByte op.byte = some op := by rcases op with op | op <;> cases op <;> rfl

/-- Each operation has one opcode. -/
theorem Op.ofByte_eq_some {b : BitVec 8} {op : Op} : Op.ofByte b = some op ↔ b = op.byte := by
  constructor
  · intro h
    have key : ∀ b, (match Op.ofByte b with
      | some op => decide (b = op.byte)
      | none => true) = true := by decide
    have := key b
    rw [h] at this
    simpa using this
  · rintro rfl; simp

theorem decode_engineCommand {b : BitVec 8} {op : EOp} (h : Op.ofByte b = some (.engine op)) (t : EngineRef)
    (imm : BitVec 16) {va vb : Bits} (ha : va.length ≤ mMax) (hb : vb.length ≤ mMax) :
    decode (engineCommand b t imm va vb) = decodeEngine op t imm va vb := by
  simp only [decode, engineCommand, opField_header, unitField_header, slotField_header, immField_header, h, decodeOp,
    EngineRef.ofFields_self, ha, hb, and_self, if_true]

theorem decode_compositeCommand {b : BitVec 8} {op : COp} (h : Op.ofByte b = some (.composite op)) (u : CompositeRef)
    (imm : BitVec 16) : decode (compositeCommand b u imm) = decodeComposite op u imm [] [] := by
  simp only [decode, compositeCommand, opField_header, unitField_header, slotField_header, immField_header, h, decodeOp,
    CompositeRef.ofFields_self, List.length_nil, Nat.zero_le, and_self, if_true]

/-- A command that decodes fits the port and is of one of the two classes, its header being that of the class. -/
theorem decode_ok {c : Command} {i : Instr} (h : decode c = .ok i) :
    c.va.length ≤ mMax ∧ c.vb.length ≤ mMax ∧
      ((∃ op t, c.hdr = header op.byte t.unit t.slot (immField c.hdr) ∧
        decodeEngine op t (immField c.hdr) c.va c.vb = .ok i) ∨
      ∃ op u, c.hdr = header op.byte u.unit 0 (immField c.hdr) ∧
        decodeComposite op u (immField c.hdr) c.va c.vb = .ok i) := by
  unfold decode at h
  split at h
  · rename_i hl
    refine ⟨hl.1, hl.2, ?_⟩
    split at h
    · rename_i op hop
      cases op with
      | engine op =>
        simp only [decodeOp] at h
        split at h
        · rename_i t ht
          obtain ⟨h1, h2⟩ := EngineRef.ofFields_ok.1 ht
          exact .inl ⟨op, t, by rw [← h1, ← h2, ← show _ = op.byte from Op.ofByte_eq_some.1 hop, header_fields], h⟩
        · cases h
      | composite op =>
        simp only [decodeOp] at h
        split at h
        · rename_i u hu
          obtain ⟨h1, h2⟩ := CompositeRef.ofFields_ok.1 hu
          exact .inr ⟨op, u, by rw [← h1, ← h2, ← show _ = op.byte from Op.ofByte_eq_some.1 hop, header_fields], h⟩
        · cases h
    · cases h
  · cases h

/-! ### Masked headers -/

theorem header_and (op op' : BitVec 8) (u u' s s' : BitVec 4) (imm imm' : BitVec 16) :
    header op u s imm &&& header op' u' s' imm' = header (op &&& op') (u &&& u') (s &&& s') (imm &&& imm') := by
  refine BitVec.and_append.trans ?_
  rw [BitVec.and_append, BitVec.and_append]
  rfl

/-- A word whose slice is zero is zero under any mask inside the slice. -/
theorem and_slice_zero {w : Nat} {x m : BitVec w} {start len : Nat} (h : x.extractLsb' start len = 0)
    (hm : ∀ i, m.getLsbD i = true → start ≤ i ∧ i < start + len) : x &&& m = 0 := by
  ext i hi
  rw [BitVec.getElem_and, show (0 : BitVec w)[i] = false by simp, Bool.and_eq_false_iff]
  by_cases hb : m[i] = true
  · left
    obtain ⟨h1, h2⟩ := hm i (by simpa [hi] using hb)
    have := congrArg (·.getLsbD (i - start)) h
    simpa [show i - start < len by omega, show start + (i - start) = i by omega, hi] using this
  · right; simpa using hb

end Sys2Proof
end

