-- ==== Sys2Proof/Laws/State.lean ====
section
/-!
SUPPORT. The small laws of the state's updates: one lemma per field per update, so that no later proof unfolds an update.
-/

namespace Sys2Proof.Machine

/-! ### `respond` -/

@[simp] theorem State.respond_lfsr (s : State) (r : Response) : (s.respond r).lfsr = s.lfsr := rfl
@[simp] theorem State.respond_a51 (s : State) (r : Response) : (s.respond r).a51 = s.a51 := rfl
@[simp] theorem State.respond_geffe (s : State) (r : Response) : (s.respond r).geffe = s.geffe := rfl
@[simp] theorem State.respond_geffe3 (s : State) (r : Response) : (s.respond r).geffe3 = s.geffe3 := rfl
@[simp] theorem State.respond_host (s : State) (r : Response) : (s.respond r).host = s.host := rfl
@[simp] theorem State.respond_response (s : State) (r : Response) : (s.respond r).response = some r := rfl
@[simp] theorem State.respond_draws (s : State) (r : Response) : (s.respond r).draws = s.draws := rfl
@[simp] theorem State.respond_cfg (s : State) (r : Response) : (s.respond r).cfg = s.cfg := rfl

@[simp] theorem State.respond_engine (s : State) (r : Response) (t : EngineRef) : (s.respond r).engine t = s.engine t := by
  cases t <;> rfl
@[simp] theorem State.respond_owned (s : State) (r : Response) (t : EngineRef) : (s.respond r).owned t = s.owned t := by
  cases t <;> rfl
@[simp] theorem State.respond_a51Built (s : State) (r : Response) : (s.respond r).a51Built = s.a51Built := rfl
@[simp] theorem State.respond_geffeBuilt (s : State) (r : Response) : (s.respond r).geffeBuilt = s.geffeBuilt := rfl
@[simp] theorem State.respond_geffe3Built (s : State) (r : Response) : (s.respond r).geffe3Built = s.geffe3Built := rfl
@[simp] theorem State.respond_slotsFull (s : State) (r : Response) : (s.respond r).GeffeSlotsFull = s.GeffeSlotsFull := rfl

/-! ### `takeDraws` -/

@[simp] theorem Draws.get_take_self (d : Draws) (u : UnitName) (n : Nat) : (d.take u n).get u = d.get u + n := by
  cases u <;> rfl
theorem Draws.get_take_ne (d : Draws) (u v : UnitName) (n : Nat) (h : v ≠ u) : (d.take u n).get v = d.get v := by
  cases u <;> cases v <;> first | rfl | exact absurd rfl h
@[simp] theorem Draws.take_zero (d : Draws) (u : UnitName) : d.take u 0 = d := by cases u <;> rfl
theorem Draws.take_comm (d : Draws) (u v : UnitName) (m n : Nat) (h : u ≠ v) :
    (d.take u m).take v n = (d.take v n).take u m := by
  cases u <;> cases v <;> first | rfl | exact absurd rfl h


@[simp] theorem State.takeDraws_lfsr (s : State) (u : UnitName) (n : Nat) : (s.takeDraws u n).lfsr = s.lfsr := rfl
@[simp] theorem State.takeDraws_a51 (s : State) (u : UnitName) (n : Nat) : (s.takeDraws u n).a51 = s.a51 := rfl
@[simp] theorem State.takeDraws_geffe (s : State) (u : UnitName) (n : Nat) : (s.takeDraws u n).geffe = s.geffe := rfl
@[simp] theorem State.takeDraws_geffe3 (s : State) (u : UnitName) (n : Nat) : (s.takeDraws u n).geffe3 = s.geffe3 := rfl
@[simp] theorem State.takeDraws_host (s : State) (u : UnitName) (n : Nat) : (s.takeDraws u n).host = s.host := rfl
@[simp] theorem State.takeDraws_response (s : State) (u : UnitName) (n : Nat) : (s.takeDraws u n).response = s.response := rfl
@[simp] theorem State.takeDraws_draws (s : State) (u : UnitName) (n : Nat) : (s.takeDraws u n).draws = s.draws.take u n := rfl
@[simp] theorem State.takeDraws_cfg (s : State) (u : UnitName) (n : Nat) : (s.takeDraws u n).cfg = s.cfg := rfl

@[simp] theorem State.takeDraws_engine (s : State) (u : UnitName) (n : Nat) (t : EngineRef) : (s.takeDraws u n).engine t = s.engine t := by
  cases t <;> rfl
@[simp] theorem State.takeDraws_owned (s : State) (u : UnitName) (n : Nat) (t : EngineRef) : (s.takeDraws u n).owned t = s.owned t := by
  cases t <;> rfl
@[simp] theorem State.takeDraws_a51Built (s : State) (u : UnitName) (n : Nat) : (s.takeDraws u n).a51Built = s.a51Built := rfl
@[simp] theorem State.takeDraws_geffeBuilt (s : State) (u : UnitName) (n : Nat) : (s.takeDraws u n).geffeBuilt = s.geffeBuilt := rfl
@[simp] theorem State.takeDraws_geffe3Built (s : State) (u : UnitName) (n : Nat) : (s.takeDraws u n).geffe3Built = s.geffe3Built := rfl
@[simp] theorem State.takeDraws_slotsFull (s : State) (u : UnitName) (n : Nat) : (s.takeDraws u n).GeffeSlotsFull = s.GeffeSlotsFull := rfl

/-! ### `putA51` -/

@[simp] theorem State.putA51_lfsr (s : State) (u : A51) : (s.putA51 u).lfsr = s.lfsr := rfl
@[simp] theorem State.putA51_a51 (s : State) (u : A51) : (s.putA51 u).a51 = .built u := rfl
@[simp] theorem State.putA51_geffe (s : State) (u : A51) : (s.putA51 u).geffe = s.geffe := rfl
@[simp] theorem State.putA51_geffe3 (s : State) (u : A51) : (s.putA51 u).geffe3 = s.geffe3 := rfl
@[simp] theorem State.putA51_host (s : State) (u : A51) : (s.putA51 u).host = s.host := rfl
@[simp] theorem State.putA51_response (s : State) (u : A51) : (s.putA51 u).response = s.response := rfl
@[simp] theorem State.putA51_draws (s : State) (u : A51) : (s.putA51 u).draws = s.draws := rfl
@[simp] theorem State.putA51_cfg (s : State) (u : A51) : (s.putA51 u).cfg = s.cfg := rfl

@[simp] theorem State.putA51_a51Built (s : State) (u : A51) : (s.putA51 u).a51Built = some u := rfl
@[simp] theorem State.putA51_geffeBuilt (s : State) (u : A51) : (s.putA51 u).geffeBuilt = s.geffeBuilt := rfl
@[simp] theorem State.putA51_geffe3Built (s : State) (u : A51) : (s.putA51 u).geffe3Built = s.geffe3Built := rfl

/-! ### `putGeffe` -/

@[simp] theorem State.putGeffe_lfsr (s : State) (u : Geffe) (spare : List (Option Engine)) : (s.putGeffe u spare).lfsr = s.lfsr := rfl
@[simp] theorem State.putGeffe_a51 (s : State) (u : Geffe) (spare : List (Option Engine)) : (s.putGeffe u spare).a51 = s.a51 := rfl
@[simp] theorem State.putGeffe_geffe (s : State) (u : Geffe) (spare : List (Option Engine)) : (s.putGeffe u spare).geffe = .built u spare := rfl
@[simp] theorem State.putGeffe_geffe3 (s : State) (u : Geffe) (spare : List (Option Engine)) : (s.putGeffe u spare).geffe3 = s.geffe3 := rfl
@[simp] theorem State.putGeffe_host (s : State) (u : Geffe) (spare : List (Option Engine)) : (s.putGeffe u spare).host = s.host := rfl
@[simp] theorem State.putGeffe_response (s : State) (u : Geffe) (spare : List (Option Engine)) : (s.putGeffe u spare).response = s.response := rfl
@[simp] theorem State.putGeffe_draws (s : State) (u : Geffe) (spare : List (Option Engine)) : (s.putGeffe u spare).draws = s.draws := rfl
@[simp] theorem State.putGeffe_cfg (s : State) (u : Geffe) (spare : List (Option Engine)) : (s.putGeffe u spare).cfg = s.cfg := rfl

@[simp] theorem State.putGeffe_a51Built (s : State) (u : Geffe) (spare : List (Option Engine)) : (s.putGeffe u spare).a51Built = s.a51Built := rfl
@[simp] theorem State.putGeffe_geffeBuilt (s : State) (u : Geffe) (spare : List (Option Engine)) : (s.putGeffe u spare).geffeBuilt = some u := rfl
@[simp] theorem State.putGeffe_geffe3Built (s : State) (u : Geffe) (spare : List (Option Engine)) : (s.putGeffe u spare).geffe3Built = s.geffe3Built := rfl

/-! ### `putGeffe3` -/

@[simp] theorem State.putGeffe3_lfsr (s : State) (u : Geffe3) : (s.putGeffe3 u).lfsr = s.lfsr := rfl
@[simp] theorem State.putGeffe3_a51 (s : State) (u : Geffe3) : (s.putGeffe3 u).a51 = s.a51 := rfl
@[simp] theorem State.putGeffe3_geffe (s : State) (u : Geffe3) : (s.putGeffe3 u).geffe = s.geffe := rfl
@[simp] theorem State.putGeffe3_geffe3 (s : State) (u : Geffe3) : (s.putGeffe3 u).geffe3 = .built u := rfl
@[simp] theorem State.putGeffe3_host (s : State) (u : Geffe3) : (s.putGeffe3 u).host = s.host := rfl
@[simp] theorem State.putGeffe3_response (s : State) (u : Geffe3) : (s.putGeffe3 u).response = s.response := rfl
@[simp] theorem State.putGeffe3_draws (s : State) (u : Geffe3) : (s.putGeffe3 u).draws = s.draws := rfl
@[simp] theorem State.putGeffe3_cfg (s : State) (u : Geffe3) : (s.putGeffe3 u).cfg = s.cfg := rfl

@[simp] theorem State.putGeffe3_a51Built (s : State) (u : Geffe3) : (s.putGeffe3 u).a51Built = s.a51Built := rfl
@[simp] theorem State.putGeffe3_geffeBuilt (s : State) (u : Geffe3) : (s.putGeffe3 u).geffeBuilt = s.geffeBuilt := rfl
@[simp] theorem State.putGeffe3_geffe3Built (s : State) (u : Geffe3) : (s.putGeffe3 u).geffe3Built = some u := rfl

/-! ### `present` -/

@[simp] theorem State.present_lfsr (s : State) (c : Command) : (State.present c s).lfsr = s.lfsr := rfl
@[simp] theorem State.present_a51 (s : State) (c : Command) : (State.present c s).a51 = s.a51 := rfl
@[simp] theorem State.present_geffe (s : State) (c : Command) : (State.present c s).geffe = s.geffe := rfl
@[simp] theorem State.present_geffe3 (s : State) (c : Command) : (State.present c s).geffe3 = s.geffe3 := rfl
@[simp] theorem State.present_host (s : State) (c : Command) : (State.present c s).host = c :: s.host := rfl
@[simp] theorem State.present_response (s : State) (c : Command) : (State.present c s).response = s.response := rfl
@[simp] theorem State.present_draws (s : State) (c : Command) : (State.present c s).draws = s.draws := rfl
@[simp] theorem State.present_cfg (s : State) (c : Command) : (State.present c s).cfg = s.cfg := rfl

@[simp] theorem State.present_engine (s : State) (c : Command) (t : EngineRef) : (State.present c s).engine t = s.engine t := by
  cases t <;> rfl
@[simp] theorem State.present_owned (s : State) (c : Command) (t : EngineRef) : (State.present c s).owned t = s.owned t := by
  cases t <;> rfl
@[simp] theorem State.present_a51Built (s : State) (c : Command) : (State.present c s).a51Built = s.a51Built := rfl
@[simp] theorem State.present_geffeBuilt (s : State) (c : Command) : (State.present c s).geffeBuilt = s.geffeBuilt := rfl
@[simp] theorem State.present_geffe3Built (s : State) (c : Command) : (State.present c s).geffe3Built = s.geffe3Built := rfl
@[simp] theorem State.present_slotsFull (s : State) (c : Command) : (State.present c s).GeffeSlotsFull = s.GeffeSlotsFull := rfl

/-! ### Reading an engine after a composite was written -/

@[simp] theorem State.putA51_engine_lfsr (s : State) (u : A51) : (s.putA51 u).engine .lfsr = s.engine .lfsr := rfl
@[simp] theorem State.putA51_engine_a51 (s : State) (u : A51) (r : Reg3) : (s.putA51 u).engine (.a51 r) = some (u.get r) := rfl
@[simp] theorem State.putA51_engine_geffeS (s : State) (u : A51) : (s.putA51 u).engine .geffeS = s.engine .geffeS := rfl
@[simp] theorem State.putA51_engine_geffeC (s : State) (u : A51) (j : Fin kMax) :
    (s.putA51 u).engine (.geffeC j) = s.engine (.geffeC j) := rfl
@[simp] theorem State.putA51_engine_geffe3 (s : State) (u : A51) (r : Reg3) :
    (s.putA51 u).engine (.geffe3 r) = s.engine (.geffe3 r) := rfl

@[simp] theorem State.putGeffe_engine_lfsr (s : State) (u : Geffe) (spare : List (Option Engine)) :
    (s.putGeffe u spare).engine .lfsr = s.engine .lfsr := rfl
@[simp] theorem State.putGeffe_engine_a51 (s : State) (u : Geffe) (spare : List (Option Engine)) (r : Reg3) :
    (s.putGeffe u spare).engine (.a51 r) = s.engine (.a51 r) := rfl
@[simp] theorem State.putGeffe_engine_geffeS (s : State) (u : Geffe) (spare : List (Option Engine)) :
    (s.putGeffe u spare).engine .geffeS = some u.s := rfl
@[simp] theorem State.putGeffe_engine_geffeC (s : State) (u : Geffe) (spare : List (Option Engine)) (j : Fin kMax) :
    (s.putGeffe u spare).engine (.geffeC j) = (geffeSlots u spare).getD j.val none := rfl
@[simp] theorem State.putGeffe_engine_geffe3 (s : State) (u : Geffe) (spare : List (Option Engine)) (r : Reg3) :
    (s.putGeffe u spare).engine (.geffe3 r) = s.engine (.geffe3 r) := rfl
@[simp] theorem State.putGeffe_slotsFull (s : State) (u : Geffe) (spare : List (Option Engine)) :
    (s.putGeffe u spare).GeffeSlotsFull = ((geffeSlots u spare).length = kMax) := rfl

@[simp] theorem State.putGeffe3_engine_lfsr (s : State) (u : Geffe3) : (s.putGeffe3 u).engine .lfsr = s.engine .lfsr := rfl
@[simp] theorem State.putGeffe3_engine_a51 (s : State) (u : Geffe3) (r : Reg3) :
    (s.putGeffe3 u).engine (.a51 r) = s.engine (.a51 r) := rfl
@[simp] theorem State.putGeffe3_engine_geffeS (s : State) (u : Geffe3) :
    (s.putGeffe3 u).engine .geffeS = s.engine .geffeS := rfl
@[simp] theorem State.putGeffe3_engine_geffeC (s : State) (u : Geffe3) (j : Fin kMax) :
    (s.putGeffe3 u).engine (.geffeC j) = s.engine (.geffeC j) := rfl
@[simp] theorem State.putGeffe3_engine_geffe3 (s : State) (u : Geffe3) (r : Reg3) :
    (s.putGeffe3 u).engine (.geffe3 r) = some (u.get r) := rfl
@[simp] theorem State.putA51_slotsFull (s : State) (u : A51) : (s.putA51 u).GeffeSlotsFull = s.GeffeSlotsFull := rfl
@[simp] theorem State.putGeffe3_slotsFull (s : State) (u : Geffe3) : (s.putGeffe3 u).GeffeSlotsFull = s.GeffeSlotsFull := rfl

/-! ### `putEngine` -/

@[simp] theorem State.putEngine_host (s : State) (t : EngineRef) (e : Engine) : (s.putEngine t e).host = s.host := by
  cases t <;> simp only [State.putEngine] <;> (try split) <;> rfl
@[simp] theorem State.putEngine_response (s : State) (t : EngineRef) (e : Engine) : (s.putEngine t e).response = s.response := by
  cases t <;> simp only [State.putEngine] <;> (try split) <;> rfl
@[simp] theorem State.putEngine_draws (s : State) (t : EngineRef) (e : Engine) : (s.putEngine t e).draws = s.draws := by
  cases t <;> simp only [State.putEngine] <;> (try split) <;> rfl
@[simp] theorem State.putEngine_cfg (s : State) (t : EngineRef) (e : Engine) : (s.putEngine t e).cfg = s.cfg := by
  cases t <;> simp only [State.putEngine] <;> (try split) <;> rfl
@[simp] theorem State.putEngine_a51Built (s : State) (t : EngineRef) (e : Engine) : (s.putEngine t e).a51Built = s.a51Built := by
  cases t <;> simp only [State.putEngine] <;> (try split) <;> simp [State.a51Built, *]
@[simp] theorem State.putEngine_geffeBuilt (s : State) (t : EngineRef) (e : Engine) : (s.putEngine t e).geffeBuilt = s.geffeBuilt := by
  cases t <;> simp only [State.putEngine] <;> (try split) <;> simp [State.geffeBuilt, *]
@[simp] theorem State.putEngine_geffe3Built (s : State) (t : EngineRef) (e : Engine) : (s.putEngine t e).geffe3Built = s.geffe3Built := by
  cases t <;> simp only [State.putEngine] <;> (try split) <;> simp [State.geffe3Built, *]

theorem Slots3.get_put_self (slots : Slots3) (r : Reg3) (e : Engine) : (slots.put r e).get r = some e := by
  cases r <;> rfl

theorem Slots3.get_put_ne (slots : Slots3) (r r' : Reg3) (e : Engine) (h : r' ≠ r) :
    (slots.put r e).get r' = slots.get r' := by
  cases r <;> cases r' <;> first | rfl | exact absurd rfl h

/-- An engine written to a slot that is not owned is read back. -/
theorem State.engine_putEngine_self (s : State) (t : EngineRef) (e : Engine) (h : s.owned t = false) :
    (s.putEngine t e).engine t = some e := by
  cases t <;> simp only [State.putEngine, State.owned] at * <;> (try split at h) <;>
    simp_all [State.engine, Slots3.get_put_self]

/-- Writing an engine leaves every other engine as it was. -/
theorem State.engine_putEngine_ne (s : State) (t t' : EngineRef) (e : Engine) (h : t' ≠ t) :
    (s.putEngine t e).engine t' = s.engine t' := by
  cases t <;> cases t' <;> simp only [State.putEngine] <;> (try split) <;>
    simp_all [State.engine, Slots3.get_put_ne, Fin.ext_iff, eq_comm]

/-- Writing an engine neither builds nor unbuilds a composite. -/
@[simp] theorem State.owned_putEngine (s : State) (t t' : EngineRef) (e : Engine) :
    (s.putEngine t e).owned t' = s.owned t' := by
  cases t <;> cases t' <;> simp only [State.putEngine] <;> (try split) <;> simp_all [State.owned]

@[simp] theorem State.slotsFull_putEngine (s : State) (t : EngineRef) (e : Engine) :
    (s.putEngine t e).GeffeSlotsFull = s.GeffeSlotsFull := by
  cases t <;> simp only [State.putEngine] <;> (try split) <;> simp_all [State.GeffeSlotsFull]

/-- The second of two writes to one slot stands. -/
theorem State.putEngine_putEngine (s : State) (t : EngineRef) (e e' : Engine) :
    (s.putEngine t e).putEngine t e' = s.putEngine t e' := by
  obtain ⟨l, a, g, g3, h, r, d, c⟩ := s
  cases t with
  | lfsr => rfl
  | a51 q => cases a <;> cases q <;> rfl
  | geffeS => cases g <;> rfl
  | geffeC j => cases g <;> simp [State.putEngine]
  | geffe3 q => cases g3 <;> cases q <;> rfl

theorem State.putEngine_respond (s : State) (t : EngineRef) (e : Engine) (r : Response) :
    (s.respond r).putEngine t e = (s.putEngine t e).respond r := by
  obtain ⟨l, a, g, g3, h, r, d, c⟩ := s
  cases t with
  | lfsr => rfl
  | a51 q => cases a <;> rfl
  | geffeS => cases g <;> rfl
  | geffeC j => cases g <;> rfl
  | geffe3 q => cases g3 <;> rfl

/-- Writing an engine back as it stands changes nothing. -/
theorem State.putEngine_self (s : State) (t : EngineRef) (e : Engine) (h : s.engine t = some e) : s.putEngine t e = s := by
  obtain ⟨l, a, g, g3, hs, r, d, c⟩ := s
  cases t with
  | lfsr => simp_all [State.putEngine, State.engine]
  | a51 q =>
    cases a with
    | built u => rfl
    | staging sl => obtain ⟨x, y, z⟩ := sl; cases q <;> simp_all [State.putEngine, State.engine, Slots3.put, Slots3.get]
  | geffeS => cases g <;> simp_all [State.putEngine, State.engine]
  | geffeC j =>
    cases g with
    | built u spare => rfl
    | staging sel comps =>
      simp only [State.engine] at h
      simp [State.putEngine, ← h]
  | geffe3 q =>
    cases g3 with
    | built u => rfl
    | staging sl => obtain ⟨x, y, z⟩ := sl; cases q <;> simp_all [State.putEngine, State.engine, Slots3.put, Slots3.get]

@[simp] theorem State.respond_respond (s : State) (r q : Response) : (s.respond r).respond q = s.respond q := rfl

end Sys2Proof.Machine
end

