-- ==== Sys2Proof/Laws/Outcomes.lean ====
section
/-!
SUPPORT. What the shared operations and the commands can do, each said once: a proof about a next state cites these lemmas and
unfolds no meaning.
-/

namespace Sys2Proof.Machine

/-! ### Answering -/

theorem fail_eq (e : ErrorName) (s : State) : fail e s = .next { s with response := some (.err e) } := rfl
theorem answer_eq (v : Value) (s : State) : answer v s = .next { s with response := some (.ok v) } := rfl
theorem fail_def (e : ErrorName) (s : State) : fail e s = .next (s.respond (.err e)) := rfl
theorem answer_def (v : Value) (s : State) : answer v s = .next (s.respond (.ok v)) := rfl

/-- Putting a composite back as it stands changes nothing. -/
theorem State.putA51_self {s : State} {u : A51} (h : s.a51 = .built u) : s.putA51 u = s := by
  cases s; simp_all [State.putA51]
theorem State.putGeffe_self {s : State} {u : Geffe} {spare : List (Option Engine)} (h : s.geffe = .built u spare) :
    s.putGeffe u spare = s := by
  cases s; simp_all [State.putGeffe]
theorem State.putGeffe3_self {s : State} {u : Geffe3} (h : s.geffe3 = .built u) : s.putGeffe3 u = s := by
  cases s; simp_all [State.putGeffe3]

theorem State.a51Built_eq_some {s : State} {u : A51} : s.a51Built = some u ↔ s.a51 = .built u := by
  unfold State.a51Built; cases s.a51 <;> simp
theorem State.a51Built_eq_none {s : State} : s.a51Built = none ↔ ∃ slots, s.a51 = .staging slots := by
  unfold State.a51Built; cases s.a51 <;> simp
theorem State.geffeBuilt_eq_some {s : State} {u : Geffe} : s.geffeBuilt = some u ↔ ∃ spare, s.geffe = .built u spare := by
  unfold State.geffeBuilt; cases s.geffe <;> simp
theorem State.geffeBuilt_eq_none {s : State} : s.geffeBuilt = none ↔ ∃ sel comps, s.geffe = .staging sel comps := by
  unfold State.geffeBuilt; cases s.geffe <;> simp
theorem State.geffe3Built_eq_some {s : State} {u : Geffe3} : s.geffe3Built = some u ↔ s.geffe3 = .built u := by
  unfold State.geffe3Built; cases s.geffe3 <;> simp
theorem State.geffe3Built_eq_none {s : State} : s.geffe3Built = none ↔ ∃ slots, s.geffe3 = .staging slots := by
  unfold State.geffe3Built; cases s.geffe3 <;> simp

/-! ### Engine commands -/

theorem onEngine_owned {t : EngineRef} {f : Engine → Except ErrorName (Value × Engine)} {s : State}
    (h : s.owned t = true) : onEngine t f s = fail .invalidCommand s := by simp [onEngine, h]

theorem onEngine_none {t : EngineRef} {f : Engine → Except ErrorName (Value × Engine)} {s : State}
    (h : s.owned t = false) (he : s.engine t = none) : onEngine t f s = fail .notConstructed s := by
  simp [onEngine, h, he]

theorem onEngine_error {t : EngineRef} {f : Engine → Except ErrorName (Value × Engine)} {s : State} {e : Engine}
    {x : ErrorName} (h : s.owned t = false) (he : s.engine t = some e) (hf : f e = .error x) :
    onEngine t f s = fail x s := by simp [onEngine, h, he, hf]

theorem onEngine_ok {t : EngineRef} {f : Engine → Except ErrorName (Value × Engine)} {s : State} {e e' : Engine}
    {v : Value} (h : s.owned t = false) (he : s.engine t = some e) (hf : f e = .ok (v, e')) :
    onEngine t f s = answer v (s.putEngine t e') := by simp [onEngine, h, he, hf]

/-- Everything a command that writes an engine can do. -/
theorem onEngine_cases {t : EngineRef} {f : Engine → Except ErrorName (Value × Engine)} {s s' : State}
    (h : onEngine t f s = .next s') :
    (∃ x, s' = s.respond (.err x)) ∨
    ∃ e v e', s.owned t = false ∧ s.engine t = some e ∧ f e = .ok (v, e') ∧ s' = (s.putEngine t e').respond (.ok v) := by
  unfold onEngine at h
  split at h
  · exact .inl ⟨_, by simpa [fail_def, eq_comm] using h⟩
  · split at h
    · exact .inl ⟨_, by simpa [fail_def, eq_comm] using h⟩
    · split at h
      · exact .inl ⟨_, by simpa [fail_def, eq_comm] using h⟩
      · exact .inr ⟨_, _, _, by simp_all, ‹_›, ‹_›, by simpa [answer_def, eq_comm] using h⟩

theorem readEngine_none {t : EngineRef} {f : Engine → Value} {s : State} (he : s.engine t = none) :
    readEngine t f s = fail .notConstructed s := by simp [readEngine, he]

theorem readEngine_some {t : EngineRef} {f : Engine → Value} {s : State} {e : Engine} (he : s.engine t = some e) :
    readEngine t f s = answer (f e) s := by simp [readEngine, he]

/-- Everything a read accessor can do. -/
theorem readEngine_cases {t : EngineRef} {f : Engine → Value} {s s' : State} (h : readEngine t f s = .next s') :
    (s.engine t = none ∧ s' = s.respond (.err .notConstructed)) ∨
    ∃ e, s.engine t = some e ∧ s' = s.respond (.ok (f e)) := by
  unfold readEngine at h
  split at h
  · exact .inl ⟨‹_›, by simpa [fail_def, eq_comm] using h⟩
  · exact .inr ⟨_, ‹_›, by simpa [answer_def, eq_comm] using h⟩

/-! ### Composite commands -/

theorem onA51_staging {f : A51 → Value × A51} {s : State} {slots : Slots3} (h : s.a51 = .staging slots) :
    onA51 f s = fail .notConstructed s := by simp [onA51, h]
theorem onA51_built {f : A51 → Value × A51} {s : State} {u : A51} (h : s.a51 = .built u) :
    onA51 f s = answer (f u).1 (s.putA51 (f u).2) := by simp [onA51, h]

theorem onGeffe_staging {f : Geffe → Value × Geffe} {s : State} {sel : Option Engine}
    {comps : Vector (Option Engine) kMax} (h : s.geffe = .staging sel comps) : onGeffe f s = fail .notConstructed s := by
  simp [onGeffe, h]
theorem onGeffe_built {f : Geffe → Value × Geffe} {s : State} {u : Geffe} {spare : List (Option Engine)}
    (h : s.geffe = .built u spare) : onGeffe f s = answer (f u).1 (s.putGeffe (f u).2 spare) := by simp [onGeffe, h]

theorem onGeffe3_staging {f : Geffe3 → Value × Geffe3} {s : State} {slots : Slots3} (h : s.geffe3 = .staging slots) :
    onGeffe3 f s = fail .notConstructed s := by simp [onGeffe3, h]
theorem onGeffe3_built {f : Geffe3 → Value × Geffe3} {s : State} {u : Geffe3} (h : s.geffe3 = .built u) :
    onGeffe3 f s = answer (f u).1 (s.putGeffe3 (f u).2) := by simp [onGeffe3, h]

/-- Everything a command of the A5/1 unit other than its build can do. -/
theorem onA51_cases {f : A51 → Value × A51} {s s' : State} (h : onA51 f s = .next s') :
    (s.a51Built = none ∧ s' = s.respond (.err .notConstructed)) ∨
    ∃ u, s.a51 = .built u ∧ s' = (s.putA51 (f u).2).respond (.ok (f u).1) := by
  cases hs : s.a51 with
  | staging _ => rw [onA51_staging hs] at h; cases h; exact .inl ⟨State.a51Built_eq_none.2 ⟨_, hs⟩, rfl⟩
  | built u => rw [onA51_built hs] at h; cases h; exact .inr ⟨u, rfl, rfl⟩

/-- Everything a command of the Geffe unit other than its build can do. -/
theorem onGeffe_cases {f : Geffe → Value × Geffe} {s s' : State} (h : onGeffe f s = .next s') :
    (s.geffeBuilt = none ∧ s' = s.respond (.err .notConstructed)) ∨
    ∃ u spare, s.geffe = .built u spare ∧ s' = (s.putGeffe (f u).2 spare).respond (.ok (f u).1) := by
  cases hs : s.geffe with
  | staging _ _ => rw [onGeffe_staging hs] at h; cases h; exact .inl ⟨State.geffeBuilt_eq_none.2 ⟨_, _, hs⟩, rfl⟩
  | built u spare => rw [onGeffe_built hs] at h; cases h; exact .inr ⟨u, spare, rfl, rfl⟩

/-- Everything a command of the Geffe3 unit other than its build can do. -/
theorem onGeffe3_cases {f : Geffe3 → Value × Geffe3} {s s' : State} (h : onGeffe3 f s = .next s') :
    (s.geffe3Built = none ∧ s' = s.respond (.err .notConstructed)) ∨
    ∃ u, s.geffe3 = .built u ∧ s' = (s.putGeffe3 (f u).2).respond (.ok (f u).1) := by
  cases hs : s.geffe3 with
  | staging _ => rw [onGeffe3_staging hs] at h; cases h; exact .inl ⟨State.geffe3Built_eq_none.2 ⟨_, hs⟩, rfl⟩
  | built u => rw [onGeffe3_built hs] at h; cases h; exact .inr ⟨u, rfl, rfl⟩

/-! ### The checks -/

theorem ite_eq_ok {α : Type} {p : Prop} [Decidable p] {a b : α} {x : ErrorName} :
    (if p then Except.ok a else Except.error x) = Except.ok b ↔ p ∧ b = a := by
  by_cases h : p <;> simp [h, eq_comm]
theorem ite_eq_error {α : Type} {p : Prop} [Decidable p] {a : α} {x y : ErrorName} :
    (if p then Except.ok a else Except.error x) = Except.error y ↔ ¬p ∧ y = x := by
  by_cases h : p <;> simp [h, eq_comm]

theorem checkPoly_ok {taps : List Int} : checkPoly taps = .ok () ↔ PolyValid taps :=
  ite_eq_ok.trans (and_iff_left rfl)
theorem checkPoly_error {taps : List Int} {x : ErrorName} :
    checkPoly taps = .error x ↔ ¬PolyValid taps ∧ x = .invalidPolynomial := ite_eq_error
theorem checkState_ok {s : Bits} : checkState s = .ok () ↔ true ∈ s := ite_eq_ok.trans (and_iff_left rfl)
theorem checkState_error {s : Bits} {x : ErrorName} : checkState s = .error x ↔ true ∉ s ∧ x = .invalidState :=
  ite_eq_error
theorem checkLength_ok {s : Bits} {d : Nat} {g : Bool} :
    checkLength s d g = .ok () ↔ d ≤ s.length ∧ (g = true → s.length = d) := by
  unfold checkLength
  by_cases h : s.length < d
  · simp [h, Nat.not_le.2 h]
  · by_cases h2 : s.length = d <;> cases g <;> simp_all
theorem checkLength_error {s : Bits} {d : Nat} {g : Bool} {x : ErrorName} :
    checkLength s d g = .error x ↔ (s.length < d ∨ g = true ∧ s.length ≠ d) ∧ x = .invalidState := by
  unfold checkLength
  by_cases h : s.length < d
  · simp [h, eq_comm]
  · by_cases h2 : s.length = d <;> cases g <;> simp [h, h2, eq_comm]
theorem checkOidx_ok {i : Int} {m : Nat} : checkOidx i m = .ok () ↔ OidxInRange i m :=
  ite_eq_ok.trans (and_iff_left rfl)
theorem checkOidx_error {i : Int} {m : Nat} {x : ErrorName} :
    checkOidx i m = .error x ↔ ¬OidxInRange i m ∧ x = .invalidOutputIndex := ite_eq_error

/-! ### What a command makes of an engine -/

theorem stepEngine_ok {e e' : Engine} {v : Value} :
    stepEngine e = .ok (v, e') ↔ e.Consistent ∧ v = .bit e.emit ∧ e' = e.advance := by
  rw [stepEngine, ite_eq_ok, Prod.mk.injEq]

theorem runEngine_ok {k : Nat} {e e' : Engine} {v : Value} :
    runEngine k e = .ok (v, e') ↔ e.Consistent ∧ v = .bits (e.outputs k) ∧ e' = e.after k := by
  rw [runEngine, ite_eq_ok, Prod.mk.injEq]

theorem setPoly_ok {taps : List Int} {r f : Bool} {e e' : Engine} {v : Value} :
    setPoly taps r f e = .ok (v, e') ↔ PolyValid taps ∧ (f = true ∨ maxTapOperand taps = e.len) ∧ v = .nothing ∧
      e' = if r then Engine.reset { e with taps := storedTaps taps } else { e with taps := storedTaps taps } := by
  unfold setPoly
  cases hp : checkPoly taps with
  | error x => simp [(checkPoly_error.1 hp).1]
  | ok _ =>
    have := checkPoly_ok.1 hp
    cases f <;> by_cases hc : maxTapOperand taps = e.len <;> simp [*, eq_comm]

theorem setState_ok {b : Bits} {f : Bool} {e e' : Engine} {v : Value} :
    setState b f e = .ok (v, e') ↔ true ∈ b ∧ (f = true ∨ b.length = e.len) ∧ maxTap e.taps ≤ b.length ∧
      (e.conf = .gal → b.length = maxTap e.taps) ∧ OidxInRange e.oidx b.length ∧ v = .nothing ∧
      e' = { e with state := b } := by
  unfold setState
  cases hp : checkState b with
  | error x => simp [(checkState_error.1 hp).1]
  | ok _ =>
    have hb := checkState_ok.1 hp
    by_cases hc : f = false ∧ b.length ≠ e.len
    · simp [hc]
    · simp only [hc, if_false]
      have hc' : f = true ∨ b.length = e.len := by cases f <;> simp_all
      cases hl : checkLength b (maxTap e.taps) (e.conf = .gal) with
      | error x =>
        have := (checkLength_error.1 hl).1
        simp only [decide_eq_true_eq] at this
        simp only [reduceCtorEq, false_iff]
        rintro ⟨_, _, h2, h3, _⟩
        rcases this with h | ⟨h, h'⟩
        · omega
        · exact h' (h3 h)
      | ok _ =>
        have := checkLength_ok.1 hl
        simp only [decide_eq_true_eq] at this
        cases ho : checkOidx e.oidx b.length with
        | error x => simp only [reduceCtorEq, false_iff]; exact fun h => (checkOidx_error.1 ho).1 h.2.2.2.2.1
        | ok _ =>
          have h3 := checkOidx_ok.1 ho
          simp only [Except.ok.injEq, Prod.mk.injEq]
          exact ⟨fun h => ⟨hb, hc', this.1, this.2, h3, h.1.symm, h.2.symm⟩,
            fun h => ⟨h.2.2.2.2.2.1.symm, h.2.2.2.2.2.2.symm⟩⟩

theorem setConf_ok {c : ConfTag} {e e' : Engine} {v : Value} :
    setConf c e = .ok (v, e') ↔ v = .nothing ∧ (c = .fibonacci ∧ e' = { e with conf := .fib } ∨
      c = .galois ∧ e.len = maxTap e.taps ∧ e' = { e with conf := .gal }) := by
  cases c <;> by_cases h : e.len = maxTap e.taps <;> simp [setConf, checkConf, confOf, h, eq_comm]

theorem setOidx_ok {i : Int} {e e' : Engine} {v : Value} :
    setOidx i e = .ok (v, e') ↔ OidxInRange i e.len ∧ v = .nothing ∧ e' = { e with oidx := i } := by
  unfold setOidx
  cases h : checkOidx i e.len with
  | error x => simp only [reduceCtorEq, false_iff]; exact fun hh => (checkOidx_error.1 h).1 hh.1
  | ok _ =>
    have := checkOidx_ok.1 h
    simp only [Except.ok.injEq, Prod.mk.injEq]
    exact ⟨fun h => ⟨this, h.1.symm, h.2.symm⟩, fun h => ⟨h.2.1.symm, h.2.2.symm⟩⟩

theorem construct_ok {taps : List Int} {init : InitSpec} {c : ConfTag} {i : Int} {p : Policy} {u : UnitName} {n : Nat}
    {e : Engine} :
    construct taps init c i p u n = .ok e ↔ PolyValid taps ∧ true ∈ resolve init (maxTapOperand taps) u n ∧
      maxTapOperand taps ≤ (resolve init (maxTapOperand taps) u n).length ∧
      (c = .galois → (resolve init (maxTapOperand taps) u n).length = maxTapOperand taps) ∧
      OidxInRange i (resolve init (maxTapOperand taps) u n).length ∧
      ∃ d, confOf c = some d ∧ e = .fresh (resolve init (maxTapOperand taps) u n) (storedTaps taps) d i p := by
  unfold construct
  dsimp only
  generalize resolve init (maxTapOperand taps) u n = b
  cases hp : checkPoly taps with
  | error x => simp [(checkPoly_error.1 hp).1]
  | ok _ =>
    have h0 := checkPoly_ok.1 hp
    cases hs : checkState b with
    | error x => simp [(checkState_error.1 hs).1]
    | ok _ =>
      have h1 := checkState_ok.1 hs
      cases hl : checkLength b (maxTapOperand taps) (c = .galois) with
      | error x =>
        have := (checkLength_error.1 hl).1
        simp only [decide_eq_true_eq] at this
        simp only [reduceCtorEq, false_iff]
        rintro ⟨_, _, h2, h3, _⟩
        rcases this with h | ⟨h, h'⟩
        · omega
        · exact h' (h3 h)
      | ok _ =>
        have h2 := checkLength_ok.1 hl
        simp only [decide_eq_true_eq] at h2
        cases hc : confOf c with
        | none => simp [checkConf, hc]
        | some d =>
          simp only [checkConf, hc]
          cases ho : checkOidx i b.length with
          | error x => simp only [reduceCtorEq, false_iff]; exact fun h => (checkOidx_error.1 ho).1 h.2.2.2.2.1
          | ok _ =>
            have h3 := checkOidx_ok.1 ho
            simp only [Except.ok.injEq]
            constructor
            · intro h; exact ⟨h0, h1, h2.1, h2.2, h3, d, rfl, h.symm⟩
            · rintro ⟨_, _, _, _, _, d', hd, rfl⟩; cases hd; rfl

/-! ### `E_NEW` -/

theorem execENew_owned {t : EngineRef} {p : List Int} {n : InitSpec} {c : ConfTag} {o : Int} {q : Policy} {s : State}
    (h : s.owned t = true) : execENew t p n c o q s = fail .invalidCommand s := by simp [execENew, h]
theorem execENew_error {t : EngineRef} {p : List Int} {n : InitSpec} {c : ConfTag} {o : Int} {q : Policy} {s : State}
    {x : ErrorName} (h : s.owned t = false) (hc : construct p n c o q (unitOfRef t) (s.draws.get (unitOfRef t)) = .error x) :
    execENew t p n c o q s = fail x (s.takeDraws (unitOfRef t) (drawsOfNew p n)) := by simp [execENew, h, hc]
theorem execENew_ok {t : EngineRef} {p : List Int} {n : InitSpec} {c : ConfTag} {o : Int} {q : Policy} {s : State}
    {e : Engine} (h : s.owned t = false) (hc : construct p n c o q (unitOfRef t) (s.draws.get (unitOfRef t)) = .ok e) :
    execENew t p n c o q s = answer .nothing ((s.takeDraws (unitOfRef t) (drawsOfNew p n)).putEngine t e) := by
  simp [execENew, h, hc]

/-! ### What a command that wrote one engine left alone -/

theorem engineChanged_put {s : State} {t : EngineRef} {e : Engine} {r : Response} (h : s.owned t = false) :
    EngineChanged t e s ((s.putEngine t e).respond r) :=
  ⟨by simp [State.engine_putEngine_self _ _ _ h], fun t' ht => by simp [State.engine_putEngine_ne _ _ _ _ ht], by simp,
    by simp, by simp⟩

theorem sameRest_put {s : State} {t : EngineRef} {e : Engine} {r : Response} :
    SameRest s ((s.putEngine t e).respond r) := ⟨by simp, by simp, by simp⟩

end Sys2Proof.Machine
end

