-- ==== Sys2Proof/Laws/Exec.lean ====
section
/-!
SUPPORT. Everything a command can do, said once (`exec_cases`), and the runs of the composites as iterations of a cycle.
-/

namespace Sys2Proof.Machine

/-! ### Each command as its shared operation -/

theorem exec_eStep (t : EngineRef) (s : State) :
    exec (.eStep t) s = onEngine t stepEngine s := rfl
theorem exec_eRun (t : EngineRef) (k : Nat) (s : State) :
    exec (.eRun t k) s = onEngine t (runEngine k) s := rfl
theorem exec_eRunFull (t : EngineRef) (s : State) :
    exec (.eRunFull t) s = onEngine t (fun e => runEngine e.period e) s := rfl
theorem exec_eReset (t : EngineRef) (s : State) :
    exec (.eReset t) s = onEngine t (fun e => .ok (.nothing, e.reset)) s := rfl
theorem exec_eSetPoly (t : EngineRef) (taps : List Int) (reset enforce : Bool) (s : State) :
    exec (.eSetPoly t taps reset enforce) s = onEngine t (setPoly taps reset enforce) s := rfl
theorem exec_eSetState (t : EngineRef) (v : Bits) (enforce : Bool) (s : State) :
    exec (.eSetState t v enforce) s = onEngine t (setState v enforce) s := rfl
theorem exec_eSetConf (t : EngineRef) (conf : ConfTag) (s : State) :
    exec (.eSetConf t conf) s = onEngine t (setConf conf) s := rfl
theorem exec_eSetOidx (t : EngineRef) (i : Int) (s : State) :
    exec (.eSetOidx t i) s = onEngine t (setOidx i) s := rfl
theorem exec_eGetState (t : EngineRef) (s : State) :
    exec (.eGetState t) s = readEngine t (fun e => .bits e.state) s := rfl
theorem exec_eGetPoly (t : EngineRef) (s : State) :
    exec (.eGetPoly t) s = readEngine t (fun e => .taps e.taps) s := rfl
theorem exec_eGetSeq (t : EngineRef) (s : State) :
    exec (.eGetSeq t) s = readEngine t (fun e => .bits e.seq) s := rfl
theorem exec_eGetCount (t : EngineRef) (s : State) :
    exec (.eGetCount t) s = readEngine t (fun e => .nat e.count) s := rfl
theorem exec_eGetPeriod (t : EngineRef) (s : State) :
    exec (.eGetPeriod t) s = readEngine t (fun e => .nat e.period) s := rfl
theorem exec_eGetOutbit (t : EngineRef) (s : State) :
    exec (.eGetOutbit t) s = readEngine t (fun e => .optBit e.outbit) s := rfl
theorem exec_eGetFb (t : EngineRef) (s : State) :
    exec (.eGetFb t) s = readEngine t (fun e => .optBit e.fb) s := rfl
theorem exec_a51Step (s : State) :
    exec (.a51Step) s = onA51 (fun u => (.bit u.emit, u.advance)) s := rfl
theorem exec_a51Run (k : Nat) (s : State) :
    exec (.a51Run k) s = onA51 (fun u => (.bits (u.outputs k), u.after k)) s := rfl
theorem exec_a51Reset (s : State) :
    exec (.a51Reset) s = onA51 (fun u => (.nothing, u.reset)) s := rfl
theorem exec_a51GetSeq (s : State) :
    exec (.a51GetSeq) s = onA51 (fun u => (.bits u.seq, u)) s := rfl
theorem exec_a51GetCount (s : State) :
    exec (.a51GetCount) s = onA51 (fun u => (.nat u.count, u)) s := rfl
theorem exec_a51GetOutbit (s : State) :
    exec (.a51GetOutbit) s = onA51 (fun u => (.optBit u.outbit, u)) s := rfl
theorem exec_a51GetCb (s : State) :
    exec (.a51GetCb) s = onA51 (fun u => (.optTriple u.cb, u)) s := rfl
theorem exec_geffeStep (s : State) :
    exec (.geffeStep) s = onGeffe (fun u =>
      (.bit (u.emit s.cfg.geffeSelMsbFirst), u.advance s.cfg.geffeSelMsbFirst)) s := rfl
theorem exec_geffeRun (k : Nat) (s : State) :
    exec (.geffeRun k) s = onGeffe (fun u =>
      (.bits (u.outputs s.cfg.geffeSelMsbFirst k), u.after s.cfg.geffeSelMsbFirst k)) s := rfl
theorem exec_geffeReset (s : State) :
    exec (.geffeReset) s = onGeffe (fun u => (.nothing, u.reset)) s := rfl
theorem exec_geffeGetSeq (s : State) :
    exec (.geffeGetSeq) s = onGeffe (fun u => (.bits u.seq, u)) s := rfl
theorem exec_geffeGetCount (s : State) :
    exec (.geffeGetCount) s = onGeffe (fun u => (.nat u.count, u)) s := rfl
theorem exec_geffeGetOutbit (s : State) :
    exec (.geffeGetOutbit) s = onGeffe (fun u => (.optBit u.outbit, u)) s := rfl
theorem exec_geffeGetSel (s : State) :
    exec (.geffeGetSel) s = onGeffe (fun u => (.optNat u.sel, u)) s := rfl
theorem exec_geffe3Step (s : State) :
    exec (.geffe3Step) s = onGeffe3 (fun u =>
      (.bit (u.emit s.cfg.geffe3Combiner), u.advance s.cfg.geffe3Combiner)) s := rfl
theorem exec_geffe3Run (k : Nat) (s : State) :
    exec (.geffe3Run k) s = onGeffe3 (fun u =>
      (.bits (u.outputs s.cfg.geffe3Combiner k), u.after s.cfg.geffe3Combiner k)) s := rfl
theorem exec_geffe3Reset (s : State) :
    exec (.geffe3Reset) s = onGeffe3 (fun u => (.nothing, u.reset)) s := rfl
theorem exec_geffe3GetSeq (s : State) :
    exec (.geffe3GetSeq) s = onGeffe3 (fun u => (.bits u.seq, u)) s := rfl
theorem exec_geffe3GetCount (s : State) :
    exec (.geffe3GetCount) s = onGeffe3 (fun u => (.nat u.count, u)) s := rfl
theorem exec_geffe3GetOutbit (s : State) :
    exec (.geffe3GetOutbit) s = onGeffe3 (fun u => (.optBit u.outbit, u)) s := rfl

theorem execA51Build_built {s : State} {u : A51} (h : s.a51 = .built u) : execA51Build s = fail .invalidCommand s := by
  simp [execA51Build, h]
theorem execA51Build_error {s : State} {slots : Slots3} {x : ErrorName} (h : s.a51 = .staging slots)
    (hb : buildA51 s.cfg slots = .error x) : execA51Build s = fail x s := by simp [execA51Build, h, hb]
theorem execA51Build_ok {s : State} {slots : Slots3} {u : A51} (h : s.a51 = .staging slots)
    (hb : buildA51 s.cfg slots = .ok u) : execA51Build s = answer .nothing (s.putA51 u) := by simp [execA51Build, h, hb]
theorem execGeffeBuild_built {s : State} {u : Geffe} {spare : List (Option Engine)} {k : Nat} (h : s.geffe = .built u spare) :
    execGeffeBuild k s = fail .invalidCommand s := by simp [execGeffeBuild, h]
theorem execGeffeBuild_error {s : State} {sel : Option Engine} {comps : Vector (Option Engine) kMax} {k : Nat}
    {x : ErrorName} (h : s.geffe = .staging sel comps) (hb : buildGeffe k sel comps.toList = .error x) :
    execGeffeBuild k s = fail x s := by simp only [execGeffeBuild, h, hb]
theorem execGeffeBuild_ok {s : State} {sel : Option Engine} {comps : Vector (Option Engine) kMax} {k : Nat} {u : Geffe}
    (h : s.geffe = .staging sel comps) (hb : buildGeffe k sel comps.toList = .ok u) :
    execGeffeBuild k s = answer .nothing (s.putGeffe u (comps.toList.drop k)) := by simp only [execGeffeBuild, h, hb]
theorem execGeffe3Build_built {s : State} {u : Geffe3} (h : s.geffe3 = .built u) :
    execGeffe3Build s = fail .invalidCommand s := by simp [execGeffe3Build, h]
theorem execGeffe3Build_error {s : State} {slots : Slots3} {x : ErrorName} (h : s.geffe3 = .staging slots)
    (hb : buildGeffe3 slots = .error x) : execGeffe3Build s = fail x s := by simp [execGeffe3Build, h, hb]
theorem execGeffe3Build_ok {s : State} {slots : Slots3} {u : Geffe3} (h : s.geffe3 = .staging slots)
    (hb : buildGeffe3 slots = .ok u) : execGeffe3Build s = answer .nothing (s.putGeffe3 u) := by
  simp [execGeffe3Build, h, hb]

/-! ### The cycles of a composite -/

@[simp] theorem A51.advance_count (u : A51) : u.advance.count = u.count + 1 := rfl
@[simp] theorem A51.advance_outbit (u : A51) : u.advance.outbit = some u.emit := rfl
@[simp] theorem A51.advance_seq (u : A51) : u.advance.seq = u.seq ++ [u.emit] := rfl
theorem A51.after_succ (k : Nat) (u : A51) : u.after (k + 1) = u.advance.after k := rfl
theorem A51.outputs_succ (k : Nat) (u : A51) : u.outputs (k + 1) = u.emit :: u.advance.outputs k := rfl
@[simp] theorem A51.outputs_length (k : Nat) (u : A51) : (u.outputs k).length = k := by
  induction k generalizing u with
  | zero => rfl
  | succ k ih => simp [A51.outputs_succ, ih]
@[simp] theorem A51.after_count (k : Nat) (u : A51) : (u.after k).count = u.count + k := by
  induction k generalizing u with
  | zero => rfl
  | succ k ih => rw [A51.after_succ, ih, A51.advance_count]; omega
@[simp] theorem A51.after_seq (k : Nat) (u : A51) : (u.after k).seq = u.seq ++ u.outputs k := by
  induction k generalizing u with
  | zero => simp [A51.after, A51.outputs]
  | succ k ih => rw [A51.after_succ, ih, A51.advance_seq, A51.outputs_succ]; simp
/-- What every cycle keeps, a run keeps. -/
theorem A51.after_induction {P : A51 → Prop} (hP : ∀ u, P u → P u.advance) (k : Nat) {u : A51} (hu : P u) :
    P (u.after k) := by
  induction k generalizing u with
  | zero => exact hu
  | succ k ih => exact ih (hP u hu)

@[simp] theorem Geffe.advance_count (m : Bool) (u : Geffe) : (u.advance m).count = u.count + 1 := rfl
@[simp] theorem Geffe.advance_outbit (m : Bool) (u : Geffe) : (u.advance m).outbit = some (u.emit m) := rfl
@[simp] theorem Geffe.advance_seq (m : Bool) (u : Geffe) : (u.advance m).seq = u.seq ++ [u.emit m] := rfl
theorem Geffe.after_succ (m : Bool) (k : Nat) (u : Geffe) : u.after m (k + 1) = (u.advance m).after m k := rfl
theorem Geffe.outputs_succ (m : Bool) (k : Nat) (u : Geffe) : u.outputs m (k + 1) = u.emit m :: (u.advance m).outputs m k := rfl
@[simp] theorem Geffe.outputs_length (m : Bool) (k : Nat) (u : Geffe) : (u.outputs m k).length = k := by
  induction k generalizing u with
  | zero => rfl
  | succ k ih => simp [Geffe.outputs_succ, ih]
@[simp] theorem Geffe.after_count (m : Bool) (k : Nat) (u : Geffe) : (u.after m k).count = u.count + k := by
  induction k generalizing u with
  | zero => rfl
  | succ k ih => rw [Geffe.after_succ, ih, Geffe.advance_count]; omega
@[simp] theorem Geffe.after_seq (m : Bool) (k : Nat) (u : Geffe) : (u.after m k).seq = u.seq ++ u.outputs m k := by
  induction k generalizing u with
  | zero => simp [Geffe.after, Geffe.outputs]
  | succ k ih => rw [Geffe.after_succ, ih, Geffe.advance_seq, Geffe.outputs_succ]; simp
/-- What every cycle keeps, a run keeps. -/
theorem Geffe.after_induction {m : Bool} {P : Geffe → Prop} (hP : ∀ u, P u → P (u.advance m)) (k : Nat) {u : Geffe} (hu : P u) :
    P (u.after m k) := by
  induction k generalizing u with
  | zero => exact hu
  | succ k ih => exact ih (hP u hu)

@[simp] theorem Geffe3.advance_count (c : Combiner) (u : Geffe3) : (u.advance c).count = u.count + 1 := rfl
@[simp] theorem Geffe3.advance_outbit (c : Combiner) (u : Geffe3) : (u.advance c).outbit = some (u.emit c) := rfl
@[simp] theorem Geffe3.advance_seq (c : Combiner) (u : Geffe3) : (u.advance c).seq = u.seq ++ [u.emit c] := rfl
theorem Geffe3.after_succ (c : Combiner) (k : Nat) (u : Geffe3) : u.after c (k + 1) = (u.advance c).after c k := rfl
theorem Geffe3.outputs_succ (c : Combiner) (k : Nat) (u : Geffe3) : u.outputs c (k + 1) = u.emit c :: (u.advance c).outputs c k := rfl
@[simp] theorem Geffe3.outputs_length (c : Combiner) (k : Nat) (u : Geffe3) : (u.outputs c k).length = k := by
  induction k generalizing u with
  | zero => rfl
  | succ k ih => simp [Geffe3.outputs_succ, ih]
@[simp] theorem Geffe3.after_count (c : Combiner) (k : Nat) (u : Geffe3) : (u.after c k).count = u.count + k := by
  induction k generalizing u with
  | zero => rfl
  | succ k ih => rw [Geffe3.after_succ, ih, Geffe3.advance_count]; omega
@[simp] theorem Geffe3.after_seq (c : Combiner) (k : Nat) (u : Geffe3) : (u.after c k).seq = u.seq ++ u.outputs c k := by
  induction k generalizing u with
  | zero => simp [Geffe3.after, Geffe3.outputs]
  | succ k ih => rw [Geffe3.after_succ, ih, Geffe3.advance_seq, Geffe3.outputs_succ]; simp
/-- What every cycle keeps, a run keeps. -/
theorem Geffe3.after_induction {c : Combiner} {P : Geffe3 → Prop} (hP : ∀ u, P u → P (u.advance c)) (k : Nat) {u : Geffe3} (hu : P u) :
    P (u.after c k) := by
  induction k generalizing u with
  | zero => exact hu
  | succ k ih => exact ih (hP u hu)

/-! ### Everything a command can do -/

/-- What one engine command can make of an engine, by which instruction. -/
inductive EngineMove (t : EngineRef) (e : Engine) : Instr → Engine → Prop
  | step : e.Consistent → EngineMove t e (.eStep t) (e.after 1)
  | run (k : Nat) : e.Consistent → EngineMove t e (.eRun t k) (e.after k)
  | full : e.Consistent → EngineMove t e (.eRunFull t) (e.after e.period)
  | reset : EngineMove t e (.eReset t) e.reset
  | poly {taps r f v e'} : setPoly taps r f e = .ok (v, e') → EngineMove t e (.eSetPoly t taps r f) e'
  | state {b f v e'} : setState b f e = .ok (v, e') → EngineMove t e (.eSetState t b f) e'
  | conf {c v e'} : setConf c e = .ok (v, e') → EngineMove t e (.eSetConf t c) e'
  | oidx {i v e'} : setOidx i e = .ok (v, e') → EngineMove t e (.eSetOidx t i) e'

/-- What a command can make of a built A5/1 unit, by which instruction. -/
inductive A51Move (u : A51) : Instr → A51 → Prop
  | step : A51Move u .a51Step u.advance
  | run (k : Nat) : A51Move u (.a51Run k) (u.after k)
  | reset : A51Move u .a51Reset u.reset

/-- What a command can make of a built Geffe unit, by which instruction. -/
inductive GeffeMove (m : Bool) (u : Geffe) : Instr → Geffe → Prop
  | step : GeffeMove m u .geffeStep (u.advance m)
  | run (k : Nat) : GeffeMove m u (.geffeRun k) (u.after m k)
  | reset : GeffeMove m u .geffeReset u.reset

/-- What a command can make of a built Geffe3 unit, by which instruction. -/
inductive Geffe3Move (c : Combiner) (u : Geffe3) : Instr → Geffe3 → Prop
  | step : Geffe3Move c u .geffe3Step (u.advance c)
  | run (k : Nat) : Geffe3Move c u (.geffe3Run k) (u.after c k)
  | reset : Geffe3Move c u .geffe3Reset u.reset

/-- What a command can do: fail, answer a read, construct an engine, move an engine, build a composite or move one. -/
inductive Did (i : Instr) (s : State) : State → Prop
  | failed (x : ErrorName) (n : Nat) : (n = 0 ∨ ∃ t p c o q, i = .eNew t p .random c o q) →
      Did i s ((s.takeDraws (unitOf i) n).respond (.err x))
  | read (v : Value) : Did i s (s.respond (.ok v))
  | new {t p n c o q e} : i = .eNew t p n c o q → s.owned t = false →
      construct p n c o q (unitOfRef t) (s.draws.get (unitOfRef t)) = .ok e →
      Did i s (((s.takeDraws (unitOfRef t) (drawsTaken n)).putEngine t e).respond (.ok .nothing))
  | engine {t e e'} (v : Value) : s.owned t = false → s.engine t = some e → EngineMove t e i e' →
      Did i s ((s.putEngine t e').respond (.ok v))
  | buildA51 {slots u} : i = .a51Build → s.a51 = .staging slots → buildA51 s.cfg slots = .ok u →
      Did i s ((s.putA51 u).respond (.ok .nothing))
  | buildGeffe {k sel comps u} : i = .geffeBuild k → s.geffe = .staging sel comps → buildGeffe k sel comps.toList = .ok u →
      Did i s ((s.putGeffe u (comps.toList.drop k)).respond (.ok .nothing))
  | buildGeffe3 {slots u} : i = .geffe3Build → s.geffe3 = .staging slots → buildGeffe3 slots = .ok u →
      Did i s ((s.putGeffe3 u).respond (.ok .nothing))
  | a51 {u u'} (v : Value) : s.a51 = .built u → A51Move u i u' → Did i s ((s.putA51 u').respond (.ok v))
  | geffe {u spare u'} (v : Value) : s.geffe = .built u spare → GeffeMove s.cfg.geffeSelMsbFirst u i u' →
      Did i s ((s.putGeffe u' spare).respond (.ok v))
  | geffe3 {u u'} (v : Value) : s.geffe3 = .built u → Geffe3Move s.cfg.geffe3Combiner u i u' →
      Did i s ((s.putGeffe3 u').respond (.ok v))

theorem Did.error {i : Instr} {s : State} (x : ErrorName) : Did i s (s.respond (.err x)) := by
  simpa [State.takeDraws] using Did.failed (i := i) (s := s) x 0 (.inl rfl)

theorem Did.onEngine {i : Instr} {t : EngineRef} {f : Engine → Except ErrorName (Value × Engine)} {s s' : State}
    (hf : ∀ e v e', f e = .ok (v, e') → EngineMove t e i e') (h : onEngine t f s = .next s') : Did i s s' := by
  obtain ⟨x, rfl⟩ | ⟨e, v, e', ho, he, hfe, rfl⟩ := onEngine_cases h
  · exact .error x
  · exact .engine v ho he (hf e v e' hfe)

theorem Did.readEngine {i : Instr} {t : EngineRef} {f : Engine → Value} {s s' : State}
    (h : readEngine t f s = .next s') : Did i s s' := by
  obtain ⟨_, rfl⟩ | ⟨e, _, rfl⟩ := readEngine_cases h
  · exact .error _
  · exact .read _

theorem Did.onA51 {i : Instr} {f : A51 → Value × A51} {s s' : State}
    (hf : ∀ u, (f u).2 = u ∨ A51Move u i (f u).2) (h : onA51 f s = .next s') : Did i s s' := by
  obtain ⟨_, rfl⟩ | ⟨u, hu, rfl⟩ := onA51_cases h
  · exact .error _
  · obtain hs | hm := hf u
    · rw [hs, State.putA51_self hu]; exact .read _
    · exact .a51 _ hu hm

theorem Did.onGeffe {i : Instr} {f : Geffe → Value × Geffe} {s s' : State}
    (hf : ∀ u, (f u).2 = u ∨ GeffeMove s.cfg.geffeSelMsbFirst u i (f u).2) (h : onGeffe f s = .next s') : Did i s s' := by
  obtain ⟨_, rfl⟩ | ⟨u, spare, hu, rfl⟩ := onGeffe_cases h
  · exact .error _
  · obtain hs | hm := hf u
    · rw [hs, State.putGeffe_self hu]; exact .read _
    · exact .geffe _ hu hm

theorem Did.onGeffe3 {i : Instr} {f : Geffe3 → Value × Geffe3} {s s' : State}
    (hf : ∀ u, (f u).2 = u ∨ Geffe3Move s.cfg.geffe3Combiner u i (f u).2) (h : onGeffe3 f s = .next s') : Did i s s' := by
  obtain ⟨_, rfl⟩ | ⟨u, hu, rfl⟩ := onGeffe3_cases h
  · exact .error _
  · obtain hs | hm := hf u
    · rw [hs, State.putGeffe3_self hu]; exact .read _
    · exact .geffe3 _ hu hm

theorem drawsOfNew_valid {taps : List Int} {n : InitSpec} (h : PolyValid taps) : drawsOfNew taps n = drawsTaken n := by
  rw [drawsOfNew, checkPoly_ok.2 h]

theorem drawsOfNew_eq (taps : List Int) (n : InitSpec) : drawsOfNew taps n = 0 ∨ n = .random := by
  unfold drawsOfNew; split
  · cases n <;> simp [drawsTaken]
  · exact .inl rfl

theorem execENew_cases {t : EngineRef} {p : List Int} {n : InitSpec} {c : ConfTag} {o : Int} {q : Policy} {s s' : State}
    (h : execENew t p n c o q s = .next s') : Did (.eNew t p n c o q) s s' := by
  cases ho : s.owned t with
  | true => rw [execENew_owned ho] at h; cases h; exact .error _
  | false =>
    cases hc : construct p n c o q (unitOfRef t) (s.draws.get (unitOfRef t)) with
    | error x =>
      rw [execENew_error ho hc] at h; cases h
      refine Did.failed (i := .eNew t p n c o q) _ _ ?_
      obtain h | rfl := drawsOfNew_eq p n
      · exact .inl h
      · exact .inr ⟨_, _, _, _, _, rfl⟩
    | ok e =>
      rw [execENew_ok ho hc, drawsOfNew_valid (construct_ok.1 hc).1] at h; cases h
      exact .new rfl ho hc

/-- Everything a command can do. -/
theorem exec_cases {i : Instr} {s s' : State} (h : exec i s = .next s') : Did i s s' := by
  cases i with
  | eNew t p n c o q => exact execENew_cases h
  | eStep t =>
    simp only [exec, execEStep] at h
    exact .onEngine (fun e v e' he => by obtain ⟨hc, -, rfl⟩ := stepEngine_ok.1 he; exact .step hc) h
  | eRun t k =>
    simp only [exec, execERun] at h
    exact .onEngine (fun e v e' he => by obtain ⟨hc, -, rfl⟩ := runEngine_ok.1 he; exact .run k hc) h
  | eRunFull t =>
    simp only [exec, execERunFull] at h
    exact .onEngine (fun e v e' he => by obtain ⟨hc, -, rfl⟩ := runEngine_ok.1 he; exact .full hc) h
  | eReset t =>
    simp only [exec, execEReset] at h
    exact .onEngine (fun e v e' he => by cases he; exact .reset) h
  | eSetPoly t p r f =>
    simp only [exec, execESetPoly] at h
    exact .onEngine (fun e v e' he => .poly he) h
  | eSetState t b f =>
    simp only [exec, execESetState] at h
    exact .onEngine (fun e v e' he => .state he) h
  | eSetConf t c =>
    simp only [exec, execESetConf] at h
    exact .onEngine (fun e v e' he => .conf he) h
  | eSetOidx t o =>
    simp only [exec, execESetOidx] at h
    exact .onEngine (fun e v e' he => .oidx he) h
  | eGetState t =>
    simp only [exec, execEGetState] at h
    exact .readEngine h
  | eGetPoly t =>
    simp only [exec, execEGetPoly] at h
    exact .readEngine h
  | eGetSeq t =>
    simp only [exec, execEGetSeq] at h
    exact .readEngine h
  | eGetCount t =>
    simp only [exec, execEGetCount] at h
    exact .readEngine h
  | eGetPeriod t =>
    simp only [exec, execEGetPeriod] at h
    exact .readEngine h
  | eGetOutbit t =>
    simp only [exec, execEGetOutbit] at h
    exact .readEngine h
  | eGetFb t =>
    simp only [exec, execEGetFb] at h
    exact .readEngine h
  | a51Build =>
    change execA51Build s = _ at h
    unfold execA51Build at h
    split at h
    · cases h; exact .error _
    · split at h
      · cases h; exact .error _
      · cases h; exact .buildA51 rfl ‹_› ‹_›
  | a51Step =>
    simp only [exec, execA51Step] at h
    exact .onA51 (fun u => .inr .step) h
  | a51Run k =>
    simp only [exec, execA51Run] at h
    exact .onA51 (fun u => .inr (.run k)) h
  | a51Reset =>
    simp only [exec, execA51Reset] at h
    exact .onA51 (fun u => .inr .reset) h
  | a51GetSeq =>
    simp only [exec, execA51GetSeq] at h
    exact .onA51 (fun u => .inl rfl) h
  | a51GetCount =>
    simp only [exec, execA51GetCount] at h
    exact .onA51 (fun u => .inl rfl) h
  | a51GetOutbit =>
    simp only [exec, execA51GetOutbit] at h
    exact .onA51 (fun u => .inl rfl) h
  | a51GetCb =>
    simp only [exec, execA51GetCb] at h
    exact .onA51 (fun u => .inl rfl) h
  | geffeBuild k =>
    change execGeffeBuild k s = _ at h
    unfold execGeffeBuild at h
    split at h
    · cases h; exact .error _
    · split at h
      · cases h; exact .error _
      · cases h; exact .buildGeffe rfl ‹_› ‹_›
  | geffeStep =>
    simp only [exec, execGeffeStep] at h
    exact .onGeffe (fun u => .inr .step) h
  | geffeRun k =>
    simp only [exec, execGeffeRun] at h
    exact .onGeffe (fun u => .inr (.run k)) h
  | geffeReset =>
    simp only [exec, execGeffeReset] at h
    exact .onGeffe (fun u => .inr .reset) h
  | geffeGetSeq =>
    simp only [exec, execGeffeGetSeq] at h
    exact .onGeffe (fun u => .inl rfl) h
  | geffeGetCount =>
    simp only [exec, execGeffeGetCount] at h
    exact .onGeffe (fun u => .inl rfl) h
  | geffeGetOutbit =>
    simp only [exec, execGeffeGetOutbit] at h
    exact .onGeffe (fun u => .inl rfl) h
  | geffeGetSel =>
    simp only [exec, execGeffeGetSel] at h
    exact .onGeffe (fun u => .inl rfl) h
  | geffe3Build =>
    change execGeffe3Build s = _ at h
    unfold execGeffe3Build at h
    split at h
    · cases h; exact .error _
    · split at h
      · cases h; exact .error _
      · cases h; exact .buildGeffe3 rfl ‹_› ‹_›
  | geffe3Step =>
    simp only [exec, execGeffe3Step] at h
    exact .onGeffe3 (fun u => .inr .step) h
  | geffe3Run k =>
    simp only [exec, execGeffe3Run] at h
    exact .onGeffe3 (fun u => .inr (.run k)) h
  | geffe3Reset =>
    simp only [exec, execGeffe3Reset] at h
    exact .onGeffe3 (fun u => .inr .reset) h
  | geffe3GetSeq =>
    simp only [exec, execGeffe3GetSeq] at h
    exact .onGeffe3 (fun u => .inl rfl) h
  | geffe3GetCount =>
    simp only [exec, execGeffe3GetCount] at h
    exact .onGeffe3 (fun u => .inl rfl) h
  | geffe3GetOutbit =>
    simp only [exec, execGeffe3GetOutbit] at h
    exact .onGeffe3 (fun u => .inl rfl) h

/-- Every command gives a next state. -/
theorem exec_total (i : Instr) (s : State) : ∃ s', exec i s = .next s' := by
  cases h : exec i s with
  | next s' => exact ⟨s', rfl⟩
  | fault f => exact nomatch f
  | refused r =>
    exfalso
    cases i <;> simp only [exec, execENew, execEStep, execERun, execERunFull, execEReset, execESetPoly, execESetState,
      execESetConf, execESetOidx, execEGetState, execEGetPoly, execEGetSeq, execEGetCount, execEGetPeriod,
      execEGetOutbit, execEGetFb, execA51Build, execA51Step, execA51Run, execA51Reset, execA51GetSeq, execA51GetCount,
      execA51GetOutbit, execA51GetCb, execGeffeBuild, execGeffeStep, execGeffeRun, execGeffeReset, execGeffeGetSeq,
      execGeffeGetCount, execGeffeGetOutbit, execGeffeGetSel, execGeffe3Build, execGeffe3Step, execGeffe3Run,
      execGeffe3Reset, execGeffe3GetSeq, execGeffe3GetCount, execGeffe3GetOutbit, onEngine, readEngine, onA51, onGeffe,
      onGeffe3, fail_def, answer_def] at h <;> (repeat' split at h) <;> cases h

end Sys2Proof.Machine
end

