-- ==== Sys2Proof/Laws/PerInstr.lean ====
section
/-!
SUPPORT. Facts about every instruction as syntax, one lemma per constructor.
-/

namespace Sys2Proof.Laws.OpcodeByte

open Sys2Proof Sys2Proof.Machine

/-- The encoding of the instruction carries the opcode byte of its row of `spec/opcode_table.json`. -/
def Statement (i : Instr) : Prop := opField (encode i).hdr = opField (tableRow i).1

theorem eNew (t : EngineRef) (taps : List Int) (init : InitSpec) (conf : ConfTag) (oidx : Int) (policy : Policy) : Statement (.eNew t taps init conf oidx policy) := (opField_header ..).trans (by simp only [tableRow]; decide)
theorem eStep (t : EngineRef) : Statement (.eStep t) := (opField_header ..).trans (by simp only [tableRow]; decide)
theorem eRun (t : EngineRef) (k : Nat) : Statement (.eRun t k) := (opField_header ..).trans (by simp only [tableRow]; decide)
theorem eRunFull (t : EngineRef) : Statement (.eRunFull t) := (opField_header ..).trans (by simp only [tableRow]; decide)
theorem eReset (t : EngineRef) : Statement (.eReset t) := (opField_header ..).trans (by simp only [tableRow]; decide)
theorem eSetPoly (t : EngineRef) (taps : List Int) (reset enforce : Bool) : Statement (.eSetPoly t taps reset enforce) := (opField_header ..).trans (by simp only [tableRow]; decide)
theorem eSetState (t : EngineRef) (bits : Bits) (enforce : Bool) : Statement (.eSetState t bits enforce) := (opField_header ..).trans (by simp only [tableRow]; decide)
theorem eSetConf (t : EngineRef) (conf : ConfTag) : Statement (.eSetConf t conf) := (opField_header ..).trans (by simp only [tableRow]; decide)
theorem eSetOidx (t : EngineRef) (oidx : Int) : Statement (.eSetOidx t oidx) := (opField_header ..).trans (by simp only [tableRow]; decide)
theorem eGetState (t : EngineRef) : Statement (.eGetState t) := (opField_header ..).trans (by simp only [tableRow]; decide)
theorem eGetPoly (t : EngineRef) : Statement (.eGetPoly t) := (opField_header ..).trans (by simp only [tableRow]; decide)
theorem eGetSeq (t : EngineRef) : Statement (.eGetSeq t) := (opField_header ..).trans (by simp only [tableRow]; decide)
theorem eGetCount (t : EngineRef) : Statement (.eGetCount t) := (opField_header ..).trans (by simp only [tableRow]; decide)
theorem eGetPeriod (t : EngineRef) : Statement (.eGetPeriod t) := (opField_header ..).trans (by simp only [tableRow]; decide)
theorem eGetOutbit (t : EngineRef) : Statement (.eGetOutbit t) := (opField_header ..).trans (by simp only [tableRow]; decide)
theorem eGetFb (t : EngineRef) : Statement (.eGetFb t) := (opField_header ..).trans (by simp only [tableRow]; decide)
theorem a51Build : Statement .a51Build := (opField_header ..).trans (by simp only [tableRow]; decide)
theorem a51Step : Statement .a51Step := (opField_header ..).trans (by simp only [tableRow]; decide)
theorem a51Run (k : Nat) : Statement (.a51Run k) := (opField_header ..).trans (by simp only [tableRow]; decide)
theorem a51Reset : Statement .a51Reset := (opField_header ..).trans (by simp only [tableRow]; decide)
theorem a51GetSeq : Statement .a51GetSeq := (opField_header ..).trans (by simp only [tableRow]; decide)
theorem a51GetCount : Statement .a51GetCount := (opField_header ..).trans (by simp only [tableRow]; decide)
theorem a51GetOutbit : Statement .a51GetOutbit := (opField_header ..).trans (by simp only [tableRow]; decide)
theorem a51GetCb : Statement .a51GetCb := (opField_header ..).trans (by simp only [tableRow]; decide)
theorem geffeBuild (k : Nat) : Statement (.geffeBuild k) := (opField_header ..).trans (by simp only [tableRow]; decide)
theorem geffeStep : Statement .geffeStep := (opField_header ..).trans (by simp only [tableRow]; decide)
theorem geffeRun (k : Nat) : Statement (.geffeRun k) := (opField_header ..).trans (by simp only [tableRow]; decide)
theorem geffeReset : Statement .geffeReset := (opField_header ..).trans (by simp only [tableRow]; decide)
theorem geffeGetSeq : Statement .geffeGetSeq := (opField_header ..).trans (by simp only [tableRow]; decide)
theorem geffeGetCount : Statement .geffeGetCount := (opField_header ..).trans (by simp only [tableRow]; decide)
theorem geffeGetOutbit : Statement .geffeGetOutbit := (opField_header ..).trans (by simp only [tableRow]; decide)
theorem geffeGetSel : Statement .geffeGetSel := (opField_header ..).trans (by simp only [tableRow]; decide)
theorem geffe3Build : Statement .geffe3Build := (opField_header ..).trans (by simp only [tableRow]; decide)
theorem geffe3Step : Statement .geffe3Step := (opField_header ..).trans (by simp only [tableRow]; decide)
theorem geffe3Run (k : Nat) : Statement (.geffe3Run k) := (opField_header ..).trans (by simp only [tableRow]; decide)
theorem geffe3Reset : Statement .geffe3Reset := (opField_header ..).trans (by simp only [tableRow]; decide)
theorem geffe3GetSeq : Statement .geffe3GetSeq := (opField_header ..).trans (by simp only [tableRow]; decide)
theorem geffe3GetCount : Statement .geffe3GetCount := (opField_header ..).trans (by simp only [tableRow]; decide)
theorem geffe3GetOutbit : Statement .geffe3GetOutbit := (opField_header ..).trans (by simp only [tableRow]; decide)

end Sys2Proof.Laws.OpcodeByte
end

