-- ==== Sys2Proof/Laws/Units.lean ====
section
/-!
SUPPORT. Every move of an engine or of a composite keeps its well-formedness; what construction makes is well-formed and
consistent; the index of a Geffe cycle names a component.
-/

namespace Sys2Proof.Machine

/-! ### Engines -/

theorem Engine.Wf.fresh {taps : List Int} {n : InitSpec} {c : ConfTag} {i : Int} {p : Policy} {u : UnitName} {k : Nat}
    {e : Engine} (h : construct taps n c i p u k = .ok e) : e.Wf := by
  obtain ⟨hp, hb, hl, hg, ho, d, hd, rfl⟩ := construct_ok.1 h
  have h2 := hp.two_le_max
  exact ⟨by simpa [Engine.fresh] using hp.1, storedTaps_sorted hp.2.2 hp.2.1, storedTaps_pos hp.2.2, by simp only [Engine.len, Engine.fresh]; omega,
    by simp only [Engine.fresh]; omega, hb, rfl, by simp [Engine.fresh], by simp [Engine.fresh]⟩

theorem Engine.Consistent.fresh {taps : List Int} {n : InitSpec} {c : ConfTag} {i : Int} {p : Policy} {u : UnitName} {k : Nat}
    {e : Engine} (h : construct taps n c i p u k = .ok e) : e.Consistent := by
  obtain ⟨hp, hb, hl, hg, ho, d, hd, rfl⟩ := construct_ok.1 h
  refine ⟨by simpa [Engine.fresh] using hp.1, storedTaps_nodup hp.2.2 hp.2.1, storedTaps_pos hp.2.2, ?_, ?_, ho⟩
  · simpa [Engine.fresh, Engine.len] using hl
  · intro hgal
    have : c = .galois := by cases c <;> simp_all [confOf, Engine.fresh]
    simpa [Engine.fresh, Engine.len] using (hg this).symm

theorem Engine.Wf.two_le_maxTap {e : Engine} (h : e.Wf) : 2 ≤ maxTap e.taps :=
  Machine.two_le_maxTap h.taps_two h.nodup h.taps_pos

theorem Engine.Wf.setPoly {taps : List Int} {r f : Bool} {e e' : Engine} {v : Value} (h : e.Wf)
    (hs : setPoly taps r f e = .ok (v, e')) : e'.Wf := by
  obtain ⟨hp, -, -, rfl⟩ := setPoly_ok.1 hs
  have : Engine.Wf { e with taps := storedTaps taps } :=
    ⟨by simpa using hp.1, storedTaps_sorted hp.2.2 hp.2.1, storedTaps_pos hp.2.2, h.len_two, h.init_two, h.init_nonzero,
      h.seq_count, h.fb_count, h.outbit_count⟩
  split
  · exact this.reset
  · exact this

/-- Every move of an engine keeps it well-formed. -/
theorem Engine.Wf.move {t : EngineRef} {i : Instr} {e e' : Engine} (h : e.Wf) (hm : EngineMove t e i e') : e'.Wf := by
  cases hm with
  | step _ => exact h.after 1
  | run k _ => exact h.after k
  | full _ => exact h.after _
  | reset => exact h.reset
  | poly hs => exact h.setPoly hs
  | state hs =>
    obtain ⟨hb, -, hl, -, -, -, rfl⟩ := setState_ok.1 hs
    have := h.two_le_maxTap
    exact ⟨h.taps_two, h.taps_sorted, h.taps_pos, by simp only [Engine.len]; omega, h.init_two, h.init_nonzero, h.seq_count,
      h.fb_count, h.outbit_count⟩
  | conf hs =>
    obtain ⟨-, ⟨-, rfl⟩ | ⟨-, -, rfl⟩⟩ := setConf_ok.1 hs <;>
      exact ⟨h.taps_two, h.taps_sorted, h.taps_pos, h.len_two, h.init_two, h.init_nonzero, h.seq_count, h.fb_count,
        h.outbit_count⟩
  | oidx hs =>
    obtain ⟨-, -, rfl⟩ := setOidx_ok.1 hs
    exact ⟨h.taps_two, h.taps_sorted, h.taps_pos, h.len_two, h.init_two, h.init_nonzero, h.seq_count, h.fb_count,
      h.outbit_count⟩

/-- A consistent engine stays consistent under a reset that keeps its length. -/
theorem Engine.Consistent.reset {e : Engine} (h : e.Consistent) (hu : e.Unresized) : e.reset.Consistent := by
  have hl : e.reset.len = e.len := hu
  simpa only [Engine.Consistent, Engine.reset_taps, Engine.reset_conf, Engine.reset_oidx, hl] using h

/-- A move breaks consistency only where it resizes: an enforced E_SET_POLY whose largest tap does not fit the register, or a
reset to an initial state of another length (R30). -/
theorem Engine.Consistent.move {t : EngineRef} {i : Instr} {e e' : Engine} (h : e.Consistent) (hm : EngineMove t e i e')
    (hp : ∀ p r d, i = .eSetPoly t p r true → IsMaxTap p d → d ≤ e.len ∧ (e.conf = .gal → d = e.len))
    (hr : (i = .eReset t ∨ ∃ p f, i = .eSetPoly t p true f) → e.Unresized) : e'.Consistent := by
  cases hm with
  | step _ => exact h.after 1
  | run k _ => exact h.after k
  | full _ => exact h.after _
  | reset => exact h.reset (hr (.inl rfl))
  | poly hs =>
    rename_i taps r f v
    obtain ⟨hv, hf, -, rfl⟩ := setPoly_ok.1 hs
    have hd : maxTapOperand taps ≤ e.len ∧ (e.conf = .gal → maxTapOperand taps = e.len) := by
      obtain rfl | hd := hf
      · exact hp _ _ _ rfl ((isMaxTap_iff hv).2 rfl)
      · exact ⟨hd.le, fun _ => hd⟩
    have hc : Engine.Consistent { e with taps := storedTaps taps } :=
      ⟨by simpa using hv.1, storedTaps_nodup hv.2.2 hv.2.1, storedTaps_pos hv.2.2, by simpa [Engine.len] using hd.1,
        by simpa [Engine.len] using hd.2, h.2.2.2.2.2⟩
    split
    · next hr' => subst hr'; exact hc.reset (hr (.inr ⟨_, _, rfl⟩))
    · exact hc
  | state hs =>
    obtain ⟨hb, -, hl, hg, ho, -, rfl⟩ := setState_ok.1 hs
    exact ⟨h.1, h.2.1, h.2.2.1, hl, fun hc => (hg hc).symm, ho⟩
  | conf hs =>
    obtain ⟨-, ⟨-, rfl⟩ | ⟨-, hl, rfl⟩⟩ := setConf_ok.1 hs
    · exact ⟨h.1, h.2.1, h.2.2.1, h.2.2.2.1, by simp, h.2.2.2.2.2⟩
    · exact ⟨h.1, h.2.1, h.2.2.1, h.2.2.2.1, fun _ => hl.symm, h.2.2.2.2.2⟩
  | oidx hs =>
    obtain ⟨ho, -, rfl⟩ := setOidx_ok.1 hs
    exact ⟨h.1, h.2.1, h.2.2.1, h.2.2.2.1, h.2.2.2.2.1, ho⟩

/-! ### The A5/1 unit -/

theorem A51.clocked_cases (u : A51) (c : Bool) (e : Engine) : u.clocked c e = e ∨ u.clocked c e = e.stepInCycle := by
  unfold A51.clocked; split
  · exact .inl rfl
  · split <;> simp

theorem A51.clocked_keeps {P : Engine → Prop} {u : A51} {c : Bool} {e : Engine} (he : P e) (ha : P e.advance) :
    P (u.clocked c e) := by
  obtain h | h := u.clocked_cases c e <;> rw [h]
  · exact he
  · exact Engine.stepInCycle_keeps he ha

theorem A51.Wf.advance {cfg : Config} {u : A51} (h : u.Wf cfg) : u.advance.Wf cfg where
  r1 := A51.clocked_keeps (P := fun e => e.Wf ∧ e.taps = cfg.a51Taps1 ∧ e.conf = .fib) h.r1 ⟨h.r1.1.advance, h.r1.2⟩
  r2 := A51.clocked_keeps (P := fun e => e.Wf ∧ e.taps = cfg.a51Taps2 ∧ e.conf = .fib) h.r2 ⟨h.r2.1.advance, h.r2.2⟩
  r3 := A51.clocked_keeps (P := fun e => e.Wf ∧ e.taps = cfg.a51Taps3 ∧ e.conf = .fib) h.r3 ⟨h.r3.1.advance, h.r3.2⟩
  seq_count := by simp [A51.advance, h.seq_count]
  outbit_count := by simp [A51.advance]
  cb_count := by simp [A51.advance]

theorem A51.Wf.reset {cfg : Config} {u : A51} (h : u.Wf cfg) : u.reset.Wf cfg where
  r1 := ⟨h.r1.1.reset, h.r1.2⟩
  r2 := ⟨h.r2.1.reset, h.r2.2⟩
  r3 := ⟨h.r3.1.reset, h.r3.2⟩
  seq_count := rfl
  outbit_count := by simp [A51.reset]
  cb_count := by simp [A51.reset]

theorem A51.Wf.move {cfg : Config} {u u' : A51} {i : Instr} (h : u.Wf cfg) (hm : A51Move u i u') : u'.Wf cfg := by
  cases hm with
  | step => exact h.advance
  | run k => exact A51.after_induction (fun _ h => A51.Wf.advance h) k h
  | reset => exact h.reset

theorem buildA51_ok {cfg : Config} {slots : Slots3} {u : A51} :
    buildA51 cfg slots = .ok u ↔ slots.r1 = some u.r1 ∧ slots.r2 = some u.r2 ∧ slots.r3 = some u.r3 ∧
      A51Admits a51Len1 cfg.a51Taps1 u.r1 ∧ A51Admits a51Len2 cfg.a51Taps2 u.r2 ∧ A51Admits a51Len3 cfg.a51Taps3 u.r3 ∧
      u.cb = none ∧ u.count = 0 ∧ u.outbit = none ∧ u.seq = [] := by
  obtain ⟨r1, r2, r3⟩ := slots
  cases u
  unfold buildA51
  cases r1 <;> cases r2 <;> cases r3 <;> simp only [reduceCtorEq, false_and, and_false]
  rw [ite_eq_ok]
  simp only [A51.mk.injEq, Option.some.injEq]
  constructor
  · rintro ⟨⟨h1, h2, h3⟩, rfl, rfl, rfl, rfl, rfl, rfl, rfl⟩
    exact ⟨rfl, rfl, rfl, h1, h2, h3, rfl, rfl, rfl, rfl⟩
  · rintro ⟨rfl, rfl, rfl, h1, h2, h3, rfl, rfl, rfl, rfl⟩
    exact ⟨⟨h1, h2, h3⟩, rfl, rfl, rfl, rfl, rfl, rfl, rfl⟩

theorem buildA51_error {cfg : Config} {slots : Slots3} {x : ErrorName} (h : buildA51 cfg slots = .error x) :
    x = .invalidComposite := by
  unfold buildA51 at h
  split at h
  · exact (ite_eq_error.1 h).2
  · cases h; rfl

/-! ### The Geffe unit -/

theorem indexMsb_lt (b : Bits) (a n : Nat) (h : a < 2 ^ n) :
    b.foldl (fun a x => 2 * a + x.toNat) a < 2 ^ (n + b.length) := by
  induction b generalizing a n with
  | nil => simpa using h
  | cons x b ih =>
    have hx : x.toNat < 2 := by cases x <;> decide
    have := ih (2 * a + x.toNat) (n + 1) (by rw [pow_succ]; omega)
    simp only [List.foldl_cons, List.length_cons]
    rwa [Nat.add_assoc, Nat.add_comm 1] at this

theorem indexLsb_lt (b : Bits) : indexLsbFirst b < 2 ^ b.length := by
  induction b with
  | nil => simp [indexLsbFirst]
  | cons x b ih =>
    have hx : x.toNat < 2 := by cases x <;> decide
    simp only [indexLsbFirst, List.foldr_cons, List.length_cons, pow_succ] at *
    omega

/-- An index drawn from `n` bits is below `2^n` (R217). -/
theorem selIndex_lt (m : Bool) (b : Bits) : selIndex m b < 2 ^ b.length := by
  cases m
  · exact indexLsb_lt b
  · have := indexMsb_lt b 0 0 (by simp)
    simpa [selIndex, indexMsbFirst] using this

@[simp] theorem Geffe.drawn_length (u : Geffe) : u.drawn.length = u.selBits := by
  unfold Geffe.drawn; split <;> simp

/-- What steps keep holds of the selector after a cycle. -/
theorem Geffe.selStepped_keeps {P : Engine → Prop} {u : Geffe} (he : P u.s) (ha : P (u.s.after u.selBits)) : P u.selStepped := by
  unfold Geffe.selStepped; split <;> assumption

theorem Geffe.index_lt (m : Bool) (u : Geffe) (h : ∃ n, u.c.length = 2 ^ n) : u.index m < u.c.length := by
  obtain ⟨n, hn⟩ := h
  have := selIndex_lt m u.drawn
  rw [Geffe.drawn_length] at this
  simp only [Geffe.selBits, hn, Nat.log2_two_pow] at this
  simpa [Geffe.index, Geffe.selBits, hn, Nat.log2_two_pow] using this

@[simp] theorem Geffe.stepped_length (u : Geffe) : u.stepped.length = u.c.length := by
  unfold Geffe.stepped; split <;> simp

theorem Geffe.Wf.advance {m : Bool} {u : Geffe} (h : u.Wf) : (u.advance m).Wf where
  comps := by
    intro e he
    simp only [Geffe.advance, Geffe.stepped] at he
    split at he
    · exact h.comps e he
    · obtain ⟨x, hx, rfl⟩ := List.mem_map.1 he
      exact Engine.stepInCycle_keeps (h.comps x hx) (h.comps x hx).advance
  sel_engine := Geffe.selStepped_keeps h.sel_engine (h.sel_engine.after _)
  power := by simpa [Geffe.advance] using h.power
  sel_lt := by
    intro i hi
    cases hi
    simpa [Geffe.advance] using u.index_lt m h.power
  seq_count := by simp [Geffe.advance, h.seq_count]
  outbit_count := by simp [Geffe.advance]
  sel_count := by simp [Geffe.advance]

theorem Geffe.Wf.reset {u : Geffe} (h : u.Wf) : u.reset.Wf where
  comps := by
    intro e he
    obtain ⟨x, hx, rfl⟩ := List.mem_map.1 he
    exact (h.comps x hx).reset
  sel_engine := h.sel_engine.reset
  power := by simpa [Geffe.reset] using h.power
  sel_lt := by simp [Geffe.reset]
  seq_count := rfl
  outbit_count := by simp [Geffe.reset]
  sel_count := by simp [Geffe.reset]

theorem Geffe.Wf.move {m : Bool} {u u' : Geffe} {i : Instr} (h : u.Wf) (hm : GeffeMove m u i u') : u'.Wf := by
  cases hm with
  | step => exact h.advance
  | run k => exact Geffe.after_induction (fun _ h => Geffe.Wf.advance h) k h
  | reset => exact h.reset

/-- A Geffe unit keeps its number of components. -/
theorem GeffeMove.length {m : Bool} {u u' : Geffe} {i : Instr} (hm : GeffeMove m u i u') : u'.c.length = u.c.length := by
  cases hm with
  | step => exact u.stepped_length
  | run k => exact Geffe.after_induction (P := fun w => w.c.length = u.c.length) (fun w h => (Geffe.stepped_length w).trans h) k rfl
  | reset => simp [Geffe.reset]

theorem powerOfTwo_iff {k : Nat} : powerOfTwo k = true ↔ ∃ n, k = 2 ^ n := by
  simp only [powerOfTwo, Bool.and_eq_true, bne_iff_ne, beq_iff_eq]
  constructor
  · rintro ⟨_, h⟩; exact ⟨_, h.symm⟩
  · rintro ⟨n, rfl⟩; exact ⟨by positivity, by rw [Nat.log2_two_pow]⟩

theorem allConstructed_eq_some {l : List (Option Engine)} {es : List Engine} :
    allConstructed l = some es ↔ l = es.map some := by
  induction l generalizing es with
  | nil => cases es <;> simp [allConstructed]
  | cons o l ih =>
    cases o with
    | none => cases es <;> simp [allConstructed]
    | some e =>
      cases h : allConstructed l with
      | none =>
        simp only [allConstructed, h, reduceCtorEq, false_iff]
        intro hl
        cases es with
        | nil => cases hl
        | cons x es => simp only [List.map_cons, List.cons.injEq] at hl; exact absurd (ih.2 hl.2) (by simp [h])
      | some es' =>
        have h' := ih.1 h
        cases es with
        | nil => simp [allConstructed, h]
        | cons x es =>
          rw [allConstructed, h, h']
          simp only [Option.some.injEq, List.cons.injEq, List.map_cons]
          exact and_congr_right fun _ => (List.map_injective_iff.2 (Option.some_injective _)).eq_iff.symm

theorem buildGeffe_ok {k : Nat} {sel : Option Engine} {comps : List (Option Engine)} {u : Geffe} :
    buildGeffe k sel comps = .ok u ↔ (∃ n, k = 2 ^ n) ∧ k ≤ kMax ∧ sel = some u.s ∧ comps.take k = u.c.map some ∧
      u.s.Consistent ∧ (∀ e ∈ u.c, e.Consistent) ∧ u.sel = none ∧ u.count = 0 ∧ u.outbit = none ∧ u.seq = [] := by
  cases u
  unfold buildGeffe
  rw [← powerOfTwo_iff]
  by_cases hk : powerOfTwo k = true ∧ k ≤ kMax
  · rw [if_pos hk]
    cases sel with
    | none => simp
    | some s =>
      cases hc : allConstructed (comps.take k) with
      | none =>
        simp only [reduceCtorEq, false_iff]
        rintro ⟨_, _, _, h, _⟩
        exact absurd (allConstructed_eq_some.2 h) (by simp [hc])
      | some es =>
        have h := allConstructed_eq_some.1 hc
        dsimp only
        rw [ite_eq_ok, Geffe.mk.injEq, h]
        constructor
        · rintro ⟨⟨h1, h2⟩, rfl, rfl, rfl, rfl, rfl, rfl⟩
          exact ⟨hk.1, hk.2, rfl, rfl, h1, h2, rfl, rfl, rfl, rfl⟩
        · rintro ⟨_, _, hs, he, h1, h2, rfl, rfl, rfl, rfl⟩
          cases hs
          obtain rfl := List.map_injective_iff.2 (Option.some_injective _) he
          exact ⟨⟨h1, h2⟩, rfl, rfl, rfl, rfl, rfl, rfl⟩
  · rw [if_neg hk]
    simp only [reduceCtorEq, false_iff]
    exact fun h => hk ⟨h.1, h.2.1⟩

theorem buildGeffe_error {k : Nat} {sel : Option Engine} {comps : List (Option Engine)} {x : ErrorName}
    (h : buildGeffe k sel comps = .error x) : x = .invalidComposite := by
  unfold buildGeffe at h
  split at h
  · split at h
    · exact (ite_eq_error.1 h).2
    · cases h; rfl
  · cases h; rfl

/-! ### The Geffe3 unit -/

theorem Geffe3.stepped_cases (u : Geffe3) :
    (u.count = 0 ∧ u.stepped = u) ∨
      (0 < u.count ∧ u.stepped = { u with r1 := u.r1.stepInCycle, r2 := u.r2.stepInCycle, r3 := u.r3.stepInCycle }) := by
  unfold Geffe3.stepped
  split
  · exact .inl ⟨‹_›, rfl⟩
  · exact .inr ⟨by omega, rfl⟩

theorem Geffe3.Wf.advance {c : Combiner} {u : Geffe3} (h : u.Wf) : (u.advance c).Wf := by
  obtain ⟨_, hs⟩ | ⟨_, hs⟩ := u.stepped_cases
  · exact ⟨by simp [Geffe3.advance, hs, h.r1], by simp [Geffe3.advance, hs, h.r2], by simp [Geffe3.advance, hs, h.r3],
      by simp [Geffe3.advance, h.seq_count], by simp [Geffe3.advance]⟩
  · have st {e : Engine} (he : e.Wf) : e.stepInCycle.Wf := Engine.stepInCycle_keeps he he.advance
    exact ⟨by simp [Geffe3.advance, hs, st h.r1], by simp [Geffe3.advance, hs, st h.r2],
      by simp [Geffe3.advance, hs, st h.r3], by simp [Geffe3.advance, h.seq_count], by simp [Geffe3.advance]⟩

theorem Geffe3.Wf.reset {u : Geffe3} (h : u.Wf) : u.reset.Wf where
  r1 := h.r1.reset
  r2 := h.r2.reset
  r3 := h.r3.reset
  seq_count := rfl
  outbit_count := by simp [Geffe3.reset]

theorem Geffe3.Wf.move {c : Combiner} {u u' : Geffe3} {i : Instr} (h : u.Wf) (hm : Geffe3Move c u i u') : u'.Wf := by
  cases hm with
  | step => exact h.advance
  | run k => exact Geffe3.after_induction (fun _ h => Geffe3.Wf.advance h) k h
  | reset => exact h.reset

theorem buildGeffe3_ok {slots : Slots3} {u : Geffe3} :
    buildGeffe3 slots = .ok u ↔ slots.r1 = some u.r1 ∧ slots.r2 = some u.r2 ∧ slots.r3 = some u.r3 ∧
      u.r1.Consistent ∧ u.r2.Consistent ∧ u.r3.Consistent ∧ u.count = 0 ∧ u.outbit = none ∧ u.seq = [] := by
  obtain ⟨r1, r2, r3⟩ := slots
  cases u
  unfold buildGeffe3
  cases r1 <;> cases r2 <;> cases r3 <;> simp only [reduceCtorEq, false_and, and_false]
  rw [ite_eq_ok]
  simp only [Geffe3.mk.injEq, Option.some.injEq]
  constructor
  · rintro ⟨⟨h1, h2, h3⟩, rfl, rfl, rfl, rfl, rfl, rfl⟩
    exact ⟨rfl, rfl, rfl, h1, h2, h3, rfl, rfl, rfl⟩
  · rintro ⟨rfl, rfl, rfl, h1, h2, h3, rfl, rfl, rfl⟩
    exact ⟨⟨h1, h2, h3⟩, rfl, rfl, rfl, rfl, rfl, rfl⟩

theorem buildGeffe3_error {slots : Slots3} {x : ErrorName} (h : buildGeffe3 slots = .error x) : x = .invalidComposite := by
  unfold buildGeffe3 at h
  split at h
  · exact (ite_eq_error.1 h).2
  · cases h; rfl

/-! ### What a command can make of any engine -/

/-- A relation between an engine before and after, which holds where nothing happened, composes, and holds of every step, and
of every reset unless `i` resets no composite. -/
structure Composes (i : Instr) (R : Engine → Engine → Prop) : Prop where
  refl : ∀ e, R e e
  trans : ∀ {a b c}, R a b → R b c → R a c
  advance : ∀ e, R e e.advance
  reset : (∀ e, R e e.reset) ∨ i ≠ .a51Reset ∧ i ≠ .geffeReset ∧ i ≠ .geffe3Reset

theorem Composes.after {i : Instr} {R : Engine → Engine → Prop} (h : Composes i R) (k : Nat) (e : Engine) :
    R e (e.after k) := by
  induction k generalizing e with
  | zero => exact h.refl e
  | succ k ih => exact h.trans (h.advance e) (ih e.advance)

theorem Composes.stepInCycle {i : Instr} {R : Engine → Engine → Prop} (h : Composes i R) (e : Engine) :
    R e e.stepInCycle := Engine.stepInCycle_keeps (h.refl e) (h.advance e)

theorem Composes.a51 {i : Instr} {R : Engine → Engine → Prop} (h : Composes i R) {u u' : A51} (hm : A51Move u i u')
    (r : Reg3) : R (u.get r) (u'.get r) := by
  have adv (w : A51) : R (w.get r) (w.advance.get r) := by
    cases r <;> exact A51.clocked_keeps (P := fun e => R _ e) (h.refl _) (h.advance _)
  cases hm with
  | step => exact adv u
  | run k => exact A51.after_induction (P := fun w => R (u.get r) (w.get r)) (fun w hw => h.trans hw (adv w)) k (h.refl _)
  | reset =>
    obtain hr | ⟨hr, _⟩ := h.reset
    · cases r <;> exact hr _
    · exact absurd rfl hr

theorem Composes.geffe3 {i : Instr} {R : Engine → Engine → Prop} (h : Composes i R) {c : Combiner} {u u' : Geffe3}
    (hm : Geffe3Move c u i u') (r : Reg3) : R (u.get r) (u'.get r) := by
  have adv (w : Geffe3) : R (w.get r) ((w.advance c).get r) := by
    obtain ⟨_, hs⟩ | ⟨_, hs⟩ := w.stepped_cases
    · cases r <;> simp [Geffe3.get, Geffe3.advance, hs, h.refl]
    · cases r <;> simp [Geffe3.get, Geffe3.advance, hs, h.stepInCycle]
  cases hm with
  | step => exact adv u
  | run k =>
    exact Geffe3.after_induction (P := fun w => R (u.get r) (w.get r)) (fun w hw => h.trans hw (adv w)) k (h.refl _)
  | reset =>
    obtain hr | ⟨_, _, hr⟩ := h.reset
    · cases r <;> exact hr _
    · exact absurd rfl hr

/-- The relation holds of the selector and of every component of two Geffe units. -/
structure GeffeRelated (R : Engine → Engine → Prop) (u w : Geffe) : Prop where
  sel : R u.s w.s
  length : w.c.length = u.c.length
  comps : ∀ (j : Nat) (x : Engine), u.c[j]? = some x → ∃ y, w.c[j]? = some y ∧ R x y

theorem GeffeRelated.advance {i : Instr} {R : Engine → Engine → Prop} (h : Composes i R) (m : Bool) {u w : Geffe}
    (hw : GeffeRelated R u w) : GeffeRelated R u (w.advance m) where
  sel := h.trans hw.sel (Geffe.selStepped_keeps (P := R w.s) (h.refl _) (h.after _ _))
  length := (w.stepped_length).trans hw.length
  comps := by
    intro j x hx
    obtain ⟨y, hy, hR⟩ := hw.comps j x hx
    simp only [Geffe.advance, Geffe.stepped]
    split
    · exact ⟨y, hy, hR⟩
    · exact ⟨y.stepInCycle, by simp [hy], h.trans hR (h.stepInCycle y)⟩

theorem Composes.geffe {i : Instr} {R : Engine → Engine → Prop} (h : Composes i R) {m : Bool} {u u' : Geffe}
    (hm : GeffeMove m u i u') : GeffeRelated R u u' := by
  have r0 : GeffeRelated R u u := ⟨h.refl _, rfl, fun j x hx => ⟨x, hx, h.refl x⟩⟩
  cases hm with
  | step => exact r0.advance h m
  | run k => exact Geffe.after_induction (fun w hw => hw.advance h m) k r0
  | reset =>
    obtain hr | ⟨_, hr, _⟩ := h.reset
    · exact ⟨hr _, by simp [Geffe.reset], fun j x hx => ⟨x.reset, by simp [Geffe.reset, hx], hr x⟩⟩
    · exact absurd rfl hr

/-- What a command can make of any engine of the block: its own move, a new engine, or what its composite makes of it. -/
theorem Did.engine_cases {i : Instr} {s s' : State} (h : Did i s s') {R : Engine → Engine → Prop} (hR : Composes i R)
    {t : EngineRef} {e : Engine} (he : s.engine t = some e) :
    ∃ e', s'.engine t = some e' ∧ (R e e' ∨ EngineMove t e i e' ∨
      ∃ p n c o q, i = .eNew t p n c o q ∧ construct p n c o q (unitOfRef t) (s.draws.get (unitOfRef t)) = .ok e') := by
  cases h with
  | failed x n hn => exact ⟨e, by simpa using he, .inl (hR.refl e)⟩
  | read v => exact ⟨e, by simpa using he, .inl (hR.refl e)⟩
  | new hi ho hc =>
    rename_i t' p n c o q e1
    by_cases ht : t = t'
    · subst ht
      exact ⟨e1, by simp [State.engine_putEngine_self _ _ _ ((State.takeDraws_owned s _ _ t).trans ho)],
        .inr (.inr ⟨p, n, c, o, q, hi, hc⟩)⟩
    · exact ⟨e, by simpa [State.engine_putEngine_ne _ _ _ _ ht] using he, .inl (hR.refl e)⟩
  | engine v ho hs hm =>
    rename_i t' e1 e2
    by_cases ht : t = t'
    · subst ht; rw [hs] at he; cases he
      exact ⟨e2, by simp [State.engine_putEngine_self _ _ _ ho], .inr (.inl hm)⟩
    · exact ⟨e, by simpa [State.engine_putEngine_ne _ _ _ _ ht] using he, .inl (hR.refl e)⟩
  | buildA51 hi hs hb =>
    obtain ⟨h1, h2, h3, -⟩ := buildA51_ok.1 hb
    refine ⟨e, ?_, .inl (hR.refl e)⟩
    rw [State.respond_engine]
    cases t with
    | a51 r => rw [← he]; simp only [State.engine, hs]; cases r <;> simp [Slots3.get, A51.get, State.putA51, *]
    | _ => exact he
  | buildGeffe hi hs hb =>
    obtain ⟨hp, hk, h1, h2, -⟩ := buildGeffe_ok.1 hb
    refine ⟨e, ?_, .inl (hR.refl e)⟩
    rw [State.respond_engine]
    cases t with
    | geffeS => rw [← he, State.putGeffe_engine_geffeS]; simp only [State.engine, hs, h1]
    | geffeC j =>
      rw [← he, State.putGeffe_engine_geffeC]
      simp only [State.engine, hs, geffeSlots, ← h2, List.take_append_drop]
      simp
    | _ => exact he
  | buildGeffe3 hi hs hb =>
    obtain ⟨h1, h2, h3, -⟩ := buildGeffe3_ok.1 hb
    refine ⟨e, ?_, .inl (hR.refl e)⟩
    rw [State.respond_engine]
    cases t with
    | geffe3 r => rw [← he]; simp only [State.engine, hs]; cases r <;> simp [Slots3.get, Geffe3.get, State.putGeffe3, *]
    | _ => exact he
  | a51 v hu hm =>
    rw [State.respond_engine]
    cases t with
    | a51 r => simp only [State.engine, hu] at he; cases he; exact ⟨_, rfl, .inl (hR.a51 hm r)⟩
    | _ => exact ⟨e, he, .inl (hR.refl e)⟩
  | geffe v hu hm =>
    rename_i u spare u'
    have hg := hR.geffe hm
    rw [State.respond_engine]
    cases t with
    | geffeS => simp only [State.engine, hu] at he; cases he; exact ⟨_, rfl, .inl hg.sel⟩
    | geffeC j =>
      rw [State.putGeffe_engine_geffeC]
      simp only [State.engine, hu, geffeSlots, List.getD_eq_getElem?_getD] at he ⊢
      by_cases hj : j.val < u.c.length
      · rw [List.getElem?_append_left (by simpa using hj)] at he
        rw [List.getElem?_append_left (by simpa [hg.length] using hj)]
        simp only [List.getElem?_map, List.getElem?_eq_getElem hj, Option.map_some, Option.getD_some,
          Option.some.injEq] at he
        obtain ⟨y, hy, hsc⟩ := hg.comps j e (by simp [List.getElem?_eq_getElem hj, he])
        exact ⟨y, by simp [hy], .inl hsc⟩
      · rw [List.getElem?_append_right (by simpa using hj)] at he
        rw [List.getElem?_append_right (by simpa [hg.length] using hj)]
        simp only [List.length_map] at he ⊢
        exact ⟨e, by rw [hg.length]; exact he, .inl (hR.refl e)⟩
    | _ => exact ⟨e, he, .inl (hR.refl e)⟩
  | geffe3 v hu hm =>
    rw [State.respond_engine]
    cases t with
    | geffe3 r => simp only [State.engine, hu] at he; cases he; exact ⟨_, rfl, .inl (hR.geffe3 hm r)⟩
    | _ => exact ⟨e, he, .inl (hR.refl e)⟩

end Sys2Proof.Machine
end

