-- ==== Sys2Proof/Machine/Assembly.lean ====
section
/-!
DEFINITION. The spec's own command syntax (`30_encoding.md` R95, R96), as a printer with every operand written out. No step
reads it.
-/

namespace Sys2Proof.Machine

/-- The mnemonic of an instruction (R90). -/
def mnemonic : Instr → String
  | .eNew _ _ _ _ _ _ => "E_NEW"
  | .eStep _ => "E_STEP"
  | .eRun _ _ => "E_RUN"
  | .eRunFull _ => "E_RUN_FULL"
  | .eReset _ => "E_RESET"
  | .eSetPoly _ _ _ _ => "E_SET_POLY"
  | .eSetState _ _ _ => "E_SET_STATE"
  | .eSetConf _ _ => "E_SET_CONF"
  | .eSetOidx _ _ => "E_SET_OIDX"
  | .eGetState _ => "E_GET_STATE"
  | .eGetPoly _ => "E_GET_POLY"
  | .eGetSeq _ => "E_GET_SEQ"
  | .eGetCount _ => "E_GET_COUNT"
  | .eGetPeriod _ => "E_GET_PERIOD"
  | .eGetOutbit _ => "E_GET_OUTBIT"
  | .eGetFb _ => "E_GET_FB"
  | .a51Build => "A51_BUILD"
  | .a51Step => "A51_STEP"
  | .a51Run _ => "A51_RUN"
  | .a51Reset => "A51_RESET"
  | .a51GetSeq => "A51_GET_SEQ"
  | .a51GetCount => "A51_GET_COUNT"
  | .a51GetOutbit => "A51_GET_OUTBIT"
  | .a51GetCb => "A51_GET_CB"
  | .geffeBuild _ => "GEFFE_BUILD"
  | .geffeStep => "GEFFE_STEP"
  | .geffeRun _ => "GEFFE_RUN"
  | .geffeReset => "GEFFE_RESET"
  | .geffeGetSeq => "GEFFE_GET_SEQ"
  | .geffeGetCount => "GEFFE_GET_COUNT"
  | .geffeGetOutbit => "GEFFE_GET_OUTBIT"
  | .geffeGetSel => "GEFFE_GET_SEL"
  | .geffe3Build => "GEFFE3_BUILD"
  | .geffe3Step => "GEFFE3_STEP"
  | .geffe3Run _ => "GEFFE3_RUN"
  | .geffe3Reset => "GEFFE3_RESET"
  | .geffe3GetSeq => "GEFFE3_GET_SEQ"
  | .geffe3GetCount => "GEFFE3_GET_COUNT"
  | .geffe3GetOutbit => "GEFFE3_GET_OUTBIT"

def reg3Name : Reg3 → String
  | .r1 => "r1"
  | .r2 => "r2"
  | .r3 => "r3"

/-- The target of an `E_*` command (R95). -/
def targetName : EngineRef → String
  | .lfsr => "lfsr"
  | .a51 r => "a51." ++ reg3Name r
  | .geffeS => "geffe.s"
  | .geffeC j => "geffe.c" ++ toString j.val
  | .geffe3 r => "geffe3." ++ reg3Name r

def bitName (b : Bool) : String := if b then "1" else "0"

def listText (items : List String) : String := "[" ++ String.intercalate "," items ++ "]"

def tapsText (taps : List Int) : String := ", taps=" ++ listText (taps.map toString)

/-- The operand `conf` (R95). For the field values 2 and 3, which name no configuration, R95 has no written form: the numbers are
the model's choice (log entry 17). -/
def confText : ConfTag → String
  | .fibonacci => ", conf=fib"
  | .galois => ", conf=gal"
  | .neither2 => ", conf=2"
  | .neither3 => ", conf=3"

def initText : InitSpec → String
  | .allOnes => ", init=ones"
  | .random => ", init=random"
  | .explicit bits => ", init=" ++ listText (bits.map bitName)

def policyText : Policy → String
  | .zero => ", policy=zero"
  | .one => ", policy=one"

def oidxText (i : Int) : String := ", oidx=" ++ toString i

/-- The target and the operands of an instruction (R95). -/
def operandText : Instr → String
  | .eNew t taps init conf oidx policy =>
    targetName t ++ tapsText taps ++ initText init ++ confText conf ++ oidxText oidx ++ policyText policy
  | .eStep t => targetName t
  | .eRun t k => targetName t ++ ", k=" ++ toString k
  | .eRunFull t => targetName t
  | .eReset t => targetName t
  | .eSetPoly t taps reset enforce =>
    targetName t ++ tapsText taps ++ ", reset=" ++ bitName reset ++ ", enforce=" ++ bitName enforce
  | .eSetState t bits enforce => targetName t ++ ", state=" ++ listText (bits.map bitName) ++ ", enforce=" ++ bitName enforce
  | .eSetConf t conf => targetName t ++ confText conf
  | .eSetOidx t oidx => targetName t ++ oidxText oidx
  | .eGetState t => targetName t
  | .eGetPoly t => targetName t
  | .eGetSeq t => targetName t
  | .eGetCount t => targetName t
  | .eGetPeriod t => targetName t
  | .eGetOutbit t => targetName t
  | .eGetFb t => targetName t
  | .a51Build => "a51"
  | .a51Step => "a51"
  | .a51Run k => "a51, k=" ++ toString k
  | .a51Reset => "a51"
  | .a51GetSeq => "a51"
  | .a51GetCount => "a51"
  | .a51GetOutbit => "a51"
  | .a51GetCb => "a51"
  | .geffeBuild k => "geffe, K=" ++ toString k
  | .geffeStep => "geffe"
  | .geffeRun k => "geffe, k=" ++ toString k
  | .geffeReset => "geffe"
  | .geffeGetSeq => "geffe"
  | .geffeGetCount => "geffe"
  | .geffeGetOutbit => "geffe"
  | .geffeGetSel => "geffe"
  | .geffe3Build => "geffe3"
  | .geffe3Step => "geffe3"
  | .geffe3Run k => "geffe3, k=" ++ toString k
  | .geffe3Reset => "geffe3"
  | .geffe3GetSeq => "geffe3"
  | .geffe3GetCount => "geffe3"
  | .geffe3GetOutbit => "geffe3"

/-- `MNEMONIC target[, name=value ...]` (R95). -/
def assembly (i : Instr) : String := mnemonic i ++ " " ++ operandText i

end Sys2Proof.Machine
end

