-- ==== Sys2Proof/Tests/Slice0.lean ====
section
/-!
SUPPORT. Tests. The expected values stand in the spec: its tables of the encoding (`30_encoding.md`), its worked examples T1
to T9 and its vectors V1 to V17 and P1 to P6 (`95_test_vectors.md`), named in each comment. The last section shows for every
statement with hypotheses a state and operands that meet them.
-/

namespace Sys2Proof.Tests

open Sys2Proof Sys2Proof.Machine

/-! ### Helpers -/

/-- A vector, written as the spec writes it. -/
def b (l : List Nat) : Bits := l.map (· == 1)

/-- A fresh Fibonacci engine with output index -1 and policy ZERO. -/
def engine (taps : List Nat) (v : Bits) : Engine := ⟨v, taps, .fib, -1, .zero, 0, none, none, [], v⟩

/-- The machine after power-on but for the standalone engine. -/
def withLfsr (e : Engine) : State := { State.reset with lfsr := some e }

/-- The state an instruction leaves (the state itself where it does not complete). -/
def after (i : Instr) (s : State) : State :=
  match exec i s with
  | .next s' => s'
  | .fault _ => s
  | .refused _ => s

/-- What an instruction answers. -/
def answer (i : Instr) (s : State) : Option Response := (after i s).response

/-- The standalone engine after an instruction. -/
def lfsrAfter (i : Instr) (e : Engine) : Option Engine := (after i (withLfsr e)).lfsr

/-- The state a step leaves. -/
def afterStep (s : State) : State :=
  match step s with
  | .next s' => s'
  | .fault _ => s
  | .refused _ => s

/-- Taps `[3,2]`, `111` (V1, V2). -/
def e32 : Engine := engine [3, 2] (b [1, 1, 1])
/-- Taps `[5,2]`, `11111` (V3, V9). -/
def e52 : Engine := engine [5, 2] (b [1, 1, 1, 1, 1])
/-- Taps `[4,3]`, `1001` (V13, V14, V15). -/
def e43 : Engine := engine [4, 3] (b [1, 0, 0, 1])
/-- A register longer than the largest tap: taps `[3,2]`, `11100` (V7 a). -/
def eLong : Engine := engine [3, 2] (b [1, 1, 1, 0, 0])
/-- The engine of V9 row 4: taps `[7,6]` on five cells. -/
def eBroken : Engine := { e52 with taps := [7, 6] }
/-- `e32` in the all-zero state. -/
def eZero : Engine := { e32 with state := b [0, 0, 0] }

/-- The A5/1 unit of V12 as built. -/
def a51Unit : A51 where
  r1 := engine [19, 18, 17, 14] (b [1, 1, 0, 1, 0, 1, 0, 1, 0, 1, 0, 1, 0, 1, 0, 1, 0, 1, 0])
  r2 := engine [22, 21] (b [1, 0, 0, 1, 0, 0, 1, 0, 0, 1, 0, 0, 1, 0, 0, 1, 0, 0, 1, 0, 0, 1])
  r3 := engine [23, 22, 21, 8] (b [1, 1, 1, 1, 1, 1, 1, 1, 1, 1, 1, 1, 1, 1, 0, 0, 0, 0, 0, 0, 0, 0, 0])
  cb := none
  count := 0
  outbit := none
  seq := []

/-- The Geffe unit of V13 as built. -/
def geffeUnit : Geffe := ⟨[e32, e52], e43, none, 0, none, []⟩
/-- The Geffe3 unit of V15 as built. -/
def geffe3Unit : Geffe3 := ⟨e32, engine [5, 2] (b [1, 0, 1, 1, 0]), e43, 0, none, []⟩

def withA51 (u : A51) : State := { State.reset with a51 := .built u }
def withGeffe (u : Geffe) : State := { State.reset with geffe := .built u (List.replicate (8 - u.c.length) none) }
def withGeffe3 (u : Geffe3) : State := { State.reset with geffe3 := .built u }

/-- The three composites staging the engines of V12, V13 and V15. -/
def staged : State where
  lfsr := none
  a51 := .staging ⟨some a51Unit.r1, some a51Unit.r2, some a51Unit.r3⟩
  geffe := .staging (some e43) #v[some e32, some e52, none, none, none, none, none, none]
  geffe3 := .staging ⟨some e32, some geffe3Unit.r2, some e43⟩
  host := []
  response := none
  draws := ⟨0, 0, 0, 0⟩
  cfg := .default

/-! ### Well-formedness: one ill-formed term for each check (R10, R81, R85, R87, R88) -/

theorem test_taps_not_ascending : (Instr.eSetPoly .lfsr [5, 2] false false).wellFormed = false := by decide
theorem test_taps_repeated : (Instr.eSetPoly .lfsr [2, 2] false false).wellFormed = false := by decide
theorem test_taps_below_one : (Instr.eNew .lfsr [0, 2] .allOnes .fibonacci (-1) .zero).wellFormed = false := by decide
theorem test_taps_above_mmax : (Instr.eNew .lfsr [2, 129] .allOnes .fibonacci (-1) .zero).wellFormed = false := by decide
theorem test_explicit_state_too_long :
    (Instr.eNew .lfsr [2, 5] (.explicit (List.replicate 129 true)) .fibonacci (-1) .zero).wellFormed = false := by
  simp [Instr.wellFormed, InitSpec.encodable, bitsEncodable]
theorem test_state_too_long : (Instr.eSetState .lfsr (List.replicate 129 true) false).wellFormed = false := by
  simp [Instr.wellFormed, bitsEncodable]
theorem test_oidx_too_high : (Instr.eNew .lfsr [2, 5] .allOnes .fibonacci 128 .zero).wellFormed = false := by decide
theorem test_oidx_too_low : (Instr.eSetOidx .lfsr (-129)).wellFormed = false := by decide
theorem test_k_too_large : ∀ i ∈ [Instr.eRun .lfsr 65536, .a51Run 65536, .geffeRun 65536, .geffe3Run 65536],
    i.wellFormed = false := by decide
theorem test_comps_too_many : (Instr.geffeBuild 16).wellFormed = false := by decide
theorem test_bounds_are_well_formed :
    (Instr.eNew .lfsr [1, 128] (.explicit (List.replicate 128 true)) .galois (-128) .one).wellFormed = true ∧
    (Instr.eSetOidx .lfsr 127).wellFormed = true ∧ (Instr.eRun .lfsr 65535).wellFormed = true ∧
    (Instr.geffeBuild 15).wellFormed = true := by
  refine ⟨?_, by decide, by decide, by decide⟩
  simp [Instr.wellFormed, InitSpec.encodable, bitsEncodable, tapsEncodable, oidxEncodable]

/-! ### Decoding: a word of every constructor, written out from the tables of R82, R83, R85 to R88 and R90 -/

theorem test_decode_e_new : decode ⟨0x0100FF00, b [0, 1, 0, 0, 1], []⟩ = .ok (.eNew .lfsr [2, 5] .allOnes .fibonacci (-1) .zero) := by decide
theorem test_decode_e_new_fields : decode ⟨0x01238019, b [0, 1, 1], b [1, 1, 1]⟩ = .ok (.eNew (.geffeC 2) [2, 3] (.explicit (b [1, 1, 1])) .galois (-128) .one) := by decide
theorem test_decode_e_new_random : decode ⟨0x01007F04, b [1, 1], []⟩ = .ok (.eNew .lfsr [1, 2] .random .fibonacci 127 .zero) := by decide
theorem test_decode_e_step : decode ⟨0x02110000, [], []⟩ = .ok (.eStep (.a51 .r1)) := by decide
theorem test_decode_e_run : decode ⟨0x0320FFFF, [], []⟩ = .ok (.eRun .geffeS 65535) := by decide
theorem test_decode_e_run_full : decode ⟨0x04280000, [], []⟩ = .ok (.eRunFull (.geffeC 7)) := by decide
theorem test_decode_e_reset : decode ⟨0x05330000, [], []⟩ = .ok (.eReset (.geffe3 .r3)) := by decide
theorem test_decode_e_set_poly : decode ⟨0x06000001, b [0, 0, 1, 0, 1], []⟩ = .ok (.eSetPoly .lfsr [3, 5] true false) := by decide
theorem test_decode_e_set_state : decode ⟨0x07120002, [], b [1, 0, 0, 1]⟩ = .ok (.eSetState (.a51 .r2) (b [1, 0, 0, 1]) true) := by decide
theorem test_decode_e_set_conf : decode ⟨0x08000003, [], []⟩ = .ok (.eSetConf .lfsr .neither3) := by decide
theorem test_decode_e_set_oidx : decode ⟨0x0900FB00, [], []⟩ = .ok (.eSetOidx .lfsr (-5)) := by decide
theorem test_decode_e_get_state : decode ⟨0x10130000, [], []⟩ = .ok (.eGetState (.a51 .r3)) := by decide
theorem test_decode_e_get_poly : decode ⟨0x11210000, [], []⟩ = .ok (.eGetPoly (.geffeC 0)) := by decide
theorem test_decode_e_get_seq : decode ⟨0x12310000, [], []⟩ = .ok (.eGetSeq (.geffe3 .r1)) := by decide
theorem test_decode_e_get_count : decode ⟨0x13320000, [], []⟩ = .ok (.eGetCount (.geffe3 .r2)) := by decide
theorem test_decode_e_get_period : decode ⟨0x14000000, [], []⟩ = .ok (.eGetPeriod .lfsr) := by decide
theorem test_decode_e_get_outbit : decode ⟨0x15000000, [], []⟩ = .ok (.eGetOutbit .lfsr) := by decide
theorem test_decode_e_get_fb : decode ⟨0x16000000, [], []⟩ = .ok (.eGetFb .lfsr) := by decide
theorem test_decode_a51_build : decode ⟨0x20100000, [], []⟩ = .ok .a51Build := by decide
theorem test_decode_a51_step : decode ⟨0x21100000, [], []⟩ = .ok (.a51Step) := by decide
theorem test_decode_a51_run : decode ⟨0x2210000C, [], []⟩ = .ok (.a51Run 12) := by decide
theorem test_decode_a51_reset : decode ⟨0x23100000, [], []⟩ = .ok (.a51Reset) := by decide
theorem test_decode_a51_get_seq : decode ⟨0x28100000, [], []⟩ = .ok (.a51GetSeq) := by decide
theorem test_decode_a51_get_count : decode ⟨0x29100000, [], []⟩ = .ok (.a51GetCount) := by decide
theorem test_decode_a51_get_outbit : decode ⟨0x2A100000, [], []⟩ = .ok (.a51GetOutbit) := by decide
theorem test_decode_a51_get_cb : decode ⟨0x2B100000, [], []⟩ = .ok (.a51GetCb) := by decide
theorem test_decode_geffe_build : decode ⟨0x20200008, [], []⟩ = .ok (.geffeBuild 8) := by decide
theorem test_decode_geffe_step : decode ⟨0x21200000, [], []⟩ = .ok (.geffeStep) := by decide
theorem test_decode_geffe_run : decode ⟨0x22200018, [], []⟩ = .ok (.geffeRun 24) := by decide
theorem test_decode_geffe_reset : decode ⟨0x23200000, [], []⟩ = .ok (.geffeReset) := by decide
theorem test_decode_geffe_get_seq : decode ⟨0x28200000, [], []⟩ = .ok (.geffeGetSeq) := by decide
theorem test_decode_geffe_get_count : decode ⟨0x29200000, [], []⟩ = .ok (.geffeGetCount) := by decide
theorem test_decode_geffe_get_outbit : decode ⟨0x2A200000, [], []⟩ = .ok (.geffeGetOutbit) := by decide
theorem test_decode_geffe_get_sel : decode ⟨0x2B200000, [], []⟩ = .ok (.geffeGetSel) := by decide
theorem test_decode_geffe3_build : decode ⟨0x20300000, [], []⟩ = .ok (.geffe3Build) := by decide
theorem test_decode_geffe3_step : decode ⟨0x21300000, [], []⟩ = .ok (.geffe3Step) := by decide
theorem test_decode_geffe3_run : decode ⟨0x22300018, [], []⟩ = .ok (.geffe3Run 24) := by decide
theorem test_decode_geffe3_reset : decode ⟨0x23300000, [], []⟩ = .ok (.geffe3Reset) := by decide
theorem test_decode_geffe3_get_seq : decode ⟨0x28300000, [], []⟩ = .ok (.geffe3GetSeq) := by decide
theorem test_decode_geffe3_get_count : decode ⟨0x29300000, [], []⟩ = .ok (.geffe3GetCount) := by decide
theorem test_decode_geffe3_get_outbit : decode ⟨0x2A300000, [], []⟩ = .ok (.geffe3GetOutbit) := by decide

/-- V17 and V8 rows 14 and 15: the reserved commands. -/
theorem test_decode_reserved :
    decode ⟨0x00000000, [], []⟩ = .error .unknownOpcode ∧ decode ⟨0x0A000000, [], []⟩ = .error .unknownOpcode ∧
    decode ⟨0x02400000, [], []⟩ = .error .reservedUnit ∧ decode ⟨0x02010000, [], []⟩ = .error .reservedSlot ∧
    decode ⟨0x02140000, [], []⟩ = .error .reservedSlot ∧ decode ⟨0x21110000, [], []⟩ = .error .reservedSlot ∧
    decode ⟨0x21000000, [], []⟩ = .error .reservedUnit ∧ decode ⟨0x2B300000, [], []⟩ = .error .unknownOpcode ∧
    decode ⟨0x02000001, [], []⟩ = .error .mustBeZero ∧ decode ⟨0x06000004, [], []⟩ = .error .mustBeZero ∧
    decode ⟨0x02000000, [true], []⟩ = .error .unexpectedVector ∧
    decode ⟨0x0100FF0C, b [0, 1, 0, 0, 1], []⟩ = .error .reservedInit ∧
    decode ⟨0x0100FF00, b [0, 1, 0, 0, 1], b [1, 1, 1, 1, 1]⟩ = .error .unexpectedVector := by decide

/-- R97: the encoder writes the worked encodings. -/
theorem test_encode_worked :
    encode (.eNew .lfsr [2, 3] (.explicit (b [1, 1, 1])) .galois 0 .one) = ⟨0x01000019, b [0, 1, 1], b [1, 1, 1]⟩ ∧
    encode (.eSetPoly .lfsr [3, 5] true false) = ⟨0x06000001, b [0, 0, 1, 0, 1], []⟩ ∧
    encode (.geffe3Run 24) = ⟨0x22300018, [], []⟩ := by decide

/-- A row of the table whose word has no vectors is the first command performed (log entry 13). -/
theorem test_fetch_word :
    decodeTableWord 32 0x0300000E = some (.eRun .lfsr 14) ∧
    (afterStep (State.reset.withFetchWord 32 0x0300000E)).response = some (.err .notConstructed) := by decide

/-- V17: a reserved command answers 7; A51_STEP on an unbuilt unit answers 8. -/
theorem test_step_answers :
    (afterStep { State.reset with host := [⟨0x02400000, [], []⟩] }).response.map Response.code = some 7 ∧
    (afterStep { State.reset with host := [⟨0x21100000, [], []⟩] }).response.map Response.code = some 8 := by decide

/-- With no command on the port a step changes nothing (log entry 2). -/
theorem test_step_idle : step State.reset = .next State.reset := rfl

/-! ### E_NEW (V8) -/

def new52 (init : InitSpec) (conf : ConfTag) (oidx : Int) : Instr := .eNew .lfsr [2, 5] init conf oidx .zero

/-- V8 rows 3, 7, 11, 13. -/
theorem test_new_succeeds :
    (after (new52 .allOnes .fibonacci (-1)) .reset).lfsr = some e52 ∧
    ((after (new52 (.explicit (b [1, 0, 1, 1, 0, 1, 1])) .fibonacci (-1)) .reset).lfsr.map Engine.period) = some 127 ∧
    answer (new52 .allOnes .fibonacci (-5)) .reset = some (.ok .nothing) ∧
    ((after (.eNew .lfsr [1, 2] .allOnes .fibonacci (-1) .zero) .reset).lfsr.map Engine.state) = some (b [1, 1]) := by decide

/-- V8 rows 1, 2, 4 to 6, 8 to 10, 12, 16. -/
theorem test_new_fails :
    answer (.eNew .lfsr [5] .allOnes .fibonacci (-1) .zero) .reset = some (.err .invalidPolynomial) ∧
    answer (.eNew .lfsr [] .allOnes .fibonacci (-1) .zero) .reset = some (.err .invalidPolynomial) ∧
    answer (new52 (.explicit (b [0, 0, 0, 0, 0])) .fibonacci (-1)) .reset = some (.err .invalidState) ∧
    answer (new52 (.explicit (b [1, 0, 1])) .fibonacci (-1)) .reset = some (.err .invalidState) ∧
    answer (new52 (.explicit (b [1, 0, 1])) .galois (-1)) .reset = some (.err .invalidState) ∧
    answer (new52 (.explicit (b [1, 0, 1, 1, 0, 1, 1])) .galois (-1)) .reset = some (.err .invalidState) ∧
    answer (new52 .allOnes .neither2 (-1)) .reset = some (.err .invalidConfiguration) ∧
    answer (new52 .allOnes .fibonacci 5) .reset = some (.err .invalidOutputIndex) ∧
    answer (new52 .allOnes .fibonacci (-6)) .reset = some (.err .invalidOutputIndex) ∧
    answer (.eNew .lfsr [5] .allOnes .neither2 (-1) .zero) .reset = some (.err .invalidPolynomial) := by decide

/-! ### Stepping (V1 to V7) -/

/-- V1: the first step, and the run of 14 with what it leaves. -/
theorem test_step_fib : (lfsrAfter (.eStep .lfsr) e32).map (fun e => (e.state, e.fb)) = some (b [0, 1, 1], some false) := by decide
theorem test_run_fib :
    lfsrAfter (.eRun .lfsr 14) e32 = some { e32 with
      count := 14, fb := some true, outbit := some false, seq := b [1, 1, 1, 0, 0, 1, 0, 1, 1, 1, 0, 0, 1, 0] } := by decide

/-- V2: the first two Galois steps. -/
theorem test_step_gal :
    (lfsrAfter (.eStep .lfsr) { e32 with conf := .gal }).map (fun e => (e.state, e.fb)) = some (b [1, 0, 1], some true) ∧
    (lfsrAfter (.eRun .lfsr 2) { e32 with conf := .gal }).map Engine.state = some (b [0, 0, 1]) := by decide

/-- V1 under ONE: the output is sampled after the shift. -/
theorem test_run_one :
    answer (.eRun .lfsr 7) (withLfsr { e32 with policy := .one }) = some (.ok (.bits (b [1, 1, 0, 0, 1, 0, 1]))) := by decide

/-- V3: the full periods of `[5,2]` in both configurations. -/
theorem test_run_full :
    answer (.eRunFull .lfsr) (withLfsr e52) = some (.ok (.bits (b [1, 1, 1, 1, 1, 0, 0, 1, 1, 0, 1, 0, 0, 1, 0, 0, 0, 0, 1, 0,
      1, 0, 1, 1, 1, 0, 1, 1, 0, 0, 0]))) ∧
    answer (.eRunFull .lfsr) (withLfsr { e52 with conf := .gal }) = some (.ok (.bits (b [1, 1, 1, 0, 0, 1, 1, 0, 1, 0, 0, 1, 0,
      0, 0, 0, 1, 0, 1, 0, 1, 1, 1, 0, 1, 1, 0, 0, 0, 1, 1]))) := by decide

/-- V6: an output index in the middle of the register. -/
theorem test_run_oidx :
    answer (.eRun .lfsr 10) (withLfsr { e52 with oidx := 2 }) = some (.ok (.bits (b [1, 1, 1, 0, 0, 1, 1, 0, 1, 0]))) ∧
    answer (.eRun .lfsr 10) (withLfsr { e52 with oidx := -5 }) = some (.ok (.bits (b [1, 0, 0, 1, 1, 0, 1, 0, 0, 1]))) := by decide

/-- V7 (a): a register longer than the largest tap. V7 (b), (c): the all-zero state. -/
theorem test_run_corners :
    answer (.eRun .lfsr 12) (withLfsr eLong) = some (.ok (.bits (b [0, 0, 1, 1, 1, 0, 0, 1, 0, 1, 1, 1]))) ∧
    (lfsrAfter (.eStep .lfsr) (engine [2, 1] (b [0, 0, 1]))).map Engine.state = some (b [0, 0, 0]) ∧
    answer (.eStep .lfsr) (withLfsr eZero) = some (.ok (.bit false)) := by decide

/-! ### Reset and mutators (V9, P2) -/

/-- P2 line 11: reset keeps the mutated fields and restores the initial state. -/
theorem test_reset :
    lfsrAfter (.eReset .lfsr) { e52 with
      state := b [0, 1, 0, 1, 0], taps := [5, 3], conf := .gal, oidx := 0, count := 9, fb := some false,
      outbit := some false, seq := b [1, 1, 1, 1, 0, 0, 1, 1, 0] } =
    some { e52 with taps := [5, 3], conf := .gal, oidx := 0 } := by decide

/-- V9 rows 1, 3, 4. -/
theorem test_set_poly :
    lfsrAfter (.eSetPoly .lfsr [3, 5] false false) e52 = some { e52 with taps := [5, 3] } ∧
    lfsrAfter (.eSetPoly .lfsr [3, 4] false true) e52 = some { e52 with taps := [4, 3] } ∧
    answer (.eStep .lfsr) (after (.eSetPoly .lfsr [6, 7] false true) (withLfsr e52)) = some (.err .inconsistent) := by decide

/-- V9 rows 2, 5. -/
theorem test_set_poly_fails :
    answer (.eSetPoly .lfsr [3, 4] false false) (withLfsr e52) = some (.err .incompatibleMutation) ∧
    answer (.eSetPoly .lfsr [5] false false) (withLfsr e52) = some (.err .invalidPolynomial) := by decide

/-- V9 rows 6, 10. -/
theorem test_set_state :
    lfsrAfter (.eSetState .lfsr (b [1, 0, 0, 0, 0]) false) e52 = some { e52 with state := b [1, 0, 0, 0, 0] } ∧
    answer (.eGetPeriod .lfsr) (after (.eSetState .lfsr (b [1, 0, 1, 1, 0, 1, 1]) true) (withLfsr e52)) =
      some (.ok (.nat 127)) := by decide

/-- V9 rows 7, 8, 9. -/
theorem test_set_state_fails :
    answer (.eSetState .lfsr (b [0, 0, 0, 0, 0]) false) (withLfsr e52) = some (.err .invalidState) ∧
    answer (.eSetState .lfsr (b [1, 0, 1]) false) (withLfsr e52) = some (.err .incompatibleMutation) ∧
    answer (.eSetState .lfsr (b [1, 0, 1]) true) (withLfsr e52) = some (.err .invalidState) := by decide

/-- V9 rows 11, 12, 13. -/
theorem test_set_conf :
    lfsrAfter (.eSetConf .lfsr .galois) e52 = some { e52 with conf := .gal } ∧
    answer (.eSetConf .lfsr .neither3) (withLfsr e52) = some (.err .invalidConfiguration) ∧
    answer (.eSetConf .lfsr .galois) (withLfsr { e52 with state := b [1, 0, 1, 1, 0, 1, 1] }) = some (.err .invalidState) := by
  decide

/-- V9 rows 14, 15. -/
theorem test_set_oidx :
    lfsrAfter (.eSetOidx .lfsr (-5)) e52 = some { e52 with oidx := -5 } ∧
    answer (.eSetOidx .lfsr 5) (withLfsr e52) = some (.err .invalidOutputIndex) := by decide

/-- V9 row 16. -/
theorem test_engine_accessors :
    [Instr.eGetState .lfsr, .eGetPoly .lfsr, .eGetSeq .lfsr, .eGetCount .lfsr, .eGetPeriod .lfsr, .eGetOutbit .lfsr,
      .eGetFb .lfsr].map (answer · (withLfsr e52)) =
    [some (.ok (.bits (b [1, 1, 1, 1, 1]))), some (.ok (.taps [5, 2])), some (.ok (.bits [])), some (.ok (.nat 0)),
      some (.ok (.nat 31)), some (.ok (.optBit none)), some (.ok (.optBit none))] := by decide

/-- V9 row 16: the mask of E_GET_POLY. -/
theorem test_poly_mask : maskOfTaps [5, 2] = b [0, 1, 0, 0, 1] := by decide

/-! ### The A5/1 unit (P3, V11, V12) -/

/-- P3 lines 4 and 6, and the built unit with its fields. -/
theorem test_a51_build :
    (after .a51Build staged).a51Built = some a51Unit ∧
    answer .a51Build { staged with a51 := .staging ⟨some a51Unit.r1, some a51Unit.r2, none⟩ } =
      some (.err .invalidComposite) := by decide

/-- V12 cycle 0: nobody steps. -/
theorem test_a51_first : (after .a51Step (withA51 a51Unit)).a51Built =
    some { a51Unit with cb := some (false, false, true), count := 1, outbit := some true, seq := [true] } := by decide

/-- V12 cycle 1: R1 and R2 step. -/
theorem test_a51_later :
    (after .a51Step (withA51 { a51Unit with count := 1 })).a51Built.map (fun u => (u.r1.count, u.r2.count, u.r3.count)) =
      some (1, 1, 0) ∧
    answer .a51Step (withA51 { a51Unit with count := 1 }) = some (.ok (.bit true)) := by decide

/-- V12: twelve cycles. -/
theorem test_a51_run :
    answer (.a51Run 12) (withA51 a51Unit) = some (.ok (.bits (b [1, 1, 0, 0, 1, 1, 0, 0, 1, 0, 0, 0]))) ∧
    (after (.a51Run 12) (withA51 a51Unit)).a51Built.map (fun u => (u.r1.state, u.r1.count, u.r2.count, u.r3.count)) =
      some (b [0, 0, 0, 0, 0, 0, 0, 0, 0, 0, 1, 1, 0, 1, 0, 1, 0, 1, 0], 10, 8, 6) := by decide

/-- R205: a reset restores the engines and clears the unit's own fields. -/
theorem test_a51_reset :
    (after .a51Reset (withA51 { a51Unit with
      r1 := { a51Unit.r1 with state := a51Unit.r2.state, count := 3 }, count := 4, cb := some (true, true, true) })).a51Built =
    some a51Unit := by decide

/-- V12: the accessors after cycle 0. -/
theorem test_a51_accessors :
    [Instr.a51GetSeq, .a51GetCount, .a51GetOutbit, .a51GetCb].map (answer · (after .a51Step (withA51 a51Unit))) =
    [some (.ok (.bits [true])), some (.ok (.nat 1)), some (.ok (.optBit (some true))),
      some (.ok (.optTriple (some (false, false, true))))] := by decide

/-! ### The Geffe unit (V13, V14) -/

theorem test_geffe_build :
    (after (.geffeBuild 2) staged).geffeBuilt = some geffeUnit ∧
    answer (.geffeBuild 4) staged = some (.err .invalidComposite) ∧
    answer (.geffeBuild 3) staged = some (.err .invalidComposite) := by decide

/-- V14 cycle 0: the bits 0, 1 give index 1 with the first bit the most significant, 2 with it the least. -/
def geffe4 : Geffe := ⟨[e32, e52, e43, engine [3, 1] (b [0, 0, 1])], engine [5, 3] (b [1, 1, 1, 1, 0]), none, 0, none, []⟩

theorem test_geffe_step_index :
    (after .geffeStep (withGeffe geffe4)).geffeBuilt.map Geffe.sel = some (some 1) ∧
    (after .geffeStep { withGeffe geffe4 with cfg := { Config.default with geffeSelMsbFirst := false } }).geffeBuilt.map
      Geffe.sel = some (some 2) := by decide

/-- V14 cycle 0, and a later cycle from the same registers: only then the components step. -/
theorem test_geffe_step :
    (after .geffeStep (withGeffe geffe4)).geffeBuilt.map (fun u => u.c.map Engine.count) = some [0, 0, 0, 0] ∧
    (after .geffeStep (withGeffe { geffe4 with count := 1 })).geffeBuilt.map (fun u => u.c.map Engine.state) =
      some [b [0, 1, 1], b [0, 1, 1, 1, 1], b [1, 1, 0, 0], b [1, 0, 0]] := by decide

/-- V13 and V14 (`K = 1`). -/
theorem test_geffe_run :
    answer (.geffeRun 24) (withGeffe geffeUnit) =
      some (.ok (.bits (b [1, 1, 1, 1, 1, 1, 0, 1, 1, 0, 1, 0, 1, 0, 1, 0, 1, 0, 1, 0, 0, 0, 1, 1]))) ∧
    answer (.geffeRun 8) (withGeffe ⟨[e32], e43, none, 0, none, []⟩) = some (.ok (.bits (b [1, 1, 1, 0, 0, 1, 0, 1]))) := by
  decide

/-- R225. -/
theorem test_geffe_reset : (after .geffeReset (after .geffeStep (withGeffe geffeUnit))).geffeBuilt = some geffeUnit := by decide

/-- V13: the unit after cycle 0, in which `S` drew 1. -/
theorem test_geffe_accessors :
    [Instr.geffeGetSeq, .geffeGetCount, .geffeGetOutbit, .geffeGetSel].map (answer · (after .geffeStep (withGeffe geffeUnit))) =
    [some (.ok (.bits [true])), some (.ok (.nat 1)), some (.ok (.optBit (some true))), some (.ok (.optNat (some 1)))] := by
  decide

/-! ### The Geffe3 unit (V15) -/

theorem test_geffe3_build : (after .geffe3Build staged).geffe3Built = some geffe3Unit := by decide

/-- Cycle 0 steps no engine, a later one steps all three. -/
theorem test_geffe3_step :
    (after .geffe3Step (withGeffe3 geffe3Unit)).geffe3Built =
      some { geffe3Unit with count := 1, outbit := some false, seq := [false] } ∧
    (after .geffe3Step (withGeffe3 { geffe3Unit with count := 1 })).geffe3Built.map
      (fun u => (u.r1.count, u.r2.count, u.r3.count)) = some (1, 1, 1) := by decide

/-- V15 under both combiners. -/
theorem test_geffe3_run :
    answer (.geffe3Run 12) (withGeffe3 geffe3Unit) = some (.ok (.bits (b [0, 1, 1, 0, 1, 0, 0, 1, 0, 0, 0, 0]))) ∧
    answer (.geffe3Run 12) { withGeffe3 geffe3Unit with cfg := { Config.default with geffe3Combiner := .published } } =
      some (.ok (.bits (b [0, 1, 1, 1, 1, 0, 1, 1, 0, 0, 1, 1]))) := by decide

/-- R242. -/
theorem test_geffe3_reset : (after .geffe3Reset (after (.geffe3Run 3) (withGeffe3 geffe3Unit))).geffe3Built = some geffe3Unit := by
  decide

theorem test_geffe3_accessors :
    [Instr.geffe3GetSeq, .geffe3GetCount, .geffe3GetOutbit].map (answer · (after .geffe3Step (withGeffe3 geffe3Unit))) =
    [some (.ok (.bits [false])), some (.ok (.nat 1)), some (.ok (.optBit (some false)))] := by decide

/-- R259, log entry 7: an engine resized before the build loses its consistency in a reset of the composite; the cycles go on
without its step, and under AS_DOCUMENTED they emit its tap. -/
theorem test_reset_after_resize :
    let short : Engine := { e52 with initState := b [1, 1, 1] }
    let s := after .geffe3Reset (withGeffe3 { geffe3Unit with r2 := short })
    ¬(Engine.reset short).Consistent ∧ answer (.geffe3Run 2) s = some (.ok (.bits (b [1, 1]))) ∧
    (after (.geffe3Run 2) s).geffe3Built.map (fun u => (u.r1.count, u.r2, u.r3.count)) = some (1, Engine.reset short, 1) := by
  decide

/-! ### Reference functions (V4, V5, V10) -/

theorem test_image : image [5, 2] = [5, 3] ∧ image [5, 3] = [5, 2] ∧ image [19, 18, 17, 14] = [19, 5, 2, 1] ∧
    image [5, 4, 3, 2] = [5, 3, 2, 1] := by decide

/-- R181, with the full period `1110010` of V1 as data; and R135 on an engine that cannot run. -/
theorem test_periodicity :
    (checkPeriodicity e32).1 = ⟨true, b [1, 1, 1, 0, 0, 1, 0], b [1, 1, 1, 0, 0, 1, 0]⟩ ∧
    (checkPeriodicity e32).2.count = 14 ∧ (checkPeriodicity eBroken).2 = eBroken := by decide

/-- V10: the period `1110010` of V1. -/
theorem test_properties :
    (List.range 8).map (autocorrNumerator (b [1, 1, 1, 0, 0, 1, 0])) = [7, -1, -1, -1, -1, -1, -1, 7] ∧
    checkRunLength (b [1, 1, 1, 0, 0, 1, 0]) = (true, [2, 1, 1]) ∧
    checkBalance (b [1, 1, 1, 0, 0, 1, 0]) = ⟨true, 4, 3⟩ := by decide

/-- R188, D31: at an even length too a tolerance below `2/T` makes the integer test, and `A(1) = -2`. -/
theorem test_even_length :
    autocorrNumerator (b [0, 1]) 1 = -2 ∧ (checkAutocorrelation (1 / 2) (b [0, 1])).pass = false := by
  have ha : autocorrNumerator (b [0, 1]) 1 = -2 := by decide
  have hl : (b [0, 1]).length = 2 := rfl
  refine ⟨ha, ?_⟩
  norm_num [checkAutocorrelation, shiftPasses, hl, ha]

/-! ### Witnesses: for every statement with hypotheses, a state and operands that meet them -/

theorem e52_wf : e52.Wf := by constructor <;> decide
theorem eLong_wf : eLong.Wf := by constructor <;> decide

/-- The taps `[5,2]` as an operand. -/
theorem taps52 : PolyValid [2, 5] ∧ IsMaxTap [2, 5] 5 := by unfold PolyValid IsMaxTap; decide
theorem taps43 : PolyValid [3, 4] ∧ IsMaxTap [3, 4] 4 := by unfold PolyValid IsMaxTap; decide
theorem taps76 : PolyValid [6, 7] ∧ IsMaxTap [6, 7] 7 := by unfold PolyValid IsMaxTap; decide

theorem witness_encodedInstructionsDecodeBack :
    (Instr.eNew (.geffeC 7) [1, 128] (.explicit (b [0, 1])) .neither3 (-128) .one).wellFormed = true := by decide

/-- Also for `DecodingLosesNoBit` and `DecodedHeadersMatchTheirTableRow`; the mask ends with an absent tap. -/
theorem witness_decodedInstructionsAreWellFormed :
    decode ⟨0x01007F1A, b [1, 1, 0], b [1, 0]⟩ = .ok (.eNew .lfsr [1, 2] (.explicit (b [1, 0])) .neither2 127 .one) := by decide

theorem witness_stepPerformsTheDecodedCommand :
    let s := { State.reset with host := [⟨0x0300FFFF, [], []⟩] }
    s.host = [⟨0x0300FFFF, [], []⟩] ∧ decode ⟨0x0300FFFF, [], []⟩ = .ok (.eRun .lfsr 65535) := by decide

/-- One command for each case of R91. -/
theorem witness_reservedCommandsAnswerInvalidCommand :
    ReservedEncoding ⟨0x17000000, [], []⟩ ∧ ReservedEncoding ⟨0x02400000, [], []⟩ ∧ ReservedEncoding ⟨0x02290000, [], []⟩ ∧
    ReservedEncoding ⟨0x02008000, [], []⟩ ∧ ReservedEncoding ⟨0x0100000C, [], []⟩ ∧ ReservedEncoding ⟨0x02000000, [false], []⟩ ∧
    ReservedEncoding ⟨0x01000004, [], [true]⟩ :=
  ⟨.inl (by decide), .inr (.inl (by decide)), .inr (.inr (.inl (by unfold targetAllowed; decide))),
    .inr (.inr (.inr (.inl (by decide)))), .inr (.inr (.inr (.inr (.inl (by decide))))),
    .inr (.inr (.inr (.inr (.inr (.inl (by decide)))))), .inr (.inr (.inr (.inr (.inr (.inr (by decide))))))⟩

/-- A Fibonacci engine with a register longer than its largest tap, at the lowest output index. -/
theorem witness_newMakesTheEngine_fibonacci :
    State.reset.owned .lfsr = false ∧ (PolyValid [2, 5] ∧ IsMaxTap [2, 5] 5) ∧ true ∈ b [0, 0, 0, 0, 0, 0, 1] ∧
    5 ≤ (b [0, 0, 0, 0, 0, 0, 1]).length ∧ (ConfTag.fibonacci = .galois → (b [0, 0, 0, 0, 0, 0, 1]).length = 5) ∧
    -((b [0, 0, 0, 0, 0, 0, 1]).length : Int) ≤ -7 ∧ (-7 : Int) ≤ ((b [0, 0, 0, 0, 0, 0, 1]).length : Int) - 1 :=
  ⟨rfl, taps52, by decide, by decide, by decide, by decide, by decide⟩

/-- A Galois engine in a slot of an unbuilt unit, all-ones, at the highest output index. -/
theorem witness_newMakesTheEngine_galois :
    State.reset.owned (.geffeC 7) = false ∧ (PolyValid [2, 5] ∧ IsMaxTap [2, 5] 5) ∧ true ∈ List.replicate 5 true ∧
    5 ≤ (List.replicate 5 true).length ∧ (ConfTag.galois = .galois → (List.replicate 5 true).length = 5) ∧
    -((List.replicate 5 true).length : Int) ≤ 4 ∧ (4 : Int) ≤ ((List.replicate 5 true).length : Int) - 1 :=
  ⟨rfl, taps52, by decide, by decide, by decide, by decide, by decide⟩

/-- One input for each clause. -/
theorem witness_newReportsTheFirstFailedCheck :
    State.reset.owned .lfsr = false ∧ ¬PolyValid [5] ∧ ¬PolyValid [5, 5] ∧ ¬PolyValid [0, 5] ∧
    (PolyValid [2, 5] ∧ IsMaxTap [2, 5] 5) ∧ true ∉ b [0, 0, 0, 0, 0] ∧
    (true ∈ b [1, 0, 0, 0] ∧ (b [1, 0, 0, 0]).length < 5) ∧
    (true ∈ b [1, 0, 0, 0, 0, 0] ∧ ConfTag.galois = .galois ∧ (b [1, 0, 0, 0, 0, 0]).length ≠ 5) ∧
    (true ∈ b [1, 0, 0, 0, 0] ∧ 5 ≤ (b [1, 0, 0, 0, 0]).length ∧ (-6 : Int) < -((b [1, 0, 0, 0, 0]).length : Int) ∧
      ((b [1, 0, 0, 0, 0]).length : Int) - 1 < 5) :=
  ⟨rfl, by unfold PolyValid; decide, by unfold PolyValid; decide, by unfold PolyValid; decide, taps52, by decide, by decide,
    by decide, by decide⟩

/-- Also for `RunIsStepsInOrder`, `RunFullRunsTheNominalPeriod`, `PoliciesDifferByOneSample`,
`ResetRestoresTheInitialState`, `SetOidxMovesTheOutput` and `EngineAccessorsReturnTheirField`, whose hypotheses are among
these. The register is longer than the largest tap. -/
theorem witness_fibonacciStepShiftsTowardTheOutput :
    (withLfsr eLong).owned .lfsr = false ∧ (withLfsr eLong).engine .lfsr = some eLong ∧ eLong.Consistent ∧ eLong.conf = .fib := by
  decide

theorem witness_galoisStepRotatesAndInjects :
    let e : Engine := { e52 with conf := .gal, policy := .one }
    (withLfsr e).owned .lfsr = false ∧ (withLfsr e).engine .lfsr = some e ∧ e.Consistent ∧ e.conf = .gal ∧
      e.taps.Pairwise (· > ·) := by decide

theorem witness_inconsistentEnginesAreNotStepped :
    (withLfsr eBroken).owned .lfsr = false ∧ (withLfsr eBroken).engine .lfsr = some eBroken ∧ ¬eBroken.Consistent := by decide

theorem witness_allZeroStateIsAbsorbing :
    (withLfsr eZero).owned .lfsr = false ∧ (withLfsr eZero).engine .lfsr = some eZero ∧ eZero.Consistent ∧ true ∉ eZero.state := by
  decide

/-- In both configurations. -/
theorem witness_stepIsReversibleWhereLengthIsATap :
    (State.reset.owned .lfsr = false ∧ ({ e52 with state := b [0, 0, 0, 0, 1] } : Engine).Consistent ∧
      e52.taps.Pairwise (· > ·) ∧ (b [1, 0, 0, 0, 1]).length = (b [0, 0, 0, 0, 1]).length ∧ (b [0, 0, 0, 0, 1]).length ∈ e52.taps) ∧
    ({ e52 with conf := .gal, state := b [0, 0, 0, 0, 1] } : Engine).Consistent := by decide

theorem witness_stepIsLinear :
    State.reset.owned .lfsr = false ∧ ({ eLong with state := b [1, 0, 1, 1, 0] } : Engine).Consistent ∧
      (b [0, 1, 1, 0, 0]).length = (b [1, 0, 1, 1, 0]).length := by decide

theorem witness_resetUndoesAnyRun :
    (withLfsr e52).owned .lfsr = false ∧ (withLfsr e52).engine .lfsr = some e52 ∧ e52.Consistent ∧ e52.state = e52.initState ∧
      e52.count = 0 ∧ e52.fb = none ∧ e52.outbit = none ∧ e52.seq = [] := by decide

/-- One operand for each clause: not a polynomial, another length, the same length, another length with `enforce`. -/
theorem witness_setPolyReplacesTheTaps :
    (withLfsr e52).owned .lfsr = false ∧ (withLfsr e52).engine .lfsr = some e52 ∧ ¬PolyValid [5] ∧
    (PolyValid [3, 4] ∧ IsMaxTap [3, 4] 4 ∧ 4 ≠ e52.len) ∧ (PolyValid [2, 5] ∧ IsMaxTap [2, 5] 5 ∧ 5 = e52.len) :=
  ⟨rfl, rfl, by unfold PolyValid; decide, ⟨taps43.1, taps43.2, by decide⟩, taps52.1, taps52.2, by decide⟩

theorem witness_enforcedResizeTakesTwoCommands :
    (withLfsr e52).owned .lfsr = false ∧ (withLfsr e52).engine .lfsr = some e52 ∧ e52.Consistent ∧
    (PolyValid [6, 7] ∧ IsMaxTap [6, 7] 7) ∧ e52.len < 7 ∧ (b [0, 0, 0, 0, 0, 0, 1]).length = 7 ∧
    true ∈ b [0, 0, 0, 0, 0, 0, 1] :=
  ⟨rfl, rfl, by decide, taps76, by decide, by decide, by decide⟩

/-- One vector for each clause, at the bounds of the output index -4. -/
theorem witness_setStateReplacesTheRegister :
    let e : Engine := { e32 with state := b [1, 1, 1, 0, 0], oidx := -4 }
    (withLfsr e).owned .lfsr = false ∧ (withLfsr e).engine .lfsr = some e ∧ e.Wf ∧
    true ∉ b [0, 0, 0] ∧ (true ∈ b [1, 0, 0, 0] ∧ (b [1, 0, 0, 0]).length ≠ e.len) ∧
    (true ∈ b [1, 0] ∧ (b [1, 0]).length < e.taps.headD 0) ∧
    (true ∈ b [1, 0, 0] ∧ e.taps.headD 0 ≤ (b [1, 0, 0]).length ∧ e.oidx < -((b [1, 0, 0]).length : Int)) ∧
    (true ∈ b [1, 0, 0, 0] ∧ e.taps.headD 0 ≤ (b [1, 0, 0, 0]).length ∧ (e.conf = .gal → (b [1, 0, 0, 0]).length = e.taps.headD 0) ∧
      -((b [1, 0, 0, 0]).length : Int) ≤ e.oidx ∧ e.oidx ≤ ((b [1, 0, 0, 0]).length : Int) - 1) :=
  ⟨rfl, rfl, by constructor <;> decide, by decide, by decide, by decide, by decide, by decide⟩

/-- An engine that may switch to Galois, and one that may not. -/
theorem witness_setConfSwitchesTheTransition :
    ((withLfsr e52).owned .lfsr = false ∧ (withLfsr e52).engine .lfsr = some e52 ∧ e52.Wf ∧ e52.taps.head? = some e52.len) ∧
    (withLfsr eLong).engine .lfsr = some eLong ∧ eLong.Wf ∧ eLong.taps.head? ≠ some eLong.len :=
  ⟨⟨rfl, rfl, e52_wf, by decide⟩, rfl, eLong_wf, by decide⟩

/-- The bounds of the index. -/
theorem witness_setOidxMovesTheOutput :
    (-6 : Int) < -(e52.len : Int) ∧ (e52.len : Int) - 1 < 5 ∧ -(e52.len : Int) ≤ -5 ∧ (4 : Int) ≤ (e52.len : Int) - 1 := by decide

theorem witness_polynomialMaskNamesTheTaps : e52.Wf := e52_wf

/-- Also for the clauses of `BuiltCompositesAreClosedToWrites` about the builds. -/
theorem witness_compositeAccessorsReturnTheirField :
    (withA51 a51Unit).a51Built = some a51Unit ∧ (withGeffe geffeUnit).geffeBuilt = some geffeUnit ∧
    (withGeffe3 geffe3Unit).geffe3Built = some geffe3Unit := ⟨rfl, rfl, rfl⟩

/-- An empty slot, an empty slot of a built unit, and the three unbuilt units. -/
theorem witness_missingUnitsAnswerNotConstructed :
    (State.reset.engine (.a51 .r1) = none ∧ State.reset.owned (.a51 .r1) = false) ∧
    (withGeffe geffeUnit).engine (.geffeC 7) = none ∧
    State.reset.a51Built = none ∧ State.reset.geffeBuilt = none ∧ State.reset.geffe3Built = none :=
  ⟨⟨rfl, rfl⟩, by decide, rfl, rfl, rfl⟩

theorem witness_builtCompositesAreClosedToWrites :
    (withA51 a51Unit).owned (.a51 .r2) = true ∧ (withGeffe geffeUnit).owned .geffeS = true ∧
    (withGeffe geffeUnit).owned (.geffeC 7) = true ∧ (withGeffe3 geffe3Unit).owned (.geffe3 .r3) = true := ⟨rfl, rfl, rfl, rfl⟩

/-- Engines that fit, and a slot that is empty. -/
theorem witness_a51BuildAdmitsItsThreeEngines :
    (staged.a51 = .staging ⟨some a51Unit.r1, some a51Unit.r2, some a51Unit.r3⟩ ∧
      (a51Unit.r1.Consistent ∧ a51Unit.r1.state.length = 19 ∧ a51Unit.r1.taps = staged.cfg.a51Taps1 ∧ a51Unit.r1.conf = .fib) ∧
      (a51Unit.r2.Consistent ∧ a51Unit.r2.state.length = 22 ∧ a51Unit.r2.taps = staged.cfg.a51Taps2 ∧ a51Unit.r2.conf = .fib) ∧
      a51Unit.r3.Consistent ∧ a51Unit.r3.state.length = 23 ∧ a51Unit.r3.taps = staged.cfg.a51Taps3 ∧ a51Unit.r3.conf = .fib) ∧
    State.reset.a51 = .staging ⟨none, none, none⟩ := by decide

theorem witness_a51FirstCycleStepsNoEngine :
    (withA51 a51Unit).a51 = .built a51Unit ∧ a51Unit.count = 0 ∧ 8 < a51Unit.r1.len ∧ 10 < a51Unit.r2.len ∧ 10 < a51Unit.r3.len ∧
    ∀ r, -((a51Unit.get r).len : Int) ≤ (a51Unit.get r).oidx ∧ (a51Unit.get r).oidx ≤ ((a51Unit.get r).len : Int) - 1 :=
  ⟨rfl, rfl, by decide, by decide, by decide, fun r => by cases r <;> decide⟩

/-- Also for `CompositeRunsAreCyclesInOrder` and `CompositeCyclesNeverErr`. The clocking bits are 0, 0, 1: R1 and R2 step and R3 does not. -/
theorem witness_a51LaterCyclesStepTheMajority :
    let u := { a51Unit with count := 1 }
    (withA51 u).a51 = .built u ∧ 0 < u.count ∧ u.r1.Consistent ∧ u.r2.Consistent ∧ u.r3.Consistent ∧
      8 < u.r1.len ∧ 10 < u.r2.len ∧ 10 < u.r3.len ∧
      u.r1.state[8]? = some false ∧ u.r2.state[10]? = some false ∧ u.r3.state[10]? = some true := by decide

/-- `K` = 1 and 2 fit the staged engines; 4 does not (an empty slot), nor 0 and 3 (no powers of two). -/
theorem witness_geffeBuildTakesAPowerOfTwo :
    let comps : Vector (Option Engine) kMax := #v[some e32, some e52, none, none, none, none, none, none]
    staged.geffe = .staging (some e43) comps ∧ e43.Consistent ∧
    (1 = 2 ^ 0 ∧ comps.toList.take 1 = [e32].map some) ∧
    (2 = 2 ^ 1 ∧ comps.toList.take 2 = [e32, e52].map some ∧ ∀ x ∈ [e32, e52], x.Consistent) ∧
    none ∈ comps.toList.take 4 := by decide

/-- Also for `CompositeRunsAreCyclesInOrder`. A first cycle with two components, and a later one with a single one (no selector bits). -/
theorem witness_geffeCycleSelectsOneComponent :
    ((withGeffe geffeUnit).geffe = .built geffeUnit (List.replicate 6 none) ∧ geffeUnit.c.length = 2 ^ 1 ∧
      geffeUnit.s.Consistent ∧ ∀ e ∈ geffeUnit.c, e.Consistent) ∧
    let u : Geffe := ⟨[e32], e43, none, 1, none, [true]⟩
    (withGeffe u).geffe = .built u (List.replicate 7 none) ∧ u.c.length = 2 ^ 0 ∧ u.s.Consistent ∧ ∀ e ∈ u.c, e.Consistent := by
  decide

theorem witness_geffe3BuildAdmitsAnyThreeEngines :
    (staged.geffe3 = .staging ⟨some e32, some geffe3Unit.r2, some e43⟩ ∧ e32.Consistent ∧ geffe3Unit.r2.Consistent ∧
      e43.Consistent) ∧ State.reset.geffe3 = .staging ⟨none, none, none⟩ := by decide

/-- Also for `Geffe3AsDocumentedFollowsR2` and `CompositeRunsAreCyclesInOrder`. -/
theorem witness_geffe3CycleCombinesTheTaps :
    (withGeffe3 geffe3Unit).geffe3 = .built geffe3Unit ∧ geffe3Unit.count = 0 ∧
    (withGeffe3 geffe3Unit).cfg.geffe3Combiner = .asDocumented ∧
    geffe3Unit.r1.Consistent ∧ geffe3Unit.r2.Consistent ∧ geffe3Unit.r3.Consistent := by decide

/-- One unit of each kind with an engine that cannot step; in the Geffe units also a consistent one in a later cycle. Also for
`CompositeCyclesNeverErr`. -/
theorem witness_cyclesLeaveInconsistentEnginesAlone :
    (let u := { a51Unit with count := 1, r1 := { a51Unit.r1 with taps := [20, 18, 17, 14] } };
      (withA51 u).a51Built = some u ∧ ¬(u.get .r1).Consistent ∧
      exec .a51Step (withA51 u) = .next (after .a51Step (withA51 u))) ∧
    (let u := { geffeUnit with count := 1, s := eBroken, c := [e32, eBroken] };
      (withGeffe u).geffeBuilt = some u ∧ ¬u.s.Consistent ∧ u.c[1]? = some eBroken ∧ u.c[0]? = some e32 ∧ e32.Consistent ∧
      0 < u.count) ∧
    let u := { geffe3Unit with count := 1, r3 := eBroken };
    (withGeffe3 u).geffe3Built = some u ∧ ¬(u.get .r3).Consistent ∧ (u.get .r1).Consistent ∧ 0 < u.count := by
  refine ⟨⟨rfl, by decide, rfl⟩, by decide, by decide⟩

theorem witness_compositeResetResetsItsEngines :
    (withA51 a51Unit).a51 = .built a51Unit ∧ (withGeffe geffeUnit).geffe = .built geffeUnit (List.replicate 6 none) ∧
    (withGeffe3 geffe3Unit).geffe3 = .built geffe3Unit := ⟨rfl, rfl, rfl⟩

/-- A state that meets the invariant and whose step is a construction. -/
theorem witness_everyStepKeepsTheInvariant :
    let s := { State.reset with host := [⟨0x0100FF00, b [0, 1, 0, 0, 1], []⟩] }
    s.Inv ∧ step s = .next { State.reset with lfsr := some e52, response := some (.ok .nothing) } := by
  refine ⟨⟨?_, ?_, ?_, ?_, trivial⟩, rfl⟩
  · intro t e h
    exfalso
    rcases t with _ | r | _ | j | r
    · cases h
    · cases r <;> cases h
    · cases h
    · have : ∀ j : Fin kMax, ({ State.reset with host := [⟨0x0100FF00, b [0, 1, 0, 0, 1], []⟩] } : State).engine (.geffeC j) = none := by
        decide
      rw [this j] at h
      cases h
    · cases r <;> cases h
  · intro u h; cases h
  · intro u h; cases h
  · intro u h; cases h

/-- Also for `ErrorsComeFromTheCommandsOfTheTable`. -/
theorem witness_failedCommandsChangeNoUnit :
    exec (.eStep .lfsr) State.reset = .next { State.reset with response := some (.err .notConstructed) } ∧
    step { State.reset with host := [⟨0x02400000, [], []⟩] } =
      .next { State.reset with response := some (.err .invalidCommand) } := ⟨rfl, rfl⟩

/-- Also for `NoCommandUnbuilds` and `OnlyNewWritesPolicyAndInitialState`: a command that completes on an engine. -/
theorem witness_commandsTouchOnlyTheirUnit :
    exec (.eSetOidx .lfsr 0) (withLfsr e52) =
      .next { withLfsr { e52 with oidx := 0 } with response := some (.ok .nothing) } ∧
    (withLfsr e52).engine .lfsr = some e52 ∧ e52.Consistent := ⟨rfl, rfl, by decide⟩

/-- Two machines that differ in another unit. -/
theorem witness_unitsDependOnlyOnTheirOwnCommands :
    SameUnit (unitOf (.eGetCount .lfsr)) (withLfsr e52) { withLfsr e52 with a51 := .built a51Unit } ∧
    (withLfsr e52).draws.get (unitOf (.eGetCount .lfsr)) = ({ withLfsr e52 with a51 := .built a51Unit } : State).draws.get .lfsr ∧
    exec (.eGetCount .lfsr) (withLfsr e52) = .next { withLfsr e52 with response := some (.ok (.nat 0)) } ∧
    exec (.eGetCount .lfsr) { withLfsr e52 with a51 := .built a51Unit } =
      .next { withLfsr e52 with a51 := .built a51Unit, response := some (.ok (.nat 0)) } := ⟨rfl, rfl, rfl, rfl⟩

theorem witness_commandsToDifferentUnitsCommute :
    unitOf (.eGetCount .lfsr) ≠ unitOf .geffe3Build ∧
    ∃ si sij sj sji, exec (.eGetCount .lfsr) (withLfsr e52) = .next si ∧ exec .geffe3Build si = .next sij ∧
      exec .geffe3Build (withLfsr e52) = .next sj ∧ exec (.eGetCount .lfsr) sj = .next sji :=
  ⟨by decide, _, _, _, _, rfl, rfl, rfl, rfl⟩

/-- Random constructions on two units spend their own units' draws (R68, R71; that a draw is spent although the configuration
then fails is log entry 4). -/
theorem test_draws_are_the_units_own :
    (State.reset.takeDraws .lfsr 1).draws = ⟨1, 0, 0, 0⟩ ∧ unitOfRef (.geffeC 3) = .geffe ∧
    ((State.reset.takeDraws .geffe 1).takeDraws .lfsr 1).draws = ((State.reset.takeDraws .lfsr 1).takeDraws .geffe 1).draws := by
  decide

/-- A composite's command, and an engine it owns. -/
theorem witness_compositesNeverMutateTheirEngines :
    Instr.geffe3Step ∈ [Instr.a51Build, .a51Step, .a51Reset, .geffeStep, .geffeReset, .geffe3Build, .geffe3Step, .geffe3Reset] ∧
    exec .geffe3Step (withGeffe3 geffe3Unit) = .next (after .geffe3Step (withGeffe3 geffe3Unit)) ∧
    (withGeffe3 geffe3Unit).engine (.geffe3 .r1) = some e32 := ⟨by decide, rfl, rfl⟩

/-- A unit of each kind, and a reset of it. -/
theorem witness_unresizedUnitsKeepConsistentEngines :
    ((withA51 a51Unit).a51Built = some a51Unit ∧ exec .a51Reset (withA51 a51Unit) = .next (after .a51Reset (withA51 a51Unit)) ∧
      ∀ r, (a51Unit.get r).Consistent ∧ (a51Unit.get r).Unresized) ∧
    ((withGeffe geffeUnit).geffeBuilt = some geffeUnit ∧
      exec .geffeReset (withGeffe geffeUnit) = .next (after .geffeReset (withGeffe geffeUnit)) ∧
      (geffeUnit.s.Consistent ∧ geffeUnit.s.Unresized) ∧ ∀ e ∈ geffeUnit.c, e.Consistent ∧ e.initState.length = e.len) ∧
    (withGeffe3 geffe3Unit).geffe3Built = some geffe3Unit ∧
    exec .geffe3Reset (withGeffe3 geffe3Unit) = .next (after .geffe3Reset (withGeffe3 geffe3Unit)) ∧
    ∀ r, (geffe3Unit.get r).Consistent ∧ (geffe3Unit.get r).Unresized :=
  ⟨⟨rfl, rfl, fun r => by cases r <;> exact ⟨by decide, rfl⟩⟩, ⟨rfl, rfl, ⟨by decide, rfl⟩, by decide⟩, rfl, rfl,
    fun r => by cases r <;> exact ⟨by decide, rfl⟩⟩

/-- A reset of an engine that was not resized, and an enforced E_SET_POLY whose largest tap 4 fits the five cells. -/
theorem witness_onlyResizingBreaksConsistency :
    (exec (.eReset .lfsr) (withLfsr e52) = .next (after (.eReset .lfsr) (withLfsr e52)) ∧ e52.Unresized) ∧
    (IsMaxTap [3, 4] 4 ∧ (∀ d, IsMaxTap [3, 4] d → d ≤ e52.len ∧ (e52.conf = .gal → d = e52.len))) ∧
    exec (.eSetPoly .lfsr [3, 4] false true) (withLfsr e52) = .next (after (.eSetPoly .lfsr [3, 4] false true) (withLfsr e52)) ∧
    (withLfsr e52).engine .lfsr = some e52 ∧ e52.Consistent := by
  refine ⟨⟨rfl, rfl⟩, ⟨taps43.2, fun d hd => ⟨?_, fun h => nomatch h⟩⟩, rfl, rfl, by decide⟩
  have hm : (d : Int) ≤ 4 := by
    have := hd.1
    simp only [List.mem_cons, List.not_mem_nil, or_false] at this
    omega
  show d ≤ 5
  omega

theorem witness_imageIsAnInvolution : [19, 18, 17, 14].Pairwise (· > ·) ∧ ∀ p ∈ [19, 18, 17, 14], 1 ≤ p := by decide

/-- The period `1110010` of V1, with a tolerance just below `2/7` and one above, and two shifts whose values differ; and the even
length of `test_even_length`. -/
theorem witness_autocorrelationTestIsTheIntegerTest :
    let p := b [1, 1, 1, 0, 0, 1, 0]
    p ≠ [] ∧ autocorr p 0 ≠ autocorr p 1 ∧ (0 : Rat) ≤ 1 / 4 ∧ p.length % 2 = 1 ∧ (1 / 4 : Rat) < 2 / (p.length : Rat) ∧
    2 / (p.length : Rat) ≤ 1 / 2 ∧ (1 / 2 : Rat) < 2 / ((b [0, 1]).length : Rat) := by
  intro p
  have h0 : autocorrNumerator p 0 = 7 := by decide
  have h1 : autocorrNumerator p 1 = -1 := by decide
  have hp : p ≠ [] := by decide
  have hl : p.length = 7 := rfl
  have hl2 : (b [0, 1]).length = 2 := rfl
  rw [autocorr, autocorr, if_neg hp, if_neg hp, h0, h1, hl, hl2]
  norm_num [hp]

end Sys2Proof.Tests
end

section
/-!
SUPPORT. The statements of the state: the machine's invariant, what a command can write of an engine, and what keeps engines
consistent. Each is read off `exec_cases`.
-/

namespace Sys2Proof.Machine

/-! ### States that hold the same units -/

/-- Engines are read from the units alone. -/
theorem SameUnits.engine {s s' : State} (h : SameUnits s s') (t : EngineRef) : s'.engine t = s.engine t := by
  obtain ⟨hl, ha, hg, hg3⟩ := h
  cases t <;> simp only [State.engine, hl, ha, hg, hg3]

/-- The invariant speaks of the units and the parameters only. -/
theorem State.Inv.of_sameUnits {s s' : State} (h : s.Inv) (hu : SameUnits s s') (hc : s'.cfg = s.cfg) : s'.Inv where
  engines t e he := h.engines t e ((hu.engine t).symm.trans he)
  a51 u he := by rw [hc]; exact h.a51 u (by rw [← he]; simp only [State.a51Built, hu.a51])
  geffe u he := h.geffe u (by rw [← he]; simp only [State.geffeBuilt, hu.geffe])
  geffe3 u he := h.geffe3 u (by rw [← he]; simp only [State.geffe3Built, hu.geffe3])
  slots := by have := h.slots; simpa only [State.GeffeSlotsFull, hu.geffe] using this

theorem State.Inv.respond {s : State} (h : s.Inv) (r : Response) : (s.respond r).Inv :=
  h.of_sameUnits ⟨rfl, rfl, rfl, rfl⟩ rfl

theorem State.Inv.takeDraws {s : State} (h : s.Inv) (u : UnitName) (n : Nat) : (s.takeDraws u n).Inv :=
  h.of_sameUnits ⟨rfl, rfl, rfl, rfl⟩ rfl

/-! ### What the builds make -/

theorem A51.Wf.built {cfg : Config} {slots : Slots3} {u : A51} (hw : ∀ r e, slots.get r = some e → e.Wf)
    (hb : buildA51 cfg slots = .ok u) : u.Wf cfg := by
  obtain ⟨h1, h2, h3, ⟨-, -, t1, c1⟩, ⟨-, -, t2, c2⟩, ⟨-, -, t3, c3⟩, hcb, hn, ho, hq⟩ := buildA51_ok.1 hb
  exact ⟨⟨hw .r1 _ h1, t1, c1⟩, ⟨hw .r2 _ h2, t2, c2⟩, ⟨hw .r3 _ h3, t3, c3⟩, by simp [hn, hq], by simp [hn, ho],
    by simp [hn, hcb]⟩

theorem Geffe.Wf.built {k : Nat} {sel : Option Engine} {comps : List (Option Engine)} {u : Geffe}
    (hs : ∀ e, sel = some e → e.Wf) (hw : ∀ e, some e ∈ comps → e.Wf) (hk : k ≤ comps.length)
    (hb : buildGeffe k sel comps = .ok u) : u.Wf := by
  obtain ⟨hp, -, hsel, hc, -, -, hi, hn, ho, hq⟩ := buildGeffe_ok.1 hb
  have hlen : u.c.length = k := by
    have := congrArg List.length hc
    rw [List.length_take, List.length_map] at this
    omega
  refine ⟨fun e he => hw e ?_, hs _ hsel, by rwa [hlen], by simp [hi], by simp [hn, hq], by simp [hn, ho], by simp [hn, hi]⟩
  exact List.mem_of_mem_take (hc ▸ List.mem_map_of_mem he)

theorem Geffe3.Wf.built {slots : Slots3} {u : Geffe3} (hw : ∀ r e, slots.get r = some e → e.Wf)
    (hb : buildGeffe3 slots = .ok u) : u.Wf := by
  obtain ⟨h1, h2, h3, -, -, -, hn, ho, hq⟩ := buildGeffe3_ok.1 hb
  exact ⟨hw .r1 _ h1, hw .r2 _ h2, hw .r3 _ h3, by simp [hn, hq], by simp [hn, ho]⟩

/-! ### The invariant under the writes of an engine and of a composite -/

theorem State.Inv.putEngine {s : State} (h : s.Inv) {t : EngineRef} {e : Engine} (ho : s.owned t = false) (he : e.Wf) :
    (s.putEngine t e).Inv where
  engines t' x hx := by
    by_cases ht : t' = t
    · subst ht
      rw [State.engine_putEngine_self _ _ _ ho] at hx
      cases hx
      exact he
    · rw [State.engine_putEngine_ne _ _ _ _ ht] at hx
      exact h.engines t' x hx
  a51 u hu := by simpa using h.a51 u (by simpa using hu)
  geffe u hu := h.geffe u (by simpa using hu)
  geffe3 u hu := h.geffe3 u (by simpa using hu)
  slots := by simpa using h.slots

theorem A51.Wf.get {cfg : Config} {u : A51} (h : u.Wf cfg) (r : Reg3) : (u.get r).Wf := by
  cases r
  · exact h.r1.1
  · exact h.r2.1
  · exact h.r3.1

theorem Geffe3.Wf.get {u : Geffe3} (h : u.Wf) (r : Reg3) : (u.get r).Wf := by
  cases r
  · exact h.r1
  · exact h.r2
  · exact h.r3

theorem mem_geffeSlots {u : Geffe} {spare : List (Option Engine)} {e : Engine} :
    some e ∈ geffeSlots u spare ↔ e ∈ u.c ∨ some e ∈ spare := by
  simp [geffeSlots]

/-- Writing a composite leaves the engines of the other units. -/
theorem State.putA51_engine_cases (s : State) (u : A51) (t : EngineRef) :
    (∃ r, t = .a51 r) ∨ (s.putA51 u).engine t = s.engine t := by
  cases t <;> simp

theorem State.putGeffe_engine_cases (s : State) (u : Geffe) (spare : List (Option Engine)) (t : EngineRef) :
    t = .geffeS ∨ (∃ j, t = .geffeC j) ∨ (s.putGeffe u spare).engine t = s.engine t := by
  cases t <;> simp

theorem State.putGeffe3_engine_cases (s : State) (u : Geffe3) (t : EngineRef) :
    (∃ r, t = .geffe3 r) ∨ (s.putGeffe3 u).engine t = s.engine t := by
  cases t <;> simp

theorem State.Inv.putA51 {s : State} (h : s.Inv) {u : A51} (hu : u.Wf s.cfg) : (s.putA51 u).Inv where
  engines t e he := by
    obtain ⟨r, rfl⟩ | ht := State.putA51_engine_cases s u t
    · cases he; exact hu.get r
    · exact h.engines t e (ht.symm.trans he)
  a51 w hw := by cases hw; exact hu
  geffe := h.geffe
  geffe3 := h.geffe3
  slots := h.slots

theorem State.Inv.putGeffe {s : State} (h : s.Inv) {u : Geffe} {spare : List (Option Engine)} (hu : u.Wf)
    (hs : ∀ e, some e ∈ spare → e.Wf) (hl : (geffeSlots u spare).length = kMax) : (s.putGeffe u spare).Inv where
  engines t e he := by
    obtain rfl | ⟨j, rfl⟩ | ht := State.putGeffe_engine_cases s u spare t
    · cases he; exact hu.sel_engine
    · have hj : j.val < (geffeSlots u spare).length := by omega
      rw [State.putGeffe_engine_geffeC, List.getD_eq_getElem _ _ hj] at he
      exact (mem_geffeSlots.1 (he ▸ List.getElem_mem hj)).elim (hu.comps e) (hs e)
    · exact h.engines t e (ht.symm.trans he)
  a51 := h.a51
  geffe w hw := by cases hw; exact hu
  geffe3 := h.geffe3
  slots := hl

theorem State.Inv.putGeffe3 {s : State} (h : s.Inv) {u : Geffe3} (hu : u.Wf) : (s.putGeffe3 u).Inv where
  engines t e he := by
    obtain ⟨r, rfl⟩ | ht := State.putGeffe3_engine_cases s u t
    · cases he; exact hu.get r
    · exact h.engines t e (ht.symm.trans he)
  a51 := h.a51
  geffe := h.geffe
  geffe3 w hw := by cases hw; exact hu
  slots := h.slots

/-! ### What the invariant says of the slots of a composite -/

theorem State.Inv.a51_staged {s : State} (h : s.Inv) {slots : Slots3} (hs : s.a51 = .staging slots) (r : Reg3)
    (e : Engine) (he : slots.get r = some e) : e.Wf :=
  h.engines (.a51 r) e (by simpa only [State.engine, hs] using he)

theorem State.Inv.geffe3_staged {s : State} (h : s.Inv) {slots : Slots3} (hs : s.geffe3 = .staging slots) (r : Reg3)
    (e : Engine) (he : slots.get r = some e) : e.Wf :=
  h.engines (.geffe3 r) e (by simpa only [State.engine, hs] using he)

theorem State.Inv.geffeS_staged {s : State} (h : s.Inv) {sel : Option Engine} {comps : Vector (Option Engine) kMax}
    (hs : s.geffe = .staging sel comps) (e : Engine) (he : sel = some e) : e.Wf :=
  h.engines .geffeS e (by simpa only [State.engine, hs] using he)

theorem State.Inv.geffeC_staged {s : State} (h : s.Inv) {sel : Option Engine} {comps : Vector (Option Engine) kMax}
    (hs : s.geffe = .staging sel comps) (e : Engine) (he : some e ∈ comps.toList) : e.Wf := by
  obtain ⟨j, hj, hje⟩ := Vector.getElem_of_mem (Vector.mem_toList_iff.1 he)
  exact h.engines (.geffeC ⟨j, hj⟩) e (by simpa only [State.engine, hs] using hje)

theorem State.Inv.geffe_built {s : State} (h : s.Inv) {u : Geffe} {spare : List (Option Engine)}
    (hs : s.geffe = .built u spare) : u.Wf := h.geffe u (State.geffeBuilt_eq_some.2 ⟨spare, hs⟩)

theorem State.Inv.geffe_slots {s : State} (h : s.Inv) {u : Geffe} {spare : List (Option Engine)}
    (hs : s.geffe = .built u spare) : (geffeSlots u spare).length = kMax := by
  simpa only [State.GeffeSlotsFull, hs] using h.slots

theorem State.Inv.geffe_spare {s : State} (h : s.Inv) {u : Geffe} {spare : List (Option Engine)}
    (hs : s.geffe = .built u spare) (e : Engine) (he : some e ∈ spare) : e.Wf := by
  obtain ⟨j, hj, hje⟩ := List.getElem_of_mem (mem_geffeSlots.2 (.inr he) : some e ∈ geffeSlots u spare)
  refine h.engines (.geffeC ⟨j, h.geffe_slots hs ▸ hj⟩) e ?_
  simpa only [State.engine, hs, List.getD_eq_getElem _ _ hj] using hje

theorem geffeSlots_length_built {k : Nat} {sel : Option Engine} {comps : List (Option Engine)} {u : Geffe}
    (hb : buildGeffe k sel comps = .ok u) : (geffeSlots u (comps.drop k)).length = comps.length := by
  obtain ⟨-, -, -, hc, -⟩ := buildGeffe_ok.1 hb
  rw [geffeSlots, ← hc, List.take_append_drop]

/-! ### Every command and every step keeps the invariant -/

/-- Whatever a command does keeps the invariant. -/
theorem Did.inv {i : Instr} {s s' : State} (h : Did i s s') (hi : s.Inv) : s'.Inv := by
  cases h with
  | failed x n _ => exact (hi.takeDraws _ _).respond _
  | read v => exact hi.respond _
  | new _ ho hc => exact ((hi.takeDraws _ _).putEngine (by simpa using ho) (.fresh hc)).respond _
  | engine v ho he hm => exact (hi.putEngine ho ((hi.engines _ _ he).move hm)).respond _
  | buildA51 _ hs hb => exact (hi.putA51 (.built (hi.a51_staged hs) hb)).respond _
  | buildGeffe _ hs hb =>
    have hk := (buildGeffe_ok.1 hb).2.1
    have hw := Geffe.Wf.built (hi.geffeS_staged hs) (hi.geffeC_staged hs) (by simpa using hk) hb
    refine (hi.putGeffe hw (fun e he => hi.geffeC_staged hs e (List.mem_of_mem_drop he)) ?_).respond _
    rw [geffeSlots_length_built hb, Vector.length_toList]
  | buildGeffe3 _ hs hb => exact (hi.putGeffe3 (.built (hi.geffe3_staged hs) hb)).respond _
  | a51 v hu hm => exact (hi.putA51 ((hi.a51 _ (State.a51Built_eq_some.2 hu)).move hm)).respond _
  | geffe v hu hm =>
    have hl := hi.geffe_slots hu
    refine (hi.putGeffe ((hi.geffe_built hu).move hm) (hi.geffe_spare hu) ?_).respond _
    simpa only [geffeSlots, List.length_append, List.length_map, hm.length] using hl
  | geffe3 v hu hm => exact (hi.putGeffe3 ((hi.geffe3 _ (State.geffe3Built_eq_some.2 hu)).move hm)).respond _

/-- Everything a step can do: idle, perform the next command of the host, or answer a reserved one. -/
theorem step_cases {s s' : State} (h : step s = .next s') :
    (s.host = [] ∧ s' = s) ∨
    ∃ c rest, s.host = c :: rest ∧
      ((∃ i, decode c = .ok i ∧ exec i { s with host := rest } = .next s') ∨
        ∃ r, decode c = .error r ∧ s' = State.respond { s with host := rest } (.err .invalidCommand)) := by
  unfold step State.fetch at h
  cases hh : s.host with
  | nil => simp only [hh] at h; cases h; exact .inl ⟨rfl, rfl⟩
  | cons c rest =>
    simp only [hh] at h
    refine .inr ⟨c, rest, rfl, ?_⟩
    cases hd : decode c with
    | ok i => rw [hd] at h; exact .inl ⟨i, rfl, h⟩
    | error r => rw [hd] at h; cases h; exact .inr ⟨r, rfl, rfl⟩

theorem State.Inv.step {s s' : State} (hi : s.Inv) (h : step s = .next s') : s'.Inv := by
  obtain ⟨-, rfl⟩ | ⟨c, rest, -, hc⟩ := step_cases h
  · exact hi
  · have hr : State.Inv { s with host := rest } := hi.of_sameUnits ⟨rfl, rfl, rfl, rfl⟩ rfl
    obtain ⟨i, -, he⟩ | ⟨r, -, rfl⟩ := hc
    · exact (exec_cases he).inv hr
    · exact hr.respond _

/-- Settles O46: what a step can do is said by `step_cases` and `exec_cases`, and each of these outcomes keeps the
invariant. -/
theorem everyStepKeepsTheInvariant : Obligations.EveryStepKeepsTheInvariant :=
  fun _ _ hi h => hi.step h

/-! ### The state after power-on -/

@[simp] theorem State.reset_engine (t : EngineRef) : State.reset.engine t = none := by
  cases t with
  | lfsr => rfl
  | a51 r => cases r <;> rfl
  | geffeS => rfl
  | geffeC j => exact Vector.getElem_replicate j.isLt
  | geffe3 r => cases r <;> rfl

@[simp] theorem State.reset_owned (t : EngineRef) : State.reset.owned t = false := by cases t <;> rfl

/-- Settles O10: every slot reads as empty, by the unit it belongs to. -/
theorem powerOnLeavesEveryUnitUnconstructed : Obligations.PowerOnLeavesEveryUnitUnconstructed :=
  ⟨State.reset_engine, State.reset_owned, rfl, rfl, rfl⟩

/-- Settles O47: there is no engine and no built unit of which the invariant could fail. -/
theorem powerOnMeetsTheInvariant : Obligations.PowerOnMeetsTheInvariant where
  engines t e he := by rw [State.reset_engine] at he; cases he
  a51 _ hu := nomatch hu
  geffe _ hu := nomatch hu
  geffe3 _ hu := nomatch hu
  slots := trivial

/-! ### What no command but `E_NEW` writes -/

/-- No move of an engine writes its policy or its stored initial state (R26, R32). -/
theorem EngineMove.keeps_policy_initState {t : EngineRef} {i : Instr} {e e' : Engine} (h : EngineMove t e i e') :
    e'.policy = e.policy ∧ e'.initState = e.initState := by
  have run (k : Nat) : (e.after k).policy = e.policy ∧ (e.after k).initState = e.initState :=
    ⟨(e.sameControl_after k).policy, (e.sameControl_after k).initState⟩
  cases h with
  | step _ => exact run 1
  | run k _ => exact run k
  | full _ => exact run _
  | reset => exact ⟨rfl, rfl⟩
  | poly hs =>
    obtain ⟨-, -, -, rfl⟩ := setPoly_ok.1 hs
    split <;> exact ⟨rfl, rfl⟩
  | state hs =>
    obtain ⟨-, -, -, -, -, -, rfl⟩ := setState_ok.1 hs
    exact ⟨rfl, rfl⟩
  | conf hs =>
    obtain ⟨-, ⟨-, rfl⟩ | ⟨-, -, rfl⟩⟩ := setConf_ok.1 hs <;> exact ⟨rfl, rfl⟩
  | oidx hs =>
    obtain ⟨-, -, rfl⟩ := setOidx_ok.1 hs
    exact ⟨rfl, rfl⟩

/-- Composites keep the control fields of their engines, whatever the command. -/
theorem composes_sameControl (i : Instr) : Composes i SameControl where
  refl := SameControl.rfl'
  trans := SameControl.trans'
  advance := Engine.sameControl_advance
  reset := .inl Engine.sameControl_reset

/-- Settles O54: a composite keeps all control fields of its engines, and an engine's own moves keep these two. -/
theorem onlyNewWritesPolicyAndInitialState : Obligations.OnlyNewWritesPolicyAndInitialState := by
  intro i s s' t e hi h he
  obtain ⟨e', he', hc | hm | ⟨p, n, c, o, q, hn, -⟩⟩ := (exec_cases h).engine_cases (composes_sameControl i) he
  · exact ⟨e', he', hc.policy, hc.initState⟩
  · exact ⟨e', he', hm.keeps_policy_initState⟩
  · exact absurd hn (hi t p n c o q)

/-- Settles O55: no instruction of the composites moves an engine by itself or constructs one. -/
theorem compositesNeverMutateTheirEngines : Obligations.CompositesNeverMutateTheirEngines := by
  intro i s s' t e hi h he
  obtain ⟨e', he', hc | hm | ⟨p, n, c, o, q, rfl, -⟩⟩ := (exec_cases h).engine_cases (composes_sameControl i) he
  · exact ⟨e', he', hc⟩
  · cases hm <;> simp at hi
  · simp at hi

/-! ### Consistency -/

/-- The engine is consistent and was never resized, so its reset is consistent too. -/
def Engine.Fits (e : Engine) : Prop := e.Consistent ∧ e.Unresized

/-- An engine that fits becomes one that fits, of the same length. -/
def KeepsFit (e e' : Engine) : Prop := e.Fits → e'.Fits ∧ e'.len = e.len

theorem keepsFit_refl (e : Engine) : KeepsFit e e := fun h => ⟨h, rfl⟩

theorem keepsFit_advance (e : Engine) : KeepsFit e e.advance := by
  intro h
  have hl : e.advance.len = e.len := Engine.advance_len (by have := h.1.two_le_len; omega)
  exact ⟨⟨h.1.advance, h.2.trans hl.symm⟩, hl⟩

theorem keepsFit_reset (e : Engine) : KeepsFit e e.reset := fun h => ⟨⟨h.1.reset h.2, rfl⟩, h.2⟩

theorem composes_keepsFit (i : Instr) : Composes i KeepsFit where
  refl := keepsFit_refl
  trans hab hbc h := ⟨(hbc (hab h).1).1, (hbc (hab h).1).2.trans (hab h).2⟩
  advance := keepsFit_advance
  reset := .inl keepsFit_reset

/-- A composite that is not reset keeps consistent engines consistent, resized or not. -/
theorem composes_consistent {i : Instr} (h : i ≠ .a51Reset ∧ i ≠ .geffeReset ∧ i ≠ .geffe3Reset) :
    Composes i fun e e' => e.Consistent → e'.Consistent where
  refl _ := id
  trans hab hbc := hbc ∘ hab
  advance _ := Engine.Consistent.advance
  reset := .inr h

/-- Settles O58: an engine's own moves by `Engine.Consistent.move`; what a composite makes of its engines by `KeepsFit`
under a composite reset, whose engines are not resized, and by `composes_consistent` elsewhere. -/
theorem onlyResizingBreaksConsistency : Obligations.OnlyResizingBreaksConsistency := by
  intro i s s' t e resets hp hr h he hc
  have move {e'} (hm : EngineMove t e i e') : e'.Consistent := hc.move hm hp fun hi =>
    hr (hi.elim .inl fun hi => .inr (.inl hi))
  by_cases hi : i = .a51Reset ∨ i = .geffeReset ∨ i = .geffe3Reset
  · obtain ⟨e', he', hf | hm | ⟨_, _, _, _, _, -, hn⟩⟩ := (exec_cases h).engine_cases (composes_keepsFit i) he
    · exact ⟨e', he', (hf ⟨hc, hr (.inr (.inr hi))⟩).1.1⟩
    · exact ⟨e', he', move hm⟩
    · exact ⟨e', he', .fresh hn⟩
  · have hi' : i ≠ .a51Reset ∧ i ≠ .geffeReset ∧ i ≠ .geffe3Reset := by simpa only [not_or] using hi
    obtain ⟨e', he', hf | hm | ⟨_, _, _, _, _, -, hn⟩⟩ := (exec_cases h).engine_cases (composes_consistent hi') he
    · exact ⟨e', he', hf hc⟩
    · exact ⟨e', he', move hm⟩
    · exact ⟨e', he', .fresh hn⟩

/-! ### What a command can make of a built unit -/

/-- A built A5/1 unit stays as it is or moves. -/
theorem Did.a51Built_cases {i : Instr} {s s' : State} {u : A51} (h : Did i s s') (hu : s.a51Built = some u) :
    ∃ u', s'.a51Built = some u' ∧ (u' = u ∨ A51Move u i u') := by
  have hs := State.a51Built_eq_some.1 hu
  cases h with
  | buildA51 _ hs' _ => rw [hs] at hs'; cases hs'
  | a51 v hs' hm => rw [hs] at hs'; cases hs'; exact ⟨_, rfl, .inr hm⟩
  | _ => exact ⟨u, by simpa using hu, .inl rfl⟩

/-- A built Geffe unit stays as it is or moves. -/
theorem Did.geffeBuilt_cases {i : Instr} {s s' : State} {u : Geffe} (h : Did i s s') (hu : s.geffeBuilt = some u) :
    ∃ u', s'.geffeBuilt = some u' ∧ (u' = u ∨ GeffeMove s.cfg.geffeSelMsbFirst u i u') := by
  obtain ⟨spare, hs⟩ := State.geffeBuilt_eq_some.1 hu
  cases h with
  | buildGeffe _ hs' _ => rw [hs] at hs'; cases hs'
  | geffe v hs' hm => rw [hs] at hs'; cases hs'; exact ⟨_, rfl, .inr hm⟩
  | _ => exact ⟨u, by simpa using hu, .inl rfl⟩

/-- A built Geffe3 unit stays as it is or moves. -/
theorem Did.geffe3Built_cases {i : Instr} {s s' : State} {u : Geffe3} (h : Did i s s') (hu : s.geffe3Built = some u) :
    ∃ u', s'.geffe3Built = some u' ∧ (u' = u ∨ Geffe3Move s.cfg.geffe3Combiner u i u') := by
  have hs := State.geffe3Built_eq_some.1 hu
  cases h with
  | buildGeffe3 _ hs' _ => rw [hs] at hs'; cases hs'
  | geffe3 v hs' hm => rw [hs] at hs'; cases hs'; exact ⟨_, rfl, .inr hm⟩
  | _ => exact ⟨u, by simpa using hu, .inl rfl⟩

/-- Settles O57: a command leaves a built unit as it is or moves it, and every move keeps engines that fit. -/
theorem unresizedUnitsKeepConsistentEngines : Obligations.UnresizedUnitsKeepConsistentEngines := by
  refine ⟨fun i s s' u hu h hf => ?_, fun i s s' u hu h hsel hf => ?_, fun i s s' u hu h hf => ?_⟩
  · obtain ⟨u', hu', rfl | hm⟩ := (exec_cases h).a51Built_cases hu
    · exact ⟨u', hu', fun r => ⟨hf r, rfl⟩⟩
    · exact ⟨u', hu', fun r => (composes_keepsFit i).a51 hm r (hf r)⟩
  · obtain ⟨u', hu', rfl | hm⟩ := (exec_cases h).geffeBuilt_cases hu
    · exact ⟨u', hu', hsel, rfl, rfl, fun j x hx => ⟨x, hx, hf x (List.mem_of_getElem? hx), rfl⟩⟩
    · obtain ⟨hs, hl, hc⟩ := (composes_keepsFit i).geffe hm
      refine ⟨u', hu', (hs hsel).1, (hs hsel).2, hl, fun j x hx => ?_⟩
      obtain ⟨y, hy, hxy⟩ := hc j x hx
      exact ⟨y, hy, hxy (hf x (List.mem_of_getElem? hx))⟩
  · obtain ⟨u', hu', rfl | hm⟩ := (exec_cases h).geffe3Built_cases hu
    · exact ⟨u', hu', fun r => ⟨hf r, rfl⟩⟩
    · exact ⟨u', hu', fun r => (composes_keepsFit i).geffe3 hm r (hf r)⟩

end Sys2Proof.Machine

end

section
/-!
SUPPORT. The statements of `20_memory.md`: every step completes; the units share nothing, so a command writes and reads one unit
only, and commands to different units commute.
-/

namespace Sys2Proof.Machine

/-! ### Every step completes -/

/-- Settles O9: a step is idle, answers a reserved command, or performs an instruction, which gives a next state. -/
theorem everyStepCompletes : Obligations.EveryStepCompletes := by
  intro s
  unfold step
  split
  · exact ⟨_, rfl⟩
  · split
    · exact exec_total _ _
    · exact ⟨_, rfl⟩

/-! ### What a command to one unit reads -/

/-- Two states agree on all that a command to the unit `n` reads: the unit, the number of its draws and the parameters. -/
structure AgreeOn (n : UnitName) (s t : State) : Prop where
  unit : SameUnit n s t
  draws : t.draws.get n = s.draws.get n
  cfg : t.cfg = s.cfg

theorem SameUnit.refl (n : UnitName) (s : State) : SameUnit n s s := by cases n <;> rfl

theorem SameUnit.symm {n : UnitName} {s t : State} (h : SameUnit n s t) : SameUnit n t s := by
  cases n <;> exact Eq.symm h

theorem SameUnit.trans {n : UnitName} {s t u : State} (h : SameUnit n s t) (k : SameUnit n t u) : SameUnit n s u := by
  cases n <;> exact Eq.trans k h

theorem AgreeOn.symm {n : UnitName} {s t : State} (h : AgreeOn n s t) : AgreeOn n t s :=
  ⟨h.unit.symm, h.draws.symm, h.cfg.symm⟩

theorem AgreeOn.trans {n : UnitName} {s t u : State} (h : AgreeOn n s t) (k : AgreeOn n t u) : AgreeOn n s u :=
  ⟨h.unit.trans k.unit, k.draws.trans h.draws, k.cfg.trans h.cfg⟩

theorem SameUnits.of_forall {s t : State} (h : ∀ n, SameUnit n s t) : SameUnits s t :=
  ⟨h .lfsr, h .a51, h .geffe, h .geffe3⟩

theorem Draws.ext_get {d d' : Draws} (h : ∀ n, d'.get n = d.get n) : d' = d := by
  obtain ⟨_, _, _, _⟩ := d
  obtain ⟨_, _, _, _⟩ := d'
  exact (Draws.mk.injEq ..).mpr ⟨h .lfsr, h .a51, h .geffe, h .geffe3⟩

/-! ### A command leaves the other units -/

/-- Writing an engine leaves every unit but its own. -/
theorem SameUnit.putEngine {n : UnitName} {t : EngineRef} (s : State) (e : Engine) (hn : n ≠ unitOfRef t) :
    SameUnit n s (s.putEngine t e) := by
  obtain ⟨l, a, g, g3, hs, r, d, c⟩ := s
  cases t with
  | lfsr => cases n <;> trivial
  | a51 q => cases a <;> cases n <;> trivial
  | geffeS => cases g <;> cases n <;> trivial
  | geffeC j => cases g <;> cases n <;> trivial
  | geffe3 q => cases g3 <;> cases n <;> trivial

theorem SameUnit.putA51 {n : UnitName} (s : State) (u : A51) (hn : n ≠ .a51) : SameUnit n s (s.putA51 u) := by
  cases n <;> trivial

theorem SameUnit.putGeffe {n : UnitName} (s : State) (u : Geffe) (spare : List (Option Engine)) (hn : n ≠ .geffe) :
    SameUnit n s (s.putGeffe u spare) := by
  cases n <;> trivial

theorem SameUnit.putGeffe3 {n : UnitName} (s : State) (u : Geffe3) (hn : n ≠ .geffe3) :
    SameUnit n s (s.putGeffe3 u) := by
  cases n <;> trivial

theorem SameUnit.respond {n : UnitName} {s t : State} (h : SameUnit n s t) (r : Response) : SameUnit n s (t.respond r) := by
  cases n <;> exact h

theorem SameUnit.takeDraws (n : UnitName) (s : State) (u : UnitName) (k : Nat) : SameUnit n s (s.takeDraws u k) := by
  cases n <;> rfl

/-- Every move of an engine is addressed to its unit. -/
theorem EngineMove.unitOf_eq {t : EngineRef} {e e' : Engine} {i : Instr} (h : EngineMove t e i e') :
    unitOf i = unitOfRef t := by
  cases h <;> rfl

theorem A51Move.unitOf_eq {u u' : A51} {i : Instr} (h : A51Move u i u') : unitOf i = .a51 := by cases h <;> rfl

theorem GeffeMove.unitOf_eq {m : Bool} {u u' : Geffe} {i : Instr} (h : GeffeMove m u i u') : unitOf i = .geffe := by
  cases h <;> rfl

theorem Geffe3Move.unitOf_eq {c : Combiner} {u u' : Geffe3} {i : Instr} (h : Geffe3Move c u i u') : unitOf i = .geffe3 := by
  cases h <;> rfl

/-- No command writes the host's further commands. -/
theorem Did.host {i : Instr} {s s' : State} (h : Did i s s') : s'.host = s.host := by cases h <;> simp

/-- No command writes the parameters. -/
theorem Did.cfg {i : Instr} {s s' : State} (h : Did i s s') : s'.cfg = s.cfg := by cases h <;> simp

/-- A command writes no unit but its own. -/
theorem Did.sameUnit {i : Instr} {s s' : State} (h : Did i s s') {n : UnitName} (hn : n ≠ unitOf i) :
    SameUnit n s s' := by
  cases h with
  | failed x k _ => exact (SameUnit.takeDraws n s _ k).respond _
  | read v => exact (SameUnit.refl n s).respond _
  | new hi _ _ => subst hi; exact ((SameUnit.takeDraws n s _ _).trans (.putEngine _ _ hn)).respond _
  | engine v _ _ hm => exact (SameUnit.putEngine s _ (hm.unitOf_eq ▸ hn)).respond _
  | buildA51 hi _ _ => subst hi; exact (SameUnit.putA51 s _ hn).respond _
  | buildGeffe hi _ _ => subst hi; exact (SameUnit.putGeffe s _ _ hn).respond _
  | buildGeffe3 hi _ _ => subst hi; exact (SameUnit.putGeffe3 s _ hn).respond _
  | a51 v _ hm => exact (SameUnit.putA51 s _ (hm.unitOf_eq ▸ hn)).respond _
  | geffe v _ hm => exact (SameUnit.putGeffe s _ _ (hm.unitOf_eq ▸ hn)).respond _
  | geffe3 v _ hm => exact (SameUnit.putGeffe3 s _ (hm.unitOf_eq ▸ hn)).respond _

/-- A command draws for its own unit only. -/
theorem Did.draws {i : Instr} {s s' : State} (h : Did i s s') {n : UnitName} (hn : n ≠ unitOf i) :
    s'.draws.get n = s.draws.get n := by
  cases h with
  | failed x k _ => exact Draws.get_take_ne _ _ _ _ hn
  | new hi _ _ =>
    subst hi
    rw [State.respond_draws, State.putEngine_draws]
    exact Draws.get_take_ne _ _ _ _ hn
  | _ => simp

/-- A command leaves all that the commands to the other units read. -/
theorem AgreeOn.of_exec {i : Instr} {s s' : State} (h : exec i s = .next s') {n : UnitName} (hn : n ≠ unitOf i) :
    AgreeOn n s s' :=
  ⟨(exec_cases h).sameUnit hn, (exec_cases h).draws hn, (exec_cases h).cfg⟩

/-- Settles O51: of each outcome of `exec_cases`, by the frame of what it writes. -/
theorem commandsTouchOnlyTheirUnit : Obligations.CommandsTouchOnlyTheirUnit :=
  fun _ _ _ h => ⟨fun _ hn => ⟨(AgreeOn.of_exec h hn).unit, (AgreeOn.of_exec h hn).draws⟩, (exec_cases h).host,
    (exec_cases h).cfg⟩

/-! ### A command reads its own unit only -/

/-- Both outcomes are next states, which agree on the unit `n` and present the same response. -/
def SameOutcome (n : UnitName) (a b : Result) : Prop :=
  ∃ s' t', a = .next s' ∧ b = .next t' ∧ AgreeOn n s' t' ∧ t'.response = s'.response

section
variable {n : UnitName} {r : EngineRef} {s t : State}

theorem AgreeOn.respond (h : AgreeOn n s t) (x : Response) : AgreeOn n (s.respond x) (t.respond x) := by
  obtain ⟨hu, hd, hc⟩ := h
  cases n <;> exact ⟨hu, hd, hc⟩

theorem AgreeOn.fail (h : AgreeOn n s t) (x : ErrorName) : SameOutcome n (fail x s) (fail x t) :=
  ⟨_, _, rfl, rfl, h.respond _, rfl⟩

theorem AgreeOn.answer (h : AgreeOn n s t) (v : Value) : SameOutcome n (answer v s) (answer v t) :=
  ⟨_, _, rfl, rfl, h.respond _, rfl⟩

theorem AgreeOn.engine (h : AgreeOn (unitOfRef r) s t) : t.engine r = s.engine r := by
  cases r with
  | lfsr => exact h.unit
  | a51 q => simp only [State.engine, show t.a51 = s.a51 from h.unit]
  | geffeS => simp only [State.engine, show t.geffe = s.geffe from h.unit]
  | geffeC j => simp only [State.engine, show t.geffe = s.geffe from h.unit]
  | geffe3 q => simp only [State.engine, show t.geffe3 = s.geffe3 from h.unit]

theorem AgreeOn.owned (h : AgreeOn (unitOfRef r) s t) : t.owned r = s.owned r := by
  cases r with
  | lfsr => rfl
  | a51 q => simp only [State.owned, show t.a51 = s.a51 from h.unit]
  | geffeS => simp only [State.owned, show t.geffe = s.geffe from h.unit]
  | geffeC j => simp only [State.owned, show t.geffe = s.geffe from h.unit]
  | geffe3 q => simp only [State.owned, show t.geffe3 = s.geffe3 from h.unit]

theorem AgreeOn.takeDraws (h : AgreeOn n s t) (k : Nat) : AgreeOn n (s.takeDraws n k) (t.takeDraws n k) where
  unit := by obtain ⟨hu, -, -⟩ := h; cases n <;> exact hu
  draws := by simp [h.draws]
  cfg := h.cfg

theorem SameUnit.putEngine_both (h : SameUnit (unitOfRef r) s t) (e : Engine) :
    SameUnit (unitOfRef r) (s.putEngine r e) (t.putEngine r e) := by
  obtain ⟨l, a, g, g3, _, _, _, _⟩ := s
  obtain ⟨_, _, _, _, _, _, _, _⟩ := t
  cases r with
  | lfsr => rfl
  | a51 q => cases h; cases a <;> rfl
  | geffeS => cases h; cases g <;> rfl
  | geffeC j => cases h; cases g <;> rfl
  | geffe3 q => cases h; cases g3 <;> rfl

theorem AgreeOn.putEngine (h : AgreeOn (unitOfRef r) s t) (e : Engine) :
    AgreeOn (unitOfRef r) (s.putEngine r e) (t.putEngine r e) :=
  ⟨h.unit.putEngine_both e, by simpa using h.draws, by simpa using h.cfg⟩

theorem AgreeOn.putA51 (h : AgreeOn .a51 s t) (u : A51) : AgreeOn .a51 (s.putA51 u) (t.putA51 u) :=
  ⟨Eq.refl (A51Unit.built u), h.draws, h.cfg⟩

theorem AgreeOn.putGeffe (h : AgreeOn .geffe s t) (u : Geffe) (spare : List (Option Engine)) :
    AgreeOn .geffe (s.putGeffe u spare) (t.putGeffe u spare) :=
  ⟨Eq.refl (GeffeUnit.built u spare), h.draws, h.cfg⟩

theorem AgreeOn.putGeffe3 (h : AgreeOn .geffe3 s t) (u : Geffe3) : AgreeOn .geffe3 (s.putGeffe3 u) (t.putGeffe3 u) :=
  ⟨Eq.refl (Geffe3Unit.built u), h.draws, h.cfg⟩

/-! ### The shared operations read their own unit only -/

theorem onEngine_sameOutcome (h : AgreeOn (unitOfRef r) s t) (f : Engine → Except ErrorName (Value × Engine)) :
    SameOutcome (unitOfRef r) (onEngine r f s) (onEngine r f t) := by
  unfold onEngine
  rw [h.owned, h.engine]
  split
  · exact h.fail _
  · split
    · exact h.fail _
    · split
      · exact h.fail _
      · exact (h.putEngine _).answer _

theorem readEngine_sameOutcome (h : AgreeOn (unitOfRef r) s t) (f : Engine → Value) :
    SameOutcome (unitOfRef r) (readEngine r f s) (readEngine r f t) := by
  unfold readEngine
  rw [h.engine]
  split
  · exact h.fail _
  · exact h.answer _

theorem onA51_sameOutcome (h : AgreeOn .a51 s t) (f : A51 → Value × A51) :
    SameOutcome .a51 (onA51 f s) (onA51 f t) := by
  unfold onA51
  rw [show t.a51 = s.a51 from h.unit]
  split
  · exact h.fail _
  · exact (h.putA51 _).answer _

theorem onGeffe_sameOutcome (h : AgreeOn .geffe s t) (f : Geffe → Value × Geffe) :
    SameOutcome .geffe (onGeffe f s) (onGeffe f t) := by
  unfold onGeffe
  rw [show t.geffe = s.geffe from h.unit]
  split
  · exact h.fail _
  · exact (h.putGeffe _ _).answer _

theorem onGeffe3_sameOutcome (h : AgreeOn .geffe3 s t) (f : Geffe3 → Value × Geffe3) :
    SameOutcome .geffe3 (onGeffe3 f s) (onGeffe3 f t) := by
  unfold onGeffe3
  rw [show t.geffe3 = s.geffe3 from h.unit]
  split
  · exact h.fail _
  · exact (h.putGeffe3 _).answer _

theorem execENew_sameOutcome (h : AgreeOn (unitOfRef r) s t) (taps : List Int) (init : InitSpec) (conf : ConfTag) (oidx : Int)
    (policy : Policy) :
    SameOutcome (unitOfRef r) (execENew r taps init conf oidx policy s) (execENew r taps init conf oidx policy t) := by
  unfold execENew
  dsimp only
  rw [h.owned, h.draws]
  split
  · exact h.fail _
  · split
    · exact (h.takeDraws _).fail _
    · exact ((h.takeDraws _).putEngine _).answer _

theorem execA51Build_sameOutcome (h : AgreeOn .a51 s t) : SameOutcome .a51 (execA51Build s) (execA51Build t) := by
  unfold execA51Build
  rw [show t.a51 = s.a51 from h.unit, h.cfg]
  split
  · exact h.fail _
  · split
    · exact h.fail _
    · exact (h.putA51 _).answer _

theorem execGeffeBuild_sameOutcome (h : AgreeOn .geffe s t) (k : Nat) :
    SameOutcome .geffe (execGeffeBuild k s) (execGeffeBuild k t) := by
  unfold execGeffeBuild
  rw [show t.geffe = s.geffe from h.unit]
  split
  · exact h.fail _
  · split
    · exact h.fail _
    · exact (h.putGeffe _ _).answer _

theorem execGeffe3Build_sameOutcome (h : AgreeOn .geffe3 s t) :
    SameOutcome .geffe3 (execGeffe3Build s) (execGeffe3Build t) := by
  unfold execGeffe3Build
  rw [show t.geffe3 = s.geffe3 from h.unit]
  split
  · exact h.fail _
  · split
    · exact h.fail _
    · exact (h.putGeffe3 _).answer _

/-- Two states that agree on the unit of a command have the same outcome on it: each command is one of the shared operations
on its unit. -/
theorem exec_sameOutcome {i : Instr} (h : AgreeOn (unitOf i) s t) : SameOutcome (unitOf i) (exec i s) (exec i t) := by
  cases i with
  | eNew r p n c o q => exact execENew_sameOutcome (r := r) h p n c o q
  | eStep r | eRun r _ | eRunFull r | eSetPoly r _ _ _ | eSetState r _ _ | eSetConf r _ | eSetOidx r _ =>
    exact onEngine_sameOutcome (r := r) h _
  | eReset r => exact onEngine_sameOutcome (r := r) h fun e => .ok (.nothing, e.reset)
  | eGetState r | eGetPoly r | eGetSeq r | eGetCount r | eGetPeriod r | eGetOutbit r | eGetFb r =>
    exact readEngine_sameOutcome (r := r) h _
  | a51Build => exact execA51Build_sameOutcome h
  | a51Step | a51Run _ | a51Reset | a51GetSeq | a51GetCount | a51GetOutbit | a51GetCb => exact onA51_sameOutcome h _
  | geffeBuild k => exact execGeffeBuild_sameOutcome h k
  | geffeStep => rw [exec_geffeStep, exec_geffeStep, h.cfg]; exact onGeffe_sameOutcome h _
  | geffeRun k => rw [exec_geffeRun, exec_geffeRun, h.cfg]; exact onGeffe_sameOutcome h _
  | geffeReset | geffeGetSeq | geffeGetCount | geffeGetOutbit | geffeGetSel => exact onGeffe_sameOutcome h _
  | geffe3Build => exact execGeffe3Build_sameOutcome h
  | geffe3Step => rw [exec_geffe3Step, exec_geffe3Step, h.cfg]; exact onGeffe3_sameOutcome h _
  | geffe3Run k => rw [exec_geffe3Run, exec_geffe3Run, h.cfg]; exact onGeffe3_sameOutcome h _
  | geffe3Reset | geffe3GetSeq | geffe3GetCount | geffe3GetOutbit => exact onGeffe3_sameOutcome h _

theorem AgreeOn.exec_next {i : Instr} {s' t' : State} (h : AgreeOn (unitOf i) s t) (hs : exec i s = .next s')
    (ht : exec i t = .next t') : AgreeOn (unitOf i) s' t' ∧ t'.response = s'.response := by
  obtain ⟨s₁, t₁, hs₁, ht₁, ha⟩ := exec_sameOutcome h
  cases hs.symm.trans hs₁
  cases ht.symm.trans ht₁
  exact ha

end

/-- Settles O52, by `exec_sameOutcome`. -/
theorem unitsDependOnlyOnTheirOwnCommands : Obligations.UnitsDependOnlyOnTheirOwnCommands := by
  intro i s t s' t' hu hc hd hs ht
  obtain ⟨ha, hr⟩ := AgreeOn.exec_next ⟨hu, hd, hc⟩ hs ht
  exact ⟨ha.unit, hr, ha.draws⟩

/-! ### Commands to different units commute -/

/-- After both commands the unit of the first holds the same in either order: the second leaves it, and before the first it
leaves all that the first reads. -/
theorem exec_swap_agreeOn {i j : Instr} {s si sij sj sji : State} (hij : unitOf i ≠ unitOf j) (hi : exec i s = .next si)
    (hij' : exec j si = .next sij) (hj : exec j s = .next sj) (hji : exec i sj = .next sji) :
    AgreeOn (unitOf i) sij sji :=
  (AgreeOn.of_exec hij' hij).symm.trans ((AgreeOn.of_exec hj hij).exec_next hi hji).1

/-- Settles O53: the units of the two commands by `exec_swap_agreeOn` from either side, every other by the frames (O51). -/
theorem commandsToDifferentUnitsCommute : Obligations.CommandsToDifferentUnitsCommute := by
  intro i j s si sij sj sji hne hi hij hj hji
  have agree (n : UnitName) : AgreeOn n sij sji := by
    by_cases hni : n = unitOf i
    · exact hni ▸ exec_swap_agreeOn hne hi hij hj hji
    · by_cases hnj : n = unitOf j
      · exact hnj ▸ (exec_swap_agreeOn hne.symm hj hji hi hij).symm
      · have viaI := (AgreeOn.of_exec hi hni).trans (.of_exec hij hnj)
        have viaJ := (AgreeOn.of_exec hj hnj).trans (.of_exec hji hni)
        exact viaI.symm.trans viaJ
  have host : sji.host = sij.host := by
    rw [(exec_cases hji).host, (exec_cases hj).host, (exec_cases hij).host, (exec_cases hi).host]
  exact ⟨.of_forall fun n => (agree n).unit, host, Draws.ext_get fun n => (agree n).draws, (agree (unitOf i)).cfg⟩

end Sys2Proof.Machine

end

section
/-!
SUPPORT. The statements of the encoding: the decoder inverts the encoder, what a command that decodes says of its
instruction, which commands are reserved, and the slots that are closed to writes and stay so.
-/

namespace Sys2Proof

open Machine

/-! ### The decoder inverts the encoder -/

/-- An engine-class command without vectors is decoded by its operation. -/
theorem decode_engineOp (op : EOp) (t : EngineRef) (imm : BitVec 16) :
    decode (engineCommand op.byte t imm [] []) = decodeEngine op t imm [] [] :=
  decode_engineCommand (Op.ofByte_byte (.engine op)) t imm (Nat.zero_le _) (Nat.zero_le _)

/-- A composite-class command is decoded by its operation. -/
theorem decode_compositeOp (op : COp) (u : CompositeRef) (imm : BitVec 16) :
    decode (compositeCommand op.byte u imm) = decodeComposite op u imm [] [] :=
  decode_compositeCommand (Op.ofByte_byte (.composite op)) u imm

theorem Instr.wellFormed_eNew {t : EngineRef} {taps : List Int} {init : InitSpec} {conf : ConfTag} {oidx : Int}
    {policy : Policy} : (Instr.eNew t taps init conf oidx policy).wellFormed = true ↔
      tapsEncodable taps = true ∧ init.encodable = true ∧ oidxEncodable oidx = true := by
  simp only [Instr.wellFormed, Bool.and_eq_true, and_assoc]

/-- A number that `imm16` holds is read back from it. -/
theorem toNat_imm16 {k : Nat} (h : kEncodable k = true) : (BitVec.ofNat 16 k).toNat = k :=
  Nat.mod_eq_of_lt (of_decide_eq_true h)

/-- An `init_spec` is encodable exactly where its vector fits the port. -/
theorem InitSpec.encodable_iff {init : InitSpec} : init.encodable = true ↔ init.vector.length ≤ mMax := by
  cases init with
  | allOnes | random => exact iff_of_true rfl (Nat.zero_le _)
  | explicit bits => exact decide_eq_true_iff

theorem decode_encode_eNew {t : EngineRef} {taps : List Int} {init : InitSpec} {conf : ConfTag} {oidx : Int} {policy : Policy}
    (h : (Instr.eNew t taps init conf oidx policy).wellFormed = true) :
    decode (encode (.eNew t taps init conf oidx policy)) = .ok (.eNew t taps init conf oidx policy) := by
  obtain ⟨ht, hi, ho⟩ := Instr.wellFormed_eNew.1 h
  refine (decode_engineCommand (op := .new) rfl t _ (tapMask_fits ht) (InitSpec.encodable_iff.1 hi)).trans ?_
  simp [decodeEngine, decodeNew, tapsOfMask_tapMask ht, oidx_roundtrip ho]

theorem decode_encode_eSetPoly {t : EngineRef} {taps : List Int} {reset enforce : Bool} (h : tapsEncodable taps = true) :
    decode (encode (.eSetPoly t taps reset enforce)) = .ok (.eSetPoly t taps reset enforce) := by
  refine (decode_engineCommand (op := .setPoly) rfl t _ (tapMask_fits h) (Nat.zero_le _)).trans ?_
  simp [decodeEngine, tapsOfMask_tapMask h, accept]

theorem decode_encode_eSetState {t : EngineRef} {bits : Bits} {enforce : Bool} (h : bitsEncodable bits = true) :
    decode (encode (.eSetState t bits enforce)) = .ok (.eSetState t bits enforce) := by
  refine (decode_engineCommand (op := .setState) rfl t _ (Nat.zero_le _) (of_decide_eq_true h)).trans ?_
  simp [decodeEngine, accept]

theorem decode_encode_eSetConf (t : EngineRef) (conf : ConfTag) :
    decode (encode (.eSetConf t conf)) = .ok (.eSetConf t conf) := by
  cases conf <;> exact decode_engineOp .setConf t _

theorem decode_encode_eSetOidx {t : EngineRef} {oidx : Int} (h : oidxEncodable oidx = true) :
    decode (encode (.eSetOidx t oidx)) = .ok (.eSetOidx t oidx) := by
  refine (decode_engineOp .setOidx t _).trans ?_
  have low : (BitVec.ofInt 8 oidx ++ 0#8).extractLsb' 0 8 = 0#8 := BitVec.extractLsb'_append_eq_right
  have high : (BitVec.ofInt 8 oidx ++ 0#8).extractLsb' 8 8 = BitVec.ofInt 8 oidx := BitVec.extractLsb'_append_eq_left
  simp [decodeEngine, accept, low, high, oidx_roundtrip h]

theorem decode_encode_geffeBuild {k : Nat} (h : compsEncodable k = true) :
    decode (encode (.geffeBuild k)) = .ok (.geffeBuild k) := by
  refine (decode_compositeOp .build .geffe _).trans ?_
  have low : (0#12 ++ BitVec.ofNat 4 k).extractLsb' 0 4 = BitVec.ofNat 4 k := BitVec.extractLsb'_append_eq_right
  have high : (0#12 ++ BitVec.ofNat 4 k).extractLsb' 4 12 = 0#12 := BitVec.extractLsb'_append_eq_left
  have hk : k < 16 := of_decide_eq_true h
  simp [decodeComposite, accept, low, high, Nat.mod_eq_of_lt hk]

/-- The decoder inverts the encoder on what the encoding carries. -/
theorem decode_encode {i : Instr} (h : i.wellFormed = true) : decode (encode i) = .ok i := by
  cases i with
  | eNew => exact decode_encode_eNew h
  | eStep t => exact decode_engineOp .step t 0
  | eRun t k => exact (decode_engineOp .run t _).trans (congrArg (Except.ok ∘ Instr.eRun t) (toNat_imm16 h))
  | eRunFull t => exact decode_engineOp .runFull t 0
  | eReset t => exact decode_engineOp .reset t 0
  | eSetPoly => exact decode_encode_eSetPoly h
  | eSetState => exact decode_encode_eSetState h
  | eSetConf t conf => exact decode_encode_eSetConf t conf
  | eSetOidx => exact decode_encode_eSetOidx h
  | eGetState t => exact decode_engineOp .getState t 0
  | eGetPoly t => exact decode_engineOp .getPoly t 0
  | eGetSeq t => exact decode_engineOp .getSeq t 0
  | eGetCount t => exact decode_engineOp .getCount t 0
  | eGetPeriod t => exact decode_engineOp .getPeriod t 0
  | eGetOutbit t => exact decode_engineOp .getOutbit t 0
  | eGetFb t => exact decode_engineOp .getFb t 0
  | a51Build => exact decode_compositeOp .build .a51 0
  | a51Step => exact decode_compositeOp .step .a51 0
  | a51Run k => exact (decode_compositeOp .run .a51 _).trans (congrArg (Except.ok ∘ Instr.a51Run) (toNat_imm16 h))
  | a51Reset => exact decode_compositeOp .reset .a51 0
  | a51GetSeq => exact decode_compositeOp .getSeq .a51 0
  | a51GetCount => exact decode_compositeOp .getCount .a51 0
  | a51GetOutbit => exact decode_compositeOp .getOutbit .a51 0
  | a51GetCb => exact decode_compositeOp .getAux .a51 0
  | geffeBuild => exact decode_encode_geffeBuild h
  | geffeStep => exact decode_compositeOp .step .geffe 0
  | geffeRun k => exact (decode_compositeOp .run .geffe _).trans (congrArg (Except.ok ∘ Instr.geffeRun) (toNat_imm16 h))
  | geffeReset => exact decode_compositeOp .reset .geffe 0
  | geffeGetSeq => exact decode_compositeOp .getSeq .geffe 0
  | geffeGetCount => exact decode_compositeOp .getCount .geffe 0
  | geffeGetOutbit => exact decode_compositeOp .getOutbit .geffe 0
  | geffeGetSel => exact decode_compositeOp .getAux .geffe 0
  | geffe3Build => exact decode_compositeOp .build .geffe3 0
  | geffe3Step => exact decode_compositeOp .step .geffe3 0
  | geffe3Run k => exact (decode_compositeOp .run .geffe3 _).trans (congrArg (Except.ok ∘ Instr.geffe3Run) (toNat_imm16 h))
  | geffe3Reset => exact decode_compositeOp .reset .geffe3 0
  | geffe3GetSeq => exact decode_compositeOp .getSeq .geffe3 0
  | geffe3GetCount => exact decode_compositeOp .getCount .geffe3 0
  | geffe3GetOutbit => exact decode_compositeOp .getOutbit .geffe3 0

/-- Settles O1, by the constructors of the instruction: the fields of its header, its immediate and its mask are read
back. -/
theorem encodedInstructionsDecodeBack : Obligations.EncodedInstructionsDecodeBack := fun _ h => decode_encode h

/-! ### What a decoded command says of its instruction -/

/-- An `imm16` with zeros in bits 15 to 2 is its `conf` field. -/
theorem confImm_fields {imm : BitVec 16} (h : imm.extractLsb' 2 14 = 0) : 0#14 ++ imm.extractLsb' 0 2 = imm := by
  rw [show (0#14) = imm.extractLsb' 2 14 from h.symm, slices_join imm 2 14 0 2 rfl]
  exact BitVec.extractLsb'_eq_self

/-- An `imm16` with zeros in bits 7 to 0 is its `oidx8` field. -/
theorem oidxImm_fields {imm : BitVec 16} (h : imm.extractLsb' 0 8 = 0) : imm.extractLsb' 8 8 ++ 0#8 = imm := by
  rw [show (0#8) = imm.extractLsb' 0 8 from h.symm, slices_join imm 8 8 0 8 rfl]
  exact BitVec.extractLsb'_eq_self

/-- An `imm16` with zeros in bits 15 to 4 is its number of components. -/
theorem compsImm_fields {imm : BitVec 16} (h : imm.extractLsb' 4 12 = 0) : 0#12 ++ imm.extractLsb' 0 4 = imm := by
  rw [show (0#12) = imm.extractLsb' 4 12 from h.symm, slices_join imm 4 12 0 4 rfl]
  exact BitVec.extractLsb'_eq_self

/-- The encoding of the instruction is the command, up to absent taps at the end of its mask, and the encoding can carry the
instruction. -/
structure Reads (c : Command) (i : Instr) : Prop where
  wellFormed : i.wellFormed = true
  hdr : (encode i).hdr = c.hdr
  vb : (encode i).vb = c.vb
  taps : ∀ p : Nat, (encode i).va[p]? = some true ↔ c.va[p]? = some true

/-- The encoding of a well-formed instruction reads as it. -/
theorem Reads.encoded {i : Instr} (h : i.wellFormed = true) : Reads (encode i) i := ⟨h, rfl, rfl, fun _ => Iff.rfl⟩

/-- `accept` for an operation that takes no vector. -/
theorem accept_bare_ok {zero : Bool} {va vb : Bits} {i j : Instr} :
    accept zero (decide (va = []) && decide (vb = [])) i = .ok j ↔ zero = true ∧ (va = [] ∧ vb = []) ∧ i = j := by
  rw [accept_ok, Bool.and_eq_true, decide_eq_true_eq, decide_eq_true_eq]

/-- `accept` for an operation that takes neither an immediate nor a vector. -/
theorem accept_plain_ok {imm : BitVec 16} {va vb : Bits} {i j : Instr} :
    accept (decide (imm = 0)) (decide (va = []) && decide (vb = [])) i = .ok j ↔ imm = 0 ∧ (va = [] ∧ vb = []) ∧ i = j := by
  rw [accept_bare_ok, decide_eq_true_eq]

/-- What an operation reads that takes neither an immediate nor a vector. -/
theorem Reads.plain {imm : BitVec 16} {va vb : Bits} {i j : Instr} {hdr : BitVec 16 → Header}
    (hd : accept (decide (imm = 0)) (decide (va = []) && decide (vb = [])) j = .ok i) (hj : encode j = ⟨hdr 0, [], []⟩)
    (hw : j.wellFormed = true) : Reads ⟨hdr imm, va, vb⟩ i := by
  obtain ⟨rfl, ⟨rfl, rfl⟩, rfl⟩ := accept_plain_ok.1 hd
  exact hj ▸ .encoded hw

/-- What a run reads, whose `k` is the whole `imm16`. -/
theorem Reads.run {imm : BitVec 16} {va vb : Bits} {i : Instr} {f : Nat → Instr} {hdr : BitVec 16 → Header}
    (hd : accept true (decide (va = []) && decide (vb = [])) (f imm.toNat) = .ok i)
    (hf : ∀ k, encode (f k) = ⟨hdr (BitVec.ofNat 16 k), [], []⟩) (hw : ∀ k, (f k).wellFormed = kEncodable k) :
    Reads ⟨hdr imm, va, vb⟩ i := by
  obtain ⟨-, ⟨rfl, rfl⟩, rfl⟩ := accept_bare_ok.1 hd
  have he := hf imm.toNat
  rw [BitVec.ofNat_toNat, BitVec.setWidth_eq] at he
  exact he ▸ .encoded ((hw _).trans (decide_eq_true imm.isLt))

theorem decodeNew_reads {t : EngineRef} {imm : BitVec 16} {va vb : Bits} {i : Instr} (ha : va.length ≤ mMax)
    (hb : vb.length ≤ mMax) (h : decodeNew t imm va vb = .ok i) : Reads (engineCommand 0x01 t imm va vb) i := by
  unfold decodeNew at h
  split at h
  · next hz =>
    split at h
    · next init hi =>
      cases h
      obtain ⟨hf, rfl⟩ := InitSpec.ofField_ok.1 hi
      have encodable := InitSpec.encodable_iff.2 hb
      refine ⟨Instr.wellFormed_eNew.2 ⟨tapsOfMask_encodable ha, encodable, oidxEncodable_ofField _⟩, ?_, rfl,
        tapMask_tapsOfMask va⟩
      simp only [encode, engineCommand, ConfTag.field_ofField, Policy.field_ofField, ofInt_oidxOfField, ← hf,
        newImm_fields hz]
    · cases h
  · cases h

theorem decodeEngine_reads {op : EOp} {t : EngineRef} {imm : BitVec 16} {va vb : Bits} {i : Instr} (ha : va.length ≤ mMax)
    (hb : vb.length ≤ mMax) (h : decodeEngine op t imm va vb = .ok i) : Reads (engineCommand op.byte t imm va vb) i := by
  cases op with
  | new => exact decodeNew_reads ha hb h
  | run => exact .run (hdr := header 0x03 t.unit t.slot) h (fun _ => rfl) fun _ => rfl
  | setPoly =>
    obtain ⟨hz, hv, rfl⟩ := accept_ok.1 h
    rw [decide_eq_true_eq] at hz hv
    subst hv
    refine ⟨tapsOfMask_encodable ha, ?_, rfl, tapMask_tapsOfMask va⟩
    simp only [encode, engineCommand, flagsImm_fields hz, EOp.byte]
  | setState =>
    obtain ⟨hz, hv, rfl⟩ := accept_ok.1 h
    rw [Bool.and_eq_true, decide_eq_true_eq, Bool.not_eq_true'] at hz
    rw [decide_eq_true_eq] at hv
    subst hv
    refine ⟨decide_eq_true hb, ?_, rfl, fun _ => Iff.rfl⟩
    simp only [encode, engineCommand, ← hz.2, flagsImm_fields hz.1, EOp.byte]
  | setConf =>
    obtain ⟨hz, ⟨rfl, rfl⟩, rfl⟩ := accept_bare_ok.1 h
    rw [decide_eq_true_eq] at hz
    refine ⟨rfl, ?_, rfl, fun _ => Iff.rfl⟩
    simp only [encode, engineCommand, ConfTag.field_ofField, confImm_fields hz, EOp.byte]
  | setOidx =>
    obtain ⟨hz, ⟨rfl, rfl⟩, rfl⟩ := accept_bare_ok.1 h
    rw [decide_eq_true_eq] at hz
    refine ⟨oidxEncodable_ofField _, ?_, rfl, fun _ => Iff.rfl⟩
    simp only [encode, engineCommand, ofInt_oidxOfField, oidxImm_fields hz, EOp.byte]
  | step | runFull | reset | getState | getPoly | getSeq | getCount | getPeriod | getOutbit | getFb =>
    exact .plain (hdr := header _ t.unit t.slot) h rfl rfl

theorem decodeComposite_reads {op : COp} {u : CompositeRef} {imm : BitVec 16} {va vb : Bits} {i : Instr}
    (h : decodeComposite op u imm va vb = .ok i) : Reads ⟨header op.byte u.unit 0 imm, va, vb⟩ i := by
  cases op with
  | run => cases u <;> exact .run (hdr := header 0x22 _ 0) h (fun _ => rfl) fun _ => rfl
  | build =>
    cases u with
    | geffe =>
      obtain ⟨hz, ⟨rfl, rfl⟩, rfl⟩ := accept_bare_ok.1 h
      rw [decide_eq_true_eq] at hz
      refine ⟨decide_eq_true (imm.extractLsb' 0 4).isLt, ?_, rfl, fun _ => Iff.rfl⟩
      simp only [encode, compositeCommand, BitVec.ofNat_toNat, BitVec.setWidth_eq, compsImm_fields hz, COp.byte]
    | a51 | geffe3 => exact .plain (hdr := header 0x20 _ 0) h rfl rfl
  | getAux =>
    cases u with
    | geffe3 => cases h
    | a51 | geffe => exact .plain (hdr := header 0x2B _ 0) h rfl rfl
  | step | reset | getSeq | getCount | getOutbit => cases u <;> exact .plain (hdr := header _ _ 0) h rfl rfl

/-- Every command that decodes reads as what it decodes to. -/
theorem decode_reads {c : Command} {i : Instr} (h : decode c = .ok i) : Reads c i := by
  obtain ⟨ha, hb, ⟨op, t, hc, hd⟩ | ⟨op, u, hc, hd⟩⟩ := decode_ok h
  · have reads := decodeEngine_reads ha hb hd
    rwa [engineCommand, ← hc] at reads
  · have reads := decodeComposite_reads hd
    rwa [← hc] at reads

/-- Settles O2: the operands are read from fields that hold no others. -/
theorem decodedInstructionsAreWellFormed : Obligations.DecodedInstructionsAreWellFormed :=
  fun _ _ h => (decode_reads h).wellFormed

/-- Settles O3: the header, `vb` and the set elements of `va` are those of the encoding. -/
theorem decodingLosesNoBit : Obligations.DecodingLosesNoBit :=
  fun _ _ h => ⟨(decode_reads h).hdr, (decode_reads h).vb, (decode_reads h).taps⟩

/-! ### Headers against the opcode table -/

/-- The header of an engine-class command under a mask that leaves unit and slot out. -/
theorem engineHeader_masked (op : BitVec 8) (t : EngineRef) (imm m : BitVec 16) (h : imm &&& m = 0) :
    header op t.unit t.slot imm &&& header 0xFF 0 0 m = header op 0 0 0 := by
  rw [header_and, h, show (0 : BitVec 4) = 0#4 from rfl, BitVec.and_zero, BitVec.and_zero,
    show (0xFF : BitVec 8) = BitVec.allOnes 8 from rfl, BitVec.and_allOnes]

/-- The header of a composite-class command under a mask of the whole `op`, `unit` and `slot`. -/
theorem compositeHeader_masked (op : BitVec 8) (u : CompositeRef) (imm m : BitVec 16) (h : imm &&& m = 0) :
    header op u.unit 0 imm &&& header 0xFF 0xF 0xF m = header op u.unit 0 0 := by
  rw [header_and, h, show (0xF : BitVec 4) = BitVec.allOnes 4 from rfl, BitVec.and_allOnes, BitVec.and_allOnes,
    show (0xFF : BitVec 8) = BitVec.allOnes 8 from rfl, BitVec.and_allOnes]

/-- An immediate with a zero slice is zero under a mask inside the slice. -/
theorem imm_and_zero {imm m : BitVec 16} (start len : Nat) (h : imm.extractLsb' start len = 0)
    (hm : ∀ i < 16, m.getLsbD i = true → start ≤ i ∧ i < start + len) : imm &&& m = 0 :=
  and_slice_zero h fun i hi => hm i (BitVec.lt_of_getLsbD hi) hi

/-- Every encoding matches its row of the table. -/
theorem encode_matches_tableRow (i : Instr) : (encode i).hdr &&& (tableRow i).2 = (tableRow i).1 := by
  cases i with
  | eNew t taps init conf oidx policy =>
    exact engineHeader_masked 0x01 t _ 0x00E0 (imm_and_zero 5 3 (newImm_zero ..) (by decide))
  | eRun t k => exact engineHeader_masked 0x03 t _ 0 BitVec.and_zero
  | eSetPoly t taps reset enforce => exact engineHeader_masked 0x06 t _ 0xFFFC (imm_and_zero 2 14 (flagsImm_zero ..) (by decide))
  | eSetState t bits enforce => exact engineHeader_masked 0x07 t _ 0xFFFD (by cases enforce <;> rfl)
  | eSetConf t conf => exact engineHeader_masked 0x08 t _ 0xFFFC (by cases conf <;> rfl)
  | eSetOidx t oidx =>
    exact engineHeader_masked 0x09 t _ 0x00FF (imm_and_zero 0 8 BitVec.extractLsb'_append_eq_right (by decide))
  | eStep t | eRunFull t | eReset t | eGetState t | eGetPoly t | eGetSeq t | eGetCount t | eGetPeriod t | eGetOutbit t
  | eGetFb t => exact engineHeader_masked _ t 0 0xFFFF BitVec.zero_and
  | geffeBuild k =>
    exact compositeHeader_masked 0x20 .geffe _ 0xFFF0 (imm_and_zero 4 12 BitVec.extractLsb'_append_eq_left (by decide))
  | a51Run k => exact compositeHeader_masked 0x22 .a51 _ 0 BitVec.and_zero
  | geffeRun k => exact compositeHeader_masked 0x22 .geffe _ 0 BitVec.and_zero
  | geffe3Run k => exact compositeHeader_masked 0x22 .geffe3 _ 0 BitVec.and_zero
  | a51Build | a51Step | a51Reset | a51GetSeq | a51GetCount | a51GetOutbit | a51GetCb | geffeStep | geffeReset | geffeGetSeq
  | geffeGetCount | geffeGetOutbit | geffeGetSel | geffe3Build | geffe3Step | geffe3Reset | geffe3GetSeq | geffe3GetCount
  | geffe3GetOutbit => rfl

/-- Settles O5: the header is that of the instruction's encoding, and every encoding matches its row. -/
theorem decodedHeadersMatchTheirTableRow : Obligations.DecodedHeadersMatchTheirTableRow := by
  intro c i h
  rw [← (decode_reads h).hdr]
  exact encode_matches_tableRow i

/-! ### The reserved commands -/

/-- A field of the header as a number. -/
theorem headerBits_eq (h : Header) (lo len : Nat) (hl : 0 < len) :
    headerBits h (lo + len - 1) lo = (h.extractLsb' lo len).toNat := by
  rw [headerBits, BitVec.extractLsb'_toNat, Nat.shiftRight_eq_div_pow, show lo + len - 1 + 1 - lo = len by omega]

theorem headerBits_op (h : Header) : headerBits h 31 24 = (opField h).toNat := headerBits_eq h 24 8 (by decide)
theorem headerBits_unit (h : Header) : headerBits h 23 20 = (unitField h).toNat := headerBits_eq h 20 4 (by decide)
theorem headerBits_slot (h : Header) : headerBits h 19 16 = (slotField h).toNat := headerBits_eq h 16 4 (by decide)

/-- The `init` field of `E_NEW` in the header. -/
theorem headerBits_init (h : Header) : headerBits h 3 2 = ((immField h).extractLsb' 2 2).toNat := by
  rw [immField, BitVec.extractLsb'_extractLsb'_of_le (by decide)]
  exact headerBits_eq h 2 2 (by decide)

theorem Op.ofByte_eq_none (b : BitVec 8) : Op.ofByte b = none ↔ b.toNat ∉ opcodes := by revert b; decide

/-- Some bit of the list is set in the header exactly when the slice of `imm16` that the list spells is not zero. -/
theorem exists_bit_iff (h : Header) {l : List Nat} (start len : Nat) (hl : l = List.range' start len) (hle : start + len ≤ 16) :
    (∃ b ∈ l, h.getLsbD b = true) ↔ (immField h).extractLsb' start len ≠ 0 := by
  subst hl
  rw [immField, BitVec.extractLsb'_extractLsb'_of_le hle]
  constructor
  · rintro ⟨b, hb, hs⟩ hz
    rw [List.mem_range'_1] at hb
    have := congrArg (·.getLsbD (b - start)) hz
    simp [show b - start < len by omega, show start + (b - start) = b by omega, hs] at this
  · intro hne
    by_contra hno
    refine hne (BitVec.eq_of_getLsbD_eq fun i hi => ?_)
    have := fun hs => hno ⟨start + i, List.mem_range'_1.2 ⟨by omega, by omega⟩, hs⟩
    simpa [hi] using this

/-- `imm16` is not zero exactly when some bit of it is set. -/
theorem exists_imm_bit_iff (h : Header) : (∃ b ∈ List.range 16, h.getLsbD b = true) ↔ immField h ≠ 0 := by
  rw [exists_bit_iff h 0 16 List.range_eq_range' (by decide), BitVec.extractLsb'_eq_self]

/-- The header sets one of the bits that R85 wants 0. -/
def SetsZeroBit (op unit : Nat) (h : Header) : Prop := ∃ b ∈ zeroBits op unit, h.getLsbD b = true

/-- The cases of R91 that speak of the operands: a bit that must be 0, the reserved `init`, a vector the opcode does not take. -/
def OperandsReserved (op unit : Nat) (c : Command) : Prop :=
  SetsZeroBit op unit c.hdr ∨ (op = 0x01 ∧ headerBits c.hdr 3 2 = 3) ∨ (c.va ≠ [] ∧ op ≠ 0x01 ∧ op ≠ 0x06) ∨
    (c.vb ≠ [] ∧ op ≠ 0x07 ∧ ¬(op = 0x01 ∧ headerBits c.hdr 3 2 = 2))

/-- R91 in the fields of the header: opcode, target, operands. -/
theorem reservedEncoding_iff (c : Command) : ReservedEncoding c ↔
    (opField c.hdr).toNat ∉ opcodes ∨
      (3 < (unitField c.hdr).toNat ∨ ¬targetAllowed (opField c.hdr).toNat (unitField c.hdr).toNat (slotField c.hdr).toNat) ∨
      OperandsReserved (opField c.hdr).toNat (unitField c.hdr).toNat c := by
  simp only [ReservedEncoding, OperandsReserved, SetsZeroBit, headerBits_op, headerBits_unit, headerBits_slot, or_assoc]

theorem exists_error_iff {α : Type} {x : Except Reserved α} : (∃ r, x = .error r) ↔ x.isOk = false := by
  cases x <;> simp [Except.isOk, Except.toBool]

/-- The fields name no engine (R83). -/
theorem EngineRef.ofFields_error {op : Nat} (hop : op < 0x20) (u s : BitVec 4) :
    (∃ r, EngineRef.ofFields u s = .error r) ↔ 3 < u.toNat ∨ ¬targetAllowed op u.toNat s.toNat := by
  rw [exists_error_iff, targetAllowed, if_pos hop]
  revert u s
  decide

/-- A composite-class target is reserved where the fields name no composite (R84), and under `0x2B` the Geffe3 unit (R90). -/
theorem targetAllowed_composite {op : Nat} (hop : ¬op < 0x20) (u s : BitVec 4) :
    3 < u.toNat ∨ ¬targetAllowed op u.toNat s.toNat ↔
      (∃ r, CompositeRef.ofFields u s = .error r) ∨ op = 0x2B ∧ CompositeRef.ofFields u s = .ok .geffe3 := by
  rw [exists_error_iff, targetAllowed, if_neg hop, CompositeRef.ofFields_ok]
  revert u s
  by_cases hp : op = 0x2B
  · subst hp; decide
  · simp only [hp, false_and, not_false_eq_true, and_true, or_false]; decide

theorem InitSpec.ofField_error (f : BitVec 2) (vb : Bits) :
    (∃ r, InitSpec.ofField f vb = .error r) ↔ f.toNat = 3 ∨ vb ≠ [] ∧ f.toNat ≠ 2 := by
  have : f = 0 ∨ f = 1 ∨ f = 2 ∨ f = 3 := by revert f; decide
  rcases this with rfl | rfl | rfl | rfl <;> cases vb <;> simp [InitSpec.ofField]

theorem accept_rejects {zero noVector : Bool} {i : Instr} :
    (∃ r, accept zero noVector i = .error r) ↔ zero = false ∨ noVector = false := by
  rw [accept_error, not_and_or, Bool.not_eq_true, Bool.not_eq_true]

/-- An operation other than `E_NEW` is rejected for its operands where its two checks say what R91 says. -/
theorem accept_rejects_operands {op u : Nat} {c : Command} {zero noVector : Bool} {i : Instr} (hop : op ≠ 0x01)
    (hz : SetsZeroBit op u c.hdr ↔ zero = false)
    (hv : c.va ≠ [] ∧ op ≠ 0x06 ∨ c.vb ≠ [] ∧ op ≠ 0x07 ↔ noVector = false) :
    (∃ r, accept zero noVector i = .error r) ↔ OperandsReserved op u c := by
  rw [accept_rejects, ← hz, ← hv]
  simp only [OperandsReserved, hop, false_and, false_or, not_false_eq_true, and_true, ne_eq, true_and]

/-- An operation that takes no vector is rejected where one of its zero bits is set or a vector is given. -/
theorem bare_rejects {op u : Nat} {c : Command} {zero : Bool} {i : Instr} (hop : op ∉ [0x01, 0x06, 0x07])
    (hz : SetsZeroBit op u c.hdr ↔ zero = false) :
    (∃ r, accept zero (decide (c.va = []) && decide (c.vb = [])) i = .error r) ↔ OperandsReserved op u c := by
  simp only [List.mem_cons, List.not_mem_nil, or_false, not_or] at hop
  obtain ⟨h1, h6, h7⟩ := hop
  refine accept_rejects_operands h1 hz ?_
  rw [Bool.and_eq_false_iff, decide_eq_false_iff_not, decide_eq_false_iff_not]
  exact or_congr (and_iff_left h6) (and_iff_left h7)

/-- The whole `imm16` must be 0. -/
theorem setsZeroBit_whole {op u : Nat} {h : Header} (hop : zeroBits op u = List.range 16) :
    SetsZeroBit op u h ↔ decide (immField h = 0) = false := by
  rw [SetsZeroBit, hop, exists_imm_bit_iff, decide_eq_false_iff_not]

/-- A slice of `imm16` must be 0. -/
theorem setsZeroBit_slice {op u : Nat} {h : Header} (start len : Nat) (hop : zeroBits op u = List.range' start len)
    (hle : start + len ≤ 16) : SetsZeroBit op u h ↔ decide ((immField h).extractLsb' start len = 0) = false := by
  rw [SetsZeroBit, exists_bit_iff h start len hop hle, decide_eq_false_iff_not]

/-- No bit of `imm16` must be 0. -/
theorem setsZeroBit_none {op u : Nat} {h : Header} (hop : zeroBits op u = []) : SetsZeroBit op u h ↔ true = false := by
  simp [SetsZeroBit, hop]

/-- `E_SET_STATE`: bits 15 to 2 and bit 0 of `imm16` must be 0. -/
theorem setsZeroBit_setState {u : Nat} {h : Header} : SetsZeroBit 0x07 u h ↔
    (decide ((immField h).extractLsb' 2 14 = 0) && !(immField h).getLsbD 0) = false := by
  have hb : (immField h).getLsbD 0 = h.getLsbD 0 := by simp [immField]
  rw [SetsZeroBit, show zeroBits 0x07 u = 0 :: List.range' 2 14 from rfl, List.exists_mem_cons_iff,
    exists_bit_iff h 2 14 rfl (by decide), Bool.and_eq_false_iff, decide_eq_false_iff_not, Bool.not_eq_false', hb, or_comm]

theorem decodeNew_rejects (t : EngineRef) (u : Nat) (c : Command) :
    (∃ r, decodeNew t (immField c.hdr) c.va c.vb = .error r) ↔ OperandsReserved 0x01 u c := by
  have zero : SetsZeroBit 0x01 u c.hdr ↔ (immField c.hdr).extractLsb' 5 3 ≠ 0 := exists_bit_iff _ 5 3 rfl (by decide)
  have init : (∃ r, InitSpec.ofField ((immField c.hdr).extractLsb' 2 2) c.vb = .error r) ↔
      headerBits c.hdr 3 2 = 3 ∨ c.vb ≠ [] ∧ headerBits c.hdr 3 2 ≠ 2 := by
    rw [InitSpec.ofField_error, headerBits_init]
  have operands : OperandsReserved 0x01 u c ↔ (immField c.hdr).extractLsb' 5 3 ≠ 0 ∨
      ∃ r, InitSpec.ofField ((immField c.hdr).extractLsb' 2 2) c.vb = .error r := by
    rw [init, ← zero]
    simp [OperandsReserved]
  rw [operands]
  unfold decodeNew
  split
  · next hz =>
    rw [or_iff_right (not_not.2 hz)]
    split
    · next i hi => simp [hi]
    · next r hr => exact iff_of_true ⟨r, rfl⟩ ⟨r, hr⟩
  · next hz => exact iff_of_true ⟨_, rfl⟩ (.inl hz)

theorem decodeEngine_rejects (op : EOp) (t : EngineRef) (u : Nat) (c : Command) :
    (∃ r, decodeEngine op t (immField c.hdr) c.va c.vb = .error r) ↔ OperandsReserved op.byte.toNat u c := by
  cases op with
  | new => exact decodeNew_rejects t u c
  | run => exact bare_rejects (by decide) (setsZeroBit_none rfl)
  | setPoly =>
    exact accept_rejects_operands (by decide) (setsZeroBit_slice 2 14 rfl (by decide)) (by simp [EOp.byte])
  | setState => exact accept_rejects_operands (by decide) setsZeroBit_setState (by simp [EOp.byte])
  | setConf => exact bare_rejects (by decide) (setsZeroBit_slice 2 14 rfl (by decide))
  | setOidx => exact bare_rejects (by decide) (setsZeroBit_slice 0 8 rfl (by decide))
  | step | runFull | reset | getState | getPoly | getSeq | getCount | getPeriod | getOutbit | getFb =>
    exact bare_rejects (by decide) (setsZeroBit_whole rfl)

theorem decodeComposite_rejects (op : COp) (t : CompositeRef) (c : Command) :
    (∃ r, decodeComposite op t (immField c.hdr) c.va c.vb = .error r) ↔
      (op.byte.toNat = 0x2B ∧ t = .geffe3) ∨ OperandsReserved op.byte.toNat t.unit.toNat c := by
  by_cases h : op.byte.toNat = 0x2B ∧ t = .geffe3
  · obtain ⟨hop, rfl⟩ := h
    obtain rfl : op = .getAux := by revert hop; cases op <;> decide
    exact iff_of_true ⟨_, rfl⟩ (.inl ⟨rfl, rfl⟩)
  · rw [or_iff_right h]
    cases op with
    | build =>
      cases t with
      | geffe => exact bare_rejects (by decide) (setsZeroBit_slice 4 12 rfl (by decide))
      | a51 | geffe3 => exact bare_rejects (by decide) (setsZeroBit_whole rfl)
    | run => cases t <;> exact bare_rejects (by decide) (setsZeroBit_none rfl)
    | getAux =>
      cases t with
      | geffe3 => exact absurd ⟨rfl, rfl⟩ h
      | a51 | geffe => exact bare_rejects (by decide) (setsZeroBit_whole rfl)
    | step | reset | getSeq | getCount | getOutbit => cases t <;> exact bare_rejects (by decide) (setsZeroBit_whole rfl)

/-- Decoding by class rejects what R91 reserves for its target or its operands. -/
theorem decodeOp_rejects (op : Op) (c : Command) :
    (∃ r, decodeOp op (unitField c.hdr) (slotField c.hdr) (immField c.hdr) c.va c.vb = .error r) ↔
      (3 < (unitField c.hdr).toNat ∨ ¬targetAllowed op.byte.toNat (unitField c.hdr).toNat (slotField c.hdr).toNat) ∨
        OperandsReserved op.byte.toNat (unitField c.hdr).toNat c := by
  cases op with
  | engine op =>
    rw [← EngineRef.ofFields_error (by cases op <;> decide), decodeOp, Op.byte]
    cases ht : EngineRef.ofFields (unitField c.hdr) (slotField c.hdr) with
    | ok t => simp [decodeEngine_rejects op t (unitField c.hdr).toNat]
    | error r => simp
  | composite op =>
    rw [targetAllowed_composite (by cases op <;> decide), decodeOp, Op.byte]
    cases ht : CompositeRef.ofFields (unitField c.hdr) (slotField c.hdr) with
    | ok t => simp [decodeComposite_rejects, (CompositeRef.ofFields_ok.1 ht).1]
    | error r => simp

/-- The decoder rejects a command that fits the port exactly where R91 reserves it. -/
theorem decode_rejects {c : Command} (ha : c.va.length ≤ mMax) (hb : c.vb.length ≤ mMax) :
    (∃ r, decode c = .error r) ↔ ReservedEncoding c := by
  rw [reservedEncoding_iff, ← Op.ofByte_eq_none, decode, if_pos ⟨ha, hb⟩]
  cases hop : Op.ofByte (opField c.hdr) with
  | none => exact iff_of_true ⟨_, rfl⟩ (.inl rfl)
  | some op =>
    rw [Op.ofByte_eq_some.1 hop, or_iff_right (Option.some_ne_none op)]
    exact decodeOp_rejects op c

/-- Settles O6: a command that fits the port by its opcode, its target and its operands; any other is too long. -/
theorem decoderRejectsExactlyReserved : Obligations.DecoderRejectsExactlyReserved := by
  intro c
  by_cases hl : c.va.length ≤ mMax ∧ c.vb.length ≤ mMax
  · obtain ⟨ha, hb⟩ := hl
    rw [decode_rejects ha hb, or_iff_right (Nat.not_lt.2 ha), or_iff_right (Nat.not_lt.2 hb)]
  · have long : mMax < c.va.length ∨ mMax < c.vb.length := by simpa only [not_and_or, Nat.not_le] using hl
    refine iff_of_true ⟨.vectorTooLong, ?_⟩ (or_assoc.1 (.inl long))
    rw [decode, if_neg hl]

end Sys2Proof

namespace Sys2Proof.Machine

/-! ### Decoding and stepping -/

/-- Settles O4: each word is one run of the decoder on closed operands. -/
theorem workedEncodingsDecode : Obligations.WorkedEncodingsDecode := by
  unfold Obligations.WorkedEncodingsDecode
  decide

theorem step_of_decode_ok {s : State} {c : Command} {rest : List Command} {i : Instr} (hs : s.host = c :: rest)
    (hc : decode c = .ok i) : step s = exec i { s with host := rest } := by
  simp only [step, State.fetch, hs, hc]

theorem step_of_decode_error {s : State} {c : Command} {rest : List Command} {r : Reserved} (hs : s.host = c :: rest)
    (hc : decode c = .error r) : step s = fail .invalidCommand { s with host := rest } := by
  simp only [step, State.fetch, hs, hc, answerReserved]

/-- Settles O7, by what a step does with a command that decodes. -/
theorem stepPerformsTheDecodedCommand : Obligations.StepPerformsTheDecodedCommand :=
  fun _ _ _ _ hs hc => step_of_decode_ok hs hc

/-- Settles O8: the decoder rejects a reserved command (O6), and a step answers a rejected one so. -/
theorem reservedCommandsAnswerInvalidCommand : Obligations.ReservedCommandsAnswerInvalidCommand := by
  intro s c rest hs hc
  obtain ⟨r, hr⟩ := (decoderRejectsExactlyReserved c).2 (.inr (.inr hc))
  exact (step_of_decode_error hs hr).trans (fail_eq ..)

/-! ### Closed slots -/

/-- Settles O33: ownership and a build are looked at before anything else. -/
theorem builtCompositesAreClosedToWrites : Obligations.BuiltCompositesAreClosedToWrites := by
  refine ⟨fun s t ho k taps v a b c i init p cmd hcmd => ?_, fun s k => ⟨fun h => ?_, fun h => ?_, fun h => ?_⟩⟩
  · simp only [List.mem_cons, List.not_mem_nil, or_false] at hcmd
    obtain rfl | rfl | rfl | rfl | rfl | rfl | rfl | rfl | rfl := hcmd
    · exact execENew_owned ho
    · exact (exec_eStep ..).trans (onEngine_owned ho)
    · exact (exec_eRun ..).trans (onEngine_owned ho)
    · exact (exec_eRunFull ..).trans (onEngine_owned ho)
    · exact (exec_eReset ..).trans (onEngine_owned ho)
    · exact (exec_eSetPoly ..).trans (onEngine_owned ho)
    · exact (exec_eSetState ..).trans (onEngine_owned ho)
    · exact (exec_eSetConf ..).trans (onEngine_owned ho)
    · exact (exec_eSetOidx ..).trans (onEngine_owned ho)
  · obtain ⟨u, hu⟩ := Option.ne_none_iff_exists'.1 h
    exact execA51Build_built (State.a51Built_eq_some.1 hu)
  · obtain ⟨u, hu⟩ := Option.ne_none_iff_exists'.1 h
    obtain ⟨spare, hs⟩ := State.geffeBuilt_eq_some.1 hu
    exact execGeffeBuild_built hs
  · obtain ⟨u, hu⟩ := Option.ne_none_iff_exists'.1 h
    exact execGeffe3Build_built (State.geffe3Built_eq_some.1 hu)

/-- Writing a composite leaves owned slots owned. -/
theorem State.owned_putA51 {s : State} {u : A51} {t : EngineRef} (h : s.owned t = true) : (s.putA51 u).owned t = true := by
  cases t with
  | a51 => rfl
  | _ => exact h

theorem State.owned_putGeffe {s : State} {u : Geffe} {spare : List (Option Engine)} {t : EngineRef} (h : s.owned t = true) :
    (s.putGeffe u spare).owned t = true := by
  cases t with
  | geffeS | geffeC => rfl
  | _ => exact h

theorem State.owned_putGeffe3 {s : State} {u : Geffe3} {t : EngineRef} (h : s.owned t = true) :
    (s.putGeffe3 u).owned t = true := by
  cases t with
  | geffe3 => rfl
  | _ => exact h

/-- Whatever a command does, an owned slot stays owned. -/
theorem Did.owned {i : Instr} {s s' : State} (h : Did i s s') {t : EngineRef} (ho : s.owned t = true) :
    s'.owned t = true := by
  cases h with
  | failed | read | new | engine => simpa using ho
  | buildA51 | a51 => simpa using State.owned_putA51 ho
  | buildGeffe | geffe => simpa using State.owned_putGeffe ho
  | buildGeffe3 | geffe3 => simpa using State.owned_putGeffe3 ho

/-- Settles O56: no outcome of `exec_cases` takes a slot from a built composite or an engine from a slot. -/
theorem noCommandUnbuilds : Obligations.NoCommandUnbuilds := by
  refine fun i s s' h => ⟨fun t => (exec_cases h).owned, fun t he => ?_⟩
  obtain ⟨e, he⟩ := Option.ne_none_iff_exists'.1 he
  obtain ⟨e', he', -⟩ := (exec_cases h).engine_cases (composes_sameControl i) he
  rw [he']
  exact Option.some_ne_none e'

end Sys2Proof.Machine

end

section
/-!
SUPPORT. The statements of `40_lfsr_construction.md`: what `E_NEW` makes, which of its checks it reports, and the image
transform.
-/

namespace Sys2Proof.Machine

/-! ### The checks of the constructor, in order (R110, R111) -/

section
variable {taps : List Int} {init : InitSpec} {conf : ConfTag} {oidx : Int} {policy : Policy} {u : UnitName} {n d : Nat}

theorem construct_invalidPolynomial (h : ¬PolyValid taps) :
    construct taps init conf oidx policy u n = .error .invalidPolynomial := by
  simp only [construct, checkPoly_error.2 ⟨h, rfl⟩]

/-- With valid taps the constructor checks the resolved state, its length, the configuration and the output index. -/
theorem construct_of_polyValid (hp : PolyValid taps) (hd : IsMaxTap taps d) :
    construct taps init conf oidx policy u n = (do
      checkState (resolve init d u n)
      checkLength (resolve init d u n) d (conf = .galois)
      let c ← checkConf conf
      checkOidx oidx (resolve init d u n).length
      return .fresh (resolve init d u n) (storedTaps taps) c oidx policy) := by
  obtain rfl := (isMaxTap_iff hp).1 hd
  simp only [construct, checkPoly_ok.2 hp]
  cases checkState _ with
  | error => rfl
  | ok =>
    cases checkLength _ _ _ with
    | error => rfl
    | ok =>
      cases checkConf conf with
      | error => rfl
      | ok =>
        cases checkOidx _ _ <;> rfl

section
variable (hp : PolyValid taps) (hd : IsMaxTap taps d)
include hp hd

theorem construct_zeroState (h : true ∉ resolve init d u n) :
    construct taps init conf oidx policy u n = .error .invalidState := by
  rw [construct_of_polyValid hp hd, checkState_error.2 ⟨h, rfl⟩]; rfl

theorem construct_wrongLength (h : true ∈ resolve init d u n)
    (hl : (resolve init d u n).length < d ∨ conf = .galois ∧ (resolve init d u n).length ≠ d) :
    construct taps init conf oidx policy u n = .error .invalidState := by
  rw [construct_of_polyValid hp hd, checkState_ok.2 h, checkLength_error.2 ⟨by simpa using hl, rfl⟩]; rfl

variable (h : true ∈ resolve init d u n) (hl : d ≤ (resolve init d u n).length)
  (hg : conf = .galois → (resolve init d u n).length = d)
include h hl hg

theorem construct_invalidConfiguration (hc : confOf conf = none) :
    construct taps init conf oidx policy u n = .error .invalidConfiguration := by
  rw [construct_of_polyValid hp hd, checkState_ok.2 h, checkLength_ok.2 ⟨hl, by simpa using hg⟩]
  simp only [checkConf, hc]; rfl

theorem construct_invalidOutputIndex {c : Conf} (hc : confOf conf = some c)
    (ho : ¬OidxInRange oidx (resolve init d u n).length) :
    construct taps init conf oidx policy u n = .error .invalidOutputIndex := by
  rw [construct_of_polyValid hp hd, checkState_ok.2 h, checkLength_ok.2 ⟨hl, by simpa using hg⟩,
    checkOidx_error.2 ⟨ho, rfl⟩]
  simp only [checkConf, hc]; rfl

theorem construct_fresh {c : Conf} (hc : confOf conf = some c) (ho : OidxInRange oidx (resolve init d u n).length) :
    construct taps init conf oidx policy u n = .ok (.fresh (resolve init d u n) (storedTaps taps) c oidx policy) := by
  obtain rfl := (isMaxTap_iff hp).1 hd
  exact construct_ok.2 ⟨hp, h, hl, hg, ho, c, hc, rfl⟩

end

/-- Only an explicit initial state sets the register's length apart from the largest tap (R114). -/
theorem resolve_length (h : ∀ bits, init ≠ .explicit bits) : (resolve init d u n).length = d := by
  cases init with
  | allOnes => exact List.length_replicate
  | random => simp [resolve, draw]
  | explicit bits => exact absurd rfl (h bits)

/-! ### `E_NEW` on a slot that is not owned -/

variable {t : EngineRef} {s : State}

/-- Only a random state is drawn. -/
theorem draws_of_ne_random (h : init ≠ .random) : (s.takeDraws u (drawsOfNew taps init)).draws = s.draws := by
  rw [State.takeDraws_draws, (drawsOfNew_eq taps init).resolve_right h, Draws.take_zero]

theorem exec_eNew_error {x : ErrorName} (h : s.owned t = false)
    (hc : construct taps init conf oidx policy (unitOfRef t) (s.draws.get (unitOfRef t)) = .error x) :
    ∃ s', exec (.eNew t taps init conf oidx policy) s = .next s' ∧ s'.response = some (.err x) ∧ SameUnits s s' ∧
      s'.host = s.host ∧ s'.cfg = s.cfg ∧ (init ≠ .random → s'.draws = s.draws) :=
  ⟨_, execENew_error h hc, rfl, ⟨rfl, rfl, rfl, rfl⟩, rfl, rfl, draws_of_ne_random⟩

theorem exec_eNew_ok {e : Engine} (h : s.owned t = false)
    (hc : construct taps init conf oidx policy (unitOfRef t) (s.draws.get (unitOfRef t)) = .ok e) :
    ∃ s', exec (.eNew t taps init conf oidx policy) s = .next s' ∧ s'.response = some (.ok .nothing) ∧
      EngineChanged t e s s' ∧ s'.host = s.host ∧ s'.cfg = s.cfg ∧ (init ≠ .random → s'.draws = s.draws) := by
  refine ⟨_, execENew_ok h hc, rfl, ?_, by simp, by simp, fun hr => ?_⟩
  · obtain ⟨hw, ho, ha, hg, hg3⟩ := engineChanged_put (s := s.takeDraws (unitOfRef t) (drawsOfNew taps init)) (e := e)
      (r := .ok .nothing) ((State.takeDraws_owned ..).trans h)
    exact ⟨hw, fun t' ht => (ho t' ht).trans (State.takeDraws_engine ..), ha, hg, hg3⟩
  · rw [State.respond_draws, State.putEngine_draws, draws_of_ne_random hr]

end

/-- Settles O11: the constructor makes `Engine.fresh` of the resolved state, and what it makes is well-formed and
consistent. -/
theorem newMakesTheEngine : Obligations.NewMakesTheEngine := by
  intro s t taps init conf c oidx policy d v hown hp hd hv hone hlen hgal hconf hlo hhi
  obtain rfl : v = resolve init d (unitOfRef t) (s.draws.get (unitOfRef t)) := hv.trans (by cases init <;> rfl)
  have hc : confOf conf = some c := by obtain ⟨rfl, rfl⟩ | ⟨rfl, rfl⟩ := hconf <;> rfl
  have hnew := construct_fresh (policy := policy) hp hd hone hlen hgal hc ⟨hlo, hhi⟩
  have hhead : (storedTaps taps).head? = some d := by
    rw [(isMaxTap_iff hp).1 hd, ← maxTap_storedTaps]
    exact (Engine.Wf.fresh hnew).head?
  obtain ⟨s', hs, hr, hch, hh, hcfg, hdr⟩ := exec_eNew_ok hown hnew
  exact ⟨s', _, hs, hr, hch, hh, hcfg, hdr, storedTaps_storedAs hp, rfl, hhead, rfl, rfl, .fresh hnew, resolve_length⟩

/-- Settles O12: each clause is the constructor's error at the first check that fails. -/
theorem newReportsTheFirstFailedCheck : Obligations.NewReportsTheFirstFailedCheck := by
  intro s t taps init conf oidx policy hown
  refine ⟨fun hp => exec_eNew_error hown (construct_invalidPolynomial hp), fun d v hp hd hv => ?_⟩
  obtain rfl : v = resolve init d (unitOfRef t) (s.draws.get (unitOfRef t)) := hv.trans (by cases init <;> rfl)
  refine ⟨fun hzero => ?_, fun hone hlen => ?_, fun hone hlen hconf => ?_, fun hone hlen hconf hoidx => ?_⟩
  · exact exec_eNew_error hown (construct_zeroState hp hd hzero)
  · exact exec_eNew_error hown (construct_wrongLength hp hd hone hlen)
  · obtain rfl | rfl := hconf <;>
      exact exec_eNew_error hown (construct_invalidConfiguration hp hd hone hlen (by rintro ⟨⟩) rfl)
  · have hout : ¬OidxInRange oidx _ := fun ⟨hlo, hhi⟩ => hoidx.elim (not_lt.2 hlo) (not_lt.2 hhi)
    obtain rfl | ⟨rfl, hgal⟩ := hconf
    · exact exec_eNew_error hown (construct_invalidOutputIndex hp hd hone hlen (by rintro ⟨⟩) rfl hout)
    · exact exec_eNew_error hown (construct_invalidOutputIndex hp hd hone hlen (fun _ => hgal) rfl hout)

/-! ### The image transform (R121) -/

/-- Reflecting a descending list at `d` and reversing it gives a descending list. -/
theorem pairwise_reverse_reflect (d : Nat) {t : List Nat} (h : t.Pairwise (· ≥ ·)) :
    (t.map (d - ·)).reverse.Pairwise (· ≥ ·) :=
  List.pairwise_reverse.2 (List.pairwise_map.2 (h.imp fun hab => Nat.sub_le_sub_left hab d))

/-- The image keeps the leading tap and reflects the others at it, in the opposite order. -/
theorem image_cons (d : Nat) {t : List Nat} (h : t.Pairwise (· ≥ ·)) :
    image (d :: t) = d :: (t.map (d - ·)).reverse := by
  have hperm : (image (d :: t)).Perm (d :: (t.map (d - ·)).reverse) :=
    (List.perm_insertionSort _ _).trans ((List.reverse_perm _).symm.cons d)
  refine hperm.eq_of_pairwise (fun _ _ _ _ hab hba => le_antisymm hba hab) (List.pairwise_insertionSort _ _) ?_
  refine List.pairwise_cons.2 ⟨fun q hq => ?_, pairwise_reverse_reflect d h⟩
  obtain ⟨p, -, rfl⟩ := List.mem_map.1 (List.mem_reverse.1 hq)
  exact Nat.sub_le d p

/-- Settles O59: the second reflection at the leading tap undoes the first, since no tap exceeds the leading one. -/
theorem imageIsAnInvolution : Obligations.ImageIsAnInvolution := by
  intro t hsorted _
  cases t with
  | nil => rfl
  | cons d t =>
    obtain ⟨hlt, htail⟩ := List.pairwise_cons.1 hsorted
    have hdesc : t.Pairwise (· ≥ ·) := htail.imp le_of_lt
    rw [image_cons d hdesc, image_cons d (pairwise_reverse_reflect d hdesc), List.map_reverse, List.reverse_reverse,
      List.map_map]
    have hback : t.map ((d - ·) ∘ (d - ·)) = t.map id := List.map_congr_left fun p hp => Nat.sub_sub_self (hlt p hp).le
    rw [hback, List.map_id]

end Sys2Proof.Machine

end

section
/-!
SUPPORT. The statements of `41_lfsr_step.md`: one step cell by cell, runs, the two policies, the all-zero state, injectivity
and linearity of the transition, and what a step and a cycle leave of an engine that is not consistent.
-/

namespace Sys2Proof.Machine

/-! ### Stepping commands on an engine that is not owned -/

section
variable {s : State} {t : EngineRef} {e : Engine}

theorem exec_eStep_consistent (ho : s.owned t = false) (he : s.engine t = some e) (hc : e.Consistent) :
    exec (.eStep t) s = .next ((s.putEngine t e.advance).respond (.ok (.bit e.emit))) :=
  onEngine_ok ho he (stepEngine_ok.2 ⟨hc, rfl, rfl⟩)

theorem exec_eRun_consistent (ho : s.owned t = false) (he : s.engine t = some e) (hc : e.Consistent) (k : Nat) :
    exec (.eRun t k) s = .next ((s.putEngine t (e.after k)).respond (.ok (.bits (e.outputs k)))) :=
  onEngine_ok ho he (runEngine_ok.2 ⟨hc, rfl, rfl⟩)

theorem stepEngine_inconsistent (hc : ¬e.Consistent) : stepEngine e = .error .inconsistent := if_neg hc

theorem runEngine_inconsistent (hc : ¬e.Consistent) (k : Nat) : runEngine k e = .error .inconsistent := if_neg hc

/-- `E_RUN_FULL` is `E_RUN` with the period of the engine it finds, owned or not (R138). -/
theorem exec_eRunFull_eq_eRun (he : s.engine t = some e) : exec (.eRunFull t) s = exec (.eRun t e.period) s := by
  simp only [exec_eRunFull, exec_eRun, onEngine, he]

theorem exec_eStep_put (ho : s.owned t = false) (hc : e.Consistent) :
    ∃ s', exec (.eStep t) (s.putEngine t e) = .next s' ∧ s'.engine t = some e.advance :=
  have ho' : (s.putEngine t e).owned t = false := (State.owned_putEngine ..).trans ho
  ⟨_, exec_eStep_consistent ho' (State.engine_putEngine_self _ _ _ ho) hc, (engineChanged_put ho').written⟩

theorem exec_eRun_put (ho : s.owned t = false) (hc : e.Consistent) (k : Nat) :
    ∃ s', exec (.eRun t k) (s.putEngine t e) = .next s' ∧ s'.response = some (.ok (.bits (e.outputs k))) ∧
      s'.engine t = some (e.after k) :=
  have ho' : (s.putEngine t e).owned t = false := (State.owned_putEngine ..).trans ho
  ⟨_, exec_eRun_consistent ho' (State.engine_putEngine_self _ _ _ ho) hc k, rfl, (engineChanged_put ho').written⟩

end

/-- Settles O15: the engine is looked at before it is stepped, so the one error of the three commands is the answer. -/
theorem inconsistentEnginesAreNotStepped : Obligations.InconsistentEnginesAreNotStepped := by
  intro s t e k ho he hc
  exact ⟨onEngine_error ho he (stepEngine_inconsistent hc), onEngine_error ho he (runEngine_inconsistent hc k),
    onEngine_error ho he (runEngine_inconsistent hc e.period)⟩

/-! ### Runs (R137, R138) -/

/-- Settles O16: the second run finds the stepped engine, and what it writes stands. -/
theorem runIsStepsInOrder : Obligations.RunIsStepsInOrder := by
  intro s t e ho he hc
  refine ⟨?_, fun k => ?_⟩
  · have hrun := exec_eRun_consistent ho he hc 0
    rwa [Engine.after_zero, State.putEngine_self s t e he] at hrun
  · have hrun : exec (.eRun t k) ((s.putEngine t e.advance).respond (.ok (.bit e.emit))) =
        .next ((s.putEngine t (e.advance.after k)).respond (.ok (.bits (e.advance.outputs k)))) := by
      rw [exec_eRun_consistent (by simpa using ho) (engineChanged_put ho).written hc.advance, State.putEngine_respond,
        State.putEngine_putEngine, State.respond_respond]
    exact ⟨_, _, _, _, exec_eStep_consistent ho he hc, rfl, hrun, rfl, Engine.outputs_length _ _,
      exec_eRun_consistent ho he hc (k + 1)⟩

/-- Settles O17: the period is computed from the register's length, and the rest is what a run does. -/
theorem runFullRunsTheNominalPeriod : Obligations.RunFullRunsTheNominalPeriod := by
  intro s t e he
  have hfull : exec (.eRunFull t) s = exec (.eRun t (2 ^ e.state.length - 1)) s := exec_eRunFull_eq_eRun he
  exact ⟨hfull, fun ho hc => ⟨_, e.after _, _, hfull.trans (exec_eRun_consistent ho he hc _), rfl,
    Engine.outputs_length _ _, sameRest_put, engineChanged_put ho, Engine.sameControl_after _ e, Engine.after_seq _ e,
    Engine.after_count _ e⟩⟩

/-! ### The output bit (R131) -/

section
variable {e : Engine}

theorem Engine.Consistent.oidxInRange (hc : e.Consistent) : OidxInRange e.oidx e.len := hc.2.2.2.2.2

theorem Engine.Consistent.maxTap_le (hc : e.Consistent) : maxTap e.taps ≤ e.len := hc.2.2.2.1

theorem Engine.Consistent.len_pos (hc : e.Consistent) : 0 < e.len := Nat.zero_lt_two.trans_le hc.two_le_len

theorem Engine.tap_of_consistent (hc : e.Consistent) : e.tap = cell e.state (eff e.oidx e.len) := if_pos hc.oidxInRange

theorem Engine.emit_of_policy_zero (hc : e.Consistent) (hp : e.policy = .zero) : e.emit = e.tap := by
  rw [Engine.tap_of_consistent hc, Engine.emit, hp]

theorem Engine.emit_of_policy_one (hc : e.Consistent) (hp : e.policy = .one) : e.emit = e.advance.tap := by
  rw [Engine.tap_of_consistent hc.advance, Engine.advance_len hc.len_pos, Engine.emit, hp, Engine.advance_state,
    Engine.advance_oidx]

theorem Engine.tapIs_emit_of_policy_zero (hc : e.Consistent) (hp : e.policy = .zero) : TapIs e e.emit :=
  Engine.emit_of_policy_zero hc hp ▸ tapIs_tap hc.oidxInRange

theorem Engine.tapIs_emit_of_policy_one (hc : e.Consistent) (hp : e.policy = .one) : TapIs e.advance e.emit :=
  Engine.emit_of_policy_one hc hp ▸ tapIs_tap hc.advance.oidxInRange

/-! ### The two shifts of an engine (R132, R133) -/

theorem Engine.feedback_fib (h : e.conf = .fib) : e.feedback = xorTaps e.state e.taps := by rw [Engine.feedback, h]

theorem Engine.feedback_gal (h : e.conf = .gal) : e.feedback = cell e.state 0 := by rw [Engine.feedback, h]

/-- The next register of a Fibonacci engine that holds `v`. -/
theorem Engine.shifted_fib (h : e.conf = .fib) (v : Bits) :
    Engine.shifted { e with state := v } = fibShift (xorTaps v e.taps) v := by
  simp only [Engine.shifted, Engine.feedback, h]

/-- The next register of a Galois engine that holds `v`. -/
theorem Engine.shifted_gal (h : e.conf = .gal) (v : Bits) :
    Engine.shifted { e with state := v } = galShift (cell v 0) e.taps v := by
  simp only [Engine.shifted, Engine.feedback, h]

end

theorem xorTaps_cons (v : Bits) (p : Nat) (taps : List Nat) :
    xorTaps v (p :: taps) = xor (cell v (p - 1)) (xorTaps v taps) := rfl

/-- The XOR of the tap cells is the parity of the ones among them. -/
theorem xorTaps_eq_true_iff {v : Bits} {taps : List Nat} (h : ∀ p ∈ taps, 1 ≤ p ∧ p ≤ v.length) :
    xorTaps v taps = true ↔ Odd (taps.countP fun p => v[p - 1]? == some true) := by
  induction taps with
  | nil => simp [xorTaps]
  | cons p taps ih =>
    obtain ⟨hp, htaps⟩ := List.forall_mem_cons.1 h
    have hcell : v[p - 1]? = some (cell v (p - 1)) := getElem?_of_cell (by omega)
    rw [xorTaps_cons, List.countP_cons, hcell]
    cases hb : cell v (p - 1) with
    | false => simpa using ih htaps
    | true => simp [Nat.odd_add_one, ← ih htaps]

/-- Settles O13: the cells of the shift, the parity of the feedback, and the output bit of either policy. -/
theorem fibonacciStepShiftsTowardTheOutput : Obligations.FibonacciStepShiftsTowardTheOutput := by
  intro s t e ho he hc hfib
  refine ⟨_, e.advance, e.feedback, e.emit, exec_eStep_consistent ho he hc, rfl, sameRest_put, engineChanged_put ho,
    Engine.sameControl_advance e, ?_, Engine.advance_len hc.len_pos, ?_, fun i hi hlt => ?_,
    Engine.tapIs_emit_of_policy_zero hc, Engine.tapIs_emit_of_policy_one hc, rfl, rfl, rfl, rfl⟩
  · rw [Engine.feedback_fib hfib]
    exact xorTaps_eq_true_iff fun p hp => hc.tap_le hp
  · rw [Engine.advance_state, Engine.shifted_fib hfib, Engine.feedback_fib hfib, fibShift_getElem?_zero]
  · obtain ⟨j, rfl⟩ := Nat.exists_eq_add_of_le' hi
    rw [Engine.advance_state, Engine.shifted_fib hfib, fibShift_getElem?_succ _ _ _ hlt, Nat.add_sub_cancel]

/-- The leading tap of a sorted list that reaches `m` and goes no further is `m`. -/
theorem headD_eq_of_mem {taps : List Nat} {m : Nat} (hsorted : taps.Pairwise (· > ·)) (hm : m ∈ taps)
    (hmax : maxTap taps ≤ m) : taps.headD 0 = m :=
  (headD_eq_maxTap hsorted).trans (le_antisymm hmax (le_maxTap hm))

/-- Settles O14: the cells of the rotation; the leading tap is the length, so the last cell takes no injection. -/
theorem galoisStepRotatesAndInjects : Obligations.GaloisStepRotatesAndInjects := by
  intro s t e ho he hc hgal hsorted
  have hne : e.taps ≠ [] := List.ne_nil_of_length_pos (Nat.zero_lt_two.trans_le hc.1)
  have hlead : e.len ∈ e.taps → e.len = e.taps.headD 0 := fun hm => (headD_eq_of_mem hsorted hm hc.maxTap_le).symm
  refine ⟨_, e.advance, e.feedback, e.emit, exec_eStep_consistent ho he hc, rfl, sameRest_put, engineChanged_put ho,
    Engine.sameControl_advance e, ?_, Engine.advance_len hc.len_pos, ?_, fun i hlt => ?_,
    Engine.tapIs_emit_of_policy_zero hc, Engine.tapIs_emit_of_policy_one hc, rfl, rfl, rfl, rfl⟩
  · rw [Engine.feedback_gal hgal]
    exact getElem?_of_cell hc.len_pos
  · rw [Engine.advance_state, Engine.shifted_gal hgal, Engine.feedback_gal hgal]
    exact galShift_getElem?_last _ _ _ hc.len_pos hlead
  · rw [Engine.advance_state, Engine.shifted_gal hgal, Engine.feedback_gal hgal, galShift_getElem?_lt _ _ _ _ hlt,
      ← List.head?_eq_getElem?, head?_of_headD hne]
    simp only [ne_eq, Option.some.injEq, eq_comm]

/-! ### The two policies (R139) -/

/-- Two engines agree on all that the register and the tap depend on. -/
structure Engine.SameMotion (a b : Engine) : Prop where
  state : b.state = a.state
  taps : b.taps = a.taps
  conf : b.conf = a.conf
  oidx : b.oidx = a.oidx

section
variable {a b : Engine}

theorem Engine.SameMotion.shifted (h : a.SameMotion b) : b.shifted = a.shifted := by
  simp only [Engine.shifted, Engine.feedback, h.state, h.taps, h.conf]

theorem Engine.SameMotion.advance (h : a.SameMotion b) : a.advance.SameMotion b.advance :=
  ⟨h.shifted, h.taps, h.conf, h.oidx⟩

theorem Engine.SameMotion.after (h : a.SameMotion b) (k : Nat) : (a.after k).SameMotion (b.after k) := by
  induction k generalizing a b with
  | zero => exact h
  | succ k ih => exact ih h.advance

theorem Engine.SameMotion.tap (h : a.SameMotion b) : b.tap = a.tap := by
  rw [Engine.tap, Engine.tap, Engine.len, Engine.len, h.state, h.oidx]

/-- Under `ONE` an engine emits what under `ZERO` it emits one step later. -/
theorem Engine.SameMotion.outputs (h : a.SameMotion b) (ha : a.Consistent) (hb : b.Consistent) (hza : a.policy = .zero)
    (hob : b.policy = .one) (k : Nat) : b.outputs k = a.advance.outputs k := by
  induction k generalizing a b with
  | zero => rfl
  | succ k ih =>
    have hemit : b.emit = a.advance.emit := by
      rw [Engine.emit_of_policy_one hb hob, Engine.emit_of_policy_zero ha.advance hza, h.advance.tap]
    rw [Engine.outputs_succ, Engine.outputs_succ, hemit, ih h.advance ha.advance hb.advance hza hob]

end

/-- Settles O18: the policy moves neither register nor tap, and shifts the samples by one step. -/
theorem policiesDifferByOneSample : Obligations.PoliciesDifferByOneSample := by
  intro s t e k ho hc
  have hmotion : Engine.SameMotion { e with policy := .zero } { e with policy := .one } := ⟨rfl, rfl, rfl, rfl⟩
  obtain ⟨s0, hs0, hr0, -⟩ := exec_eRun_put (e := { e with policy := .zero }) ho hc (k + 1)
  obtain ⟨s1, hs1, hr1, he1⟩ := exec_eRun_put (e := { e with policy := .one }) ho hc k
  obtain ⟨s2, hs2, hr2, he2⟩ := exec_eRun_put (e := { e with policy := .zero }) ho hc k
  exact ⟨s0, s1, s2, _, _, _, _, _, hs0, hr0, hs1, hr1, hmotion.outputs hc hc rfl rfl k, hs2, hr2, he1, he2,
    (hmotion.after k).state⟩

/-! ### The all-zero register (R136) -/

theorem eq_replicate_of_allZero {v : Bits} (h : true ∉ v) : v = List.replicate v.length false :=
  List.eq_replicate_iff.2 ⟨rfl, fun _ hb => Bool.eq_false_of_not_eq_true fun hbt => h (hbt ▸ hb)⟩

theorem cell_allZero {v : Bits} {i : Nat} (h : true ∉ v) (hi : i < v.length) : cell v i = false := by
  rw [cell_of_lt hi]
  exact Bool.eq_false_of_not_eq_true fun hbt => h (hbt ▸ List.getElem_mem hi)

theorem xorTaps_allZero {v : Bits} {taps : List Nat} (h : true ∉ v) (ht : ∀ p ∈ taps, 1 ≤ p ∧ p ≤ v.length) :
    xorTaps v taps = false := by
  induction taps with
  | nil => rfl
  | cons p taps ih =>
    obtain ⟨hp, htaps⟩ := List.forall_mem_cons.1 ht
    rw [xorTaps_cons, cell_allZero h (by omega), ih htaps, Bool.xor_false]

theorem fibShift_replicate_false (n : Nat) :
    fibShift false (List.replicate (n + 1) false) = List.replicate (n + 1) false := by
  rw [fibShift, List.dropLast_replicate, Nat.add_sub_cancel, List.replicate_succ]

theorem galShift_replicate_false (taps : List Nat) (n : Nat) :
    galShift false taps (List.replicate (n + 1) false) = List.replicate (n + 1) false := by
  have hrot : (List.replicate (n + 1) false).tail ++ [false] = List.replicate (n + 1) false := by
    rw [List.tail_replicate, Nat.add_sub_cancel, ← List.replicate_succ']
  rw [galShift, hrot]
  exact List.ext_getElem (by simp) (by simp)

section
variable {e : Engine} (hc : e.Consistent) (hz : true ∉ e.state)
include hc hz

theorem Engine.feedback_allZero : e.feedback = false := by
  cases hconf : e.conf with
  | fib => rw [Engine.feedback_fib hconf, xorTaps_allZero hz fun p hp => hc.tap_le hp]
  | gal => rw [Engine.feedback_gal hconf, cell_allZero hz hc.len_pos]

theorem Engine.shifted_allZero : e.shifted = e.state := by
  obtain ⟨n, hn⟩ := Nat.exists_eq_add_of_le' hc.len_pos
  have hrep : e.state = List.replicate (n + 1) false :=
    (eq_replicate_of_allZero hz).trans (congrArg (List.replicate · false) hn)
  unfold Engine.shifted
  rw [Engine.feedback_allZero hc hz, hrep]
  cases e.conf with
  | fib => exact fibShift_replicate_false n
  | gal => exact galShift_replicate_false e.taps n

theorem Engine.tap_allZero : e.tap = false := by
  rw [Engine.tap_of_consistent hc]
  exact cell_allZero hz (eff_lt hc.oidxInRange)

theorem Engine.emit_allZero : e.emit = false := by
  cases hp : e.policy with
  | zero => rw [Engine.emit_of_policy_zero hc hp, Engine.tap_allZero hc hz]
  | one =>
    rw [Engine.emit_of_policy_one hc hp]
    exact Engine.tap_allZero hc.advance (by rwa [Engine.advance_state, Engine.shifted_allZero hc hz])

theorem Engine.after_state_allZero (k : Nat) : (e.after k).state = e.state := by
  induction k with
  | zero => rfl
  | succ k ih =>
    rw [Engine.after_succ', Engine.advance_state, Engine.shifted_allZero (hc.after k) (ih ▸ hz), ih]

theorem Engine.outputs_allZero (k : Nat) : e.outputs k = List.replicate k false := by
  induction k generalizing e with
  | zero => rfl
  | succ k ih =>
    rw [Engine.outputs_succ, Engine.emit_allZero hc hz, List.replicate_succ,
      ih hc.advance (by rwa [Engine.advance_state, Engine.shifted_allZero hc hz])]

end

/-- Settles O19: a step fixes the all-zero register and latches zeros, so a run does. -/
theorem allZeroStateIsAbsorbing : Obligations.AllZeroStateIsAbsorbing := by
  intro s t e k ho he hc hz
  have hout := Engine.outputs_allZero hc hz k
  refine ⟨_, e.after k, exec_eRun_consistent ho he hc k, by rw [State.respond_response, hout],
    (engineChanged_put ho).written, Engine.after_state_allZero hc hz k, fun hk => ?_, Engine.after_count k e,
    by rw [Engine.after_seq, hout]⟩
  obtain ⟨j, rfl⟩ := Nat.exists_eq_add_of_le' hk
  have hzj : true ∉ (e.after j).state := Engine.after_state_allZero hc hz j ▸ hz
  rw [Engine.after_succ', Engine.advance_fb, Engine.advance_outbit, Engine.feedback_allZero (hc.after j) hzj,
    Engine.emit_allZero (hc.after j) hzj]
  exact ⟨rfl, rfl⟩

/-! ### Injectivity (R136) -/

theorem eq_of_cell_eq {v w : Bits} (hl : w.length = v.length) (h : ∀ i, i < v.length → cell v i = cell w i) : v = w :=
  List.ext_getElem hl.symm fun i hv hw => by rw [← cell_of_lt hv, ← cell_of_lt hw, h i hv]

theorem cell_fibShift_succ {v : Bits} {i : Nat} (f : Bool) (hi : i + 1 < v.length) :
    cell (fibShift f v) (i + 1) = cell v i := by
  have hcell := fibShift_getElem?_succ f v i hi
  rwa [getElem?_of_cell (by rwa [fibShift_length f v (by omega)]), getElem?_of_cell (by omega),
    Option.some.injEq] at hcell

theorem cell_galShift_lt {v : Bits} {i : Nat} (f : Bool) (taps : List Nat) (hi : i + 1 < v.length) :
    cell (galShift f taps v) i =
      if i + 1 ∈ taps ∧ i + 1 ≠ taps.headD 0 then xor (cell v (i + 1)) f else cell v (i + 1) := by
  have hcell := galShift_getElem?_lt f taps v i hi
  rwa [getElem?_of_cell (by rw [galShift_length f taps v (by omega)]; omega), getElem?_of_cell hi, Option.map_some,
    Option.some.injEq] at hcell

theorem cell_galShift_last {v : Bits} {taps : List Nat} (f : Bool) (hv : 0 < v.length)
    (hlead : taps.headD 0 = v.length) : cell (galShift f taps v) (v.length - 1) = f := by
  have hcell := galShift_getElem?_last f taps v hv fun _ => hlead.symm
  rwa [getElem?_of_cell (by rw [galShift_length f taps v hv]; omega), Option.some.injEq] at hcell

/-- Equal Fibonacci shifts hold the same cells but the lost last one, and that one is read back from the feedback bit, since
the leading tap is the length. -/
theorem fibShift_injective {v w : Bits} {taps : List Nat} (hl : w.length = v.length) (hsorted : taps.Pairwise (· > ·))
    (hpos : ∀ p ∈ taps, 1 ≤ p) (hlead : taps.headD 0 = v.length) (hv : 0 < v.length)
    (h : fibShift (xorTaps v taps) v = fibShift (xorTaps w taps) w) : v = w := by
  have hlow (i : Nat) (hi : i + 1 < v.length) : cell v i = cell w i := by
    rw [← cell_fibShift_succ (xorTaps v taps) hi, h, cell_fibShift_succ _ (hl ▸ hi)]
  cases taps with
  | nil => exact absurd hlead hv.ne
  | cons p rest =>
    obtain rfl : p = v.length := hlead
    obtain ⟨hlt, -⟩ := List.pairwise_cons.1 hsorted
    have hrest : xorTaps v rest = xorTaps w rest := xorTaps_congr v w rest fun q hq => hlow _ (by
      have := hlt q hq
      have := hpos q (List.mem_cons_of_mem _ hq)
      omega)
    have hfeed : xorTaps v (v.length :: rest) = xorTaps w (v.length :: rest) := (List.cons.inj h).1
    rw [xorTaps_cons, xorTaps_cons, hrest, Bool.xor_left_inj] at hfeed
    refine eq_of_cell_eq hl fun i hi => ?_
    by_cases hlast : i = v.length - 1
    · exact hlast ▸ hfeed
    · exact hlow i (by omega)

/-- Equal Galois shifts have equal last cells, which are the feedback, so the same bits were injected into the others. -/
theorem galShift_injective {v w : Bits} {taps : List Nat} (hl : w.length = v.length) (hlead : taps.headD 0 = v.length)
    (hv : 0 < v.length) (h : galShift (cell v 0) taps v = galShift (cell w 0) taps w) : v = w := by
  have hfeed : cell v 0 = cell w 0 := by
    rw [← cell_galShift_last (cell v 0) hv hlead, h, ← hl, cell_galShift_last _ (hl ▸ hv) (hlead.trans hl.symm)]
  refine eq_of_cell_eq hl fun i hi => ?_
  cases i with
  | zero => exact hfeed
  | succ i =>
    have hcell : cell (galShift (cell v 0) taps v) i = cell (galShift (cell w 0) taps w) i := congrArg (cell · i) h
    rw [cell_galShift_lt _ _ hi, cell_galShift_lt _ _ (hl ▸ hi), hfeed] at hcell
    split at hcell
    · exact Bool.xor_left_inj.1 hcell
    · exact hcell

/-- Consistency sees the register's length only. -/
theorem Engine.Consistent.of_length {e : Engine} {a b : Bits} (hc : Engine.Consistent { e with state := a })
    (hl : b.length = a.length) : Engine.Consistent { e with state := b } := by
  simpa only [Engine.Consistent, Engine.len, hl] using hc

theorem Engine.shifted_injective {e : Engine} {a b : Bits} (hc : Engine.Consistent { e with state := a })
    (hsorted : e.taps.Pairwise (· > ·)) (hl : b.length = a.length) (hm : a.length ∈ e.taps)
    (h : Engine.shifted { e with state := a } = Engine.shifted { e with state := b }) : a = b := by
  have hlead : e.taps.headD 0 = a.length := headD_eq_of_mem hsorted hm hc.maxTap_le
  cases hconf : e.conf with
  | fib =>
    rw [Engine.shifted_fib hconf, Engine.shifted_fib hconf] at h
    exact fibShift_injective hl hsorted (fun p hp => (hc.tap_le hp).1) hlead hc.len_pos h
  | gal =>
    rw [Engine.shifted_gal hconf, Engine.shifted_gal hconf] at h
    exact galShift_injective hl hlead hc.len_pos h

/-- The all-zero register is the successor of itself alone. -/
theorem Engine.true_mem_shifted {e : Engine} {a : Bits} (hc : Engine.Consistent { e with state := a })
    (hsorted : e.taps.Pairwise (· > ·)) (hm : a.length ∈ e.taps) (ha : true ∈ a) :
    true ∈ Engine.shifted { e with state := a } := by
  by_contra hz
  have hl : (Engine.shifted { e with state := a }).length = a.length := Engine.shifted_length hc.len_pos
  have hfix := Engine.shifted_allZero (hc.of_length hl) hz
  exact hz (Engine.shifted_injective hc hsorted hl hm hfix.symm ▸ ha)

/-- Settles O20: the leading tap is the length, and both shifts are injective then. -/
theorem stepIsReversibleWhereLengthIsATap : Obligations.StepIsReversibleWhereLengthIsATap := by
  intro s t e a b ho hc hsorted hl hm
  obtain ⟨s1, hs1, he1⟩ := exec_eStep_put ho hc
  obtain ⟨s2, hs2, he2⟩ := exec_eStep_put ho (hc.of_length hl)
  exact ⟨s1, s2, _, _, hs1, hs2, he1, he2, Engine.shifted_injective hc hsorted hl hm,
    Engine.true_mem_shifted hc hsorted hm⟩

/-! ### Linearity (R140) -/

theorem xor_xor_xor_comm (a b c d : Bool) : xor (xor a b) (xor c d) = xor (xor a c) (xor b d) := by
  simp only [Bool.xor_assoc, Bool.xor_left_comm]

section
variable {v w : Bits} (hl : w.length = v.length)
include hl

theorem cell_zipWith_xor {i : Nat} (hi : i < v.length) : cell (v.zipWith xor w) i = xor (cell v i) (cell w i) := by
  rw [cell_of_lt (by simpa [hl] using hi), List.getElem_zipWith, cell_of_lt hi, cell_of_lt (hl ▸ hi)]

theorem xorTaps_zipWith_xor {taps : List Nat} (ht : ∀ p ∈ taps, 1 ≤ p ∧ p ≤ v.length) :
    xorTaps (v.zipWith xor w) taps = xor (xorTaps v taps) (xorTaps w taps) := by
  induction taps with
  | nil => rfl
  | cons p taps ih =>
    obtain ⟨hp, htaps⟩ := List.forall_mem_cons.1 ht
    rw [xorTaps_cons, xorTaps_cons, xorTaps_cons, ih htaps, cell_zipWith_xor hl (by omega), xor_xor_xor_comm]

theorem fibShift_zipWith_xor (f g : Bool) :
    fibShift (xor f g) (v.zipWith xor w) = (fibShift f v).zipWith xor (fibShift g w) := by
  rw [fibShift, fibShift, fibShift, List.zipWith_cons_cons, List.dropLast_eq_take, List.dropLast_eq_take,
    List.dropLast_eq_take, List.take_zipWith, List.length_zipWith, hl, min_self]

theorem galShift_zipWith_xor (f g : Bool) (taps : List Nat) :
    galShift (xor f g) taps (v.zipWith xor w) = (galShift f taps v).zipWith xor (galShift g taps w) := by
  have hrot : (v.zipWith xor w).tail ++ [xor f g] = (v.tail ++ [f]).zipWith xor (w.tail ++ [g]) := by
    rw [List.zipWith_append (by simp [hl]), List.tail_zipWith, List.zipWith_cons_cons, List.zipWith_nil_left]
  rw [galShift, hrot]
  refine List.ext_getElem (by simp [galShift]) fun i _ _ => ?_
  simp only [galShift, List.getElem_mapIdx, List.getElem_zipWith]
  split
  · exact xor_xor_xor_comm _ _ _ _
  · rfl

end

theorem Engine.shifted_zipWith_xor {e : Engine} {a b : Bits} (hc : Engine.Consistent { e with state := a })
    (hl : b.length = a.length) : Engine.shifted { e with state := a.zipWith xor b } =
      (Engine.shifted { e with state := a }).zipWith xor (Engine.shifted { e with state := b }) := by
  obtain hconf | hconf : e.conf = .fib ∨ e.conf = .gal := by cases e.conf <;> simp
  · rw [Engine.shifted_fib hconf, Engine.shifted_fib hconf, Engine.shifted_fib hconf,
      xorTaps_zipWith_xor hl fun p hp => hc.tap_le hp, fibShift_zipWith_xor hl]
  · rw [Engine.shifted_gal hconf, Engine.shifted_gal hconf, Engine.shifted_gal hconf,
      cell_zipWith_xor hl hc.len_pos, galShift_zipWith_xor hl]

/-- Settles O21: the feedback and both shifts are linear. -/
theorem stepIsLinear : Obligations.StepIsLinear := by
  intro s t e a b ho hc hl
  have hlx : (a.zipWith xor b).length = a.length := by simp [hl]
  obtain ⟨s1, hs1, he1⟩ := exec_eStep_put ho hc
  obtain ⟨s2, hs2, he2⟩ := exec_eStep_put ho (hc.of_length hl)
  obtain ⟨s3, hs3, he3⟩ := exec_eStep_put ho (hc.of_length hlx)
  exact ⟨s1, s2, s3, _, _, _, hs1, hs2, hs3, he1, he2, he3, Engine.shifted_zipWith_xor hc hl⟩

/-! ### Engines that are not consistent inside a cycle (R135; log entry 7) -/

theorem eStepMakes_advance {e : Engine} (hc : e.Consistent) : EStepMakes e e.advance e.emit :=
  fun s => ⟨_, exec_eStep_consistent (s := { s with lfsr := some e }) (t := .lfsr) rfl rfl hc, rfl, rfl⟩

theorem A51.clocked_inconsistent (u : A51) (c : Bool) {e : Engine} (hc : ¬e.Consistent) : u.clocked c e = e := by
  obtain h | h := u.clocked_cases c e
  · exact h
  · rw [h, Engine.stepInCycle_inconsistent hc]

theorem A51.advance_get_inconsistent {u : A51} {r : Reg3} (hc : ¬(u.get r).Consistent) : u.advance.get r = u.get r := by
  cases r <;> exact u.clocked_inconsistent _ hc

/-- Component `j` after a cycle of a Geffe unit: as it was in a first cycle, stepped in a later one (R219, R220). -/
theorem Geffe.advance_getElem? (m : Bool) {u : Geffe} {j : Nat} {x : Engine} (hx : u.c[j]? = some x) :
    (u.advance m).c[j]? = some (if u.count = 0 then x else x.stepInCycle) := by
  simp only [Geffe.advance, Geffe.stepped]
  split <;> simp [hx]

/-- The engine in slot `r` after a cycle of a Geffe3 unit: as it was in a first cycle, stepped in a later one (R237). -/
theorem Geffe3.advance_get (c : Combiner) (u : Geffe3) (r : Reg3) :
    (u.advance c).get r = if u.count = 0 then u.get r else (u.get r).stepInCycle := by
  unfold Geffe3.advance Geffe3.stepped
  split <;> cases r <;> rfl

theorem stepInCycle_unless_inconsistent {p : Prop} [Decidable p] {e : Engine} (hc : ¬e.Consistent) :
    (if p then e else e.stepInCycle) = e := by
  rw [Engine.stepInCycle_inconsistent hc, ite_self]

theorem eStepMakes_stepInCycle {n : Nat} {e : Engine} (hc : e.Consistent) (hn : 0 < n) :
    EStepMakes e (if n = 0 then e else e.stepInCycle) e.emit := by
  rw [if_neg hn.ne', Engine.stepInCycle_consistent hc]
  exact eStepMakes_advance hc

/-- Settles O44: each engine of the unit after the cycle, by what a cycle makes of it. -/
theorem cyclesLeaveInconsistentEnginesAlone : Obligations.CyclesLeaveInconsistentEnginesAlone := by
  refine ⟨fun s s' u r hu hc hs => ?_, fun s s' u hu hs => ?_, fun s s' u r hu hs => ?_⟩
  · rw [exec_a51Step, onA51_built (State.a51Built_eq_some.1 hu)] at hs
    cases hs
    exact congrArg some (A51.advance_get_inconsistent hc)
  · obtain ⟨spare, hbuilt⟩ := State.geffeBuilt_eq_some.1 hu
    rw [exec_geffeStep, onGeffe_built hbuilt] at hs
    cases hs
    refine ⟨_, rfl, fun hc => if_neg hc, fun j x hx => ?_⟩
    have hj := Geffe.advance_getElem? s.cfg.geffeSelMsbFirst hx
    exact ⟨fun hc => hj.trans (congrArg some (stepInCycle_unless_inconsistent hc)),
      fun hc hn => ⟨_, _, hj, eStepMakes_stepInCycle hc hn⟩⟩
  · rw [exec_geffe3Step, onGeffe3_built (State.geffe3Built_eq_some.1 hu)] at hs
    cases hs
    have hr := u.advance_get s.cfg.geffe3Combiner r
    exact ⟨fun hc => congrArg some (hr.trans (stepInCycle_unless_inconsistent hc)),
      fun hc hn => ⟨_, _, congrArg some hr, eStepMakes_stepInCycle hc hn⟩⟩

end Sys2Proof.Machine

end

section
/-!
SUPPORT. The statements of `42_lfsr_mutators_getters.md`: the reset, the mutators with their checks in order, the two-command
resize, and the accessors.
-/

namespace Sys2Proof.Machine

/-! ### The checks of the mutators, in order (R154, R157, R159, R160; R258) -/

section
variable {taps : List Int} {v : Bits} {reset enforce : Bool} {e : Engine}

/-- A command that may not change the length is let through by `enforce` or by an operand of length `M` (R154, R157). -/
theorem not_incompatible {m n : Nat} (h : enforce = true ∨ m = n) : ¬(enforce = false ∧ m ≠ n) := by
  rintro ⟨hf, hne⟩
  exact h.elim (fun ht => Bool.false_ne_true (hf.symm.trans ht)) hne

theorem setPoly_invalidPolynomial (hp : ¬PolyValid taps) :
    setPoly taps reset enforce e = .error .invalidPolynomial := by
  simp only [setPoly, checkPoly_error.2 ⟨hp, rfl⟩]

theorem setPoly_incompatibleMutation (hp : PolyValid taps) (hd : maxTapOperand taps ≠ e.len) :
    setPoly taps reset false e = .error .incompatibleMutation := by
  simp only [setPoly, checkPoly_ok.2 hp]
  exact if_pos ⟨trivial, hd⟩

theorem setState_zeroState (hv : true ∉ v) : setState v enforce e = .error .invalidState := by
  simp only [setState, checkState_error.2 ⟨hv, rfl⟩]

theorem setState_incompatibleMutation (hv : true ∈ v) (hl : v.length ≠ e.len) :
    setState v false e = .error .incompatibleMutation := by
  simp only [setState, checkState_ok.2 hv]
  exact if_pos ⟨trivial, hl⟩

theorem setState_wrongLength (hv : true ∈ v) (hm : enforce = true ∨ v.length = e.len)
    (hl : v.length < maxTap e.taps ∨ e.conf = .gal ∧ v.length ≠ maxTap e.taps) :
    setState v enforce e = .error .invalidState := by
  have hlen : checkLength v (maxTap e.taps) (e.conf = .gal) = .error .invalidState :=
    checkLength_error.2 ⟨by simpa using hl, rfl⟩
  simp only [setState, checkState_ok.2 hv, if_neg (not_incompatible hm), hlen]

theorem setState_invalidOutputIndex (hv : true ∈ v) (hm : enforce = true ∨ v.length = e.len)
    (hl : maxTap e.taps ≤ v.length) (hg : e.conf = .gal → v.length = maxTap e.taps) (ho : ¬OidxInRange e.oidx v.length) :
    setState v enforce e = .error .invalidOutputIndex := by
  have hlen : checkLength v (maxTap e.taps) (e.conf = .gal) = .ok () := checkLength_ok.2 ⟨hl, by simpa using hg⟩
  simp only [setState, checkState_ok.2 hv, if_neg (not_incompatible hm), hlen, checkOidx_error.2 ⟨ho, rfl⟩]

/-- A vector that `E_SET_STATE` accepts fits the taps and the output index, so it needs of the engine only taps that pass
`check_poly` to make it consistent (R30, R157). -/
theorem setState_consistent {e' : Engine} {w : Value} (h2 : 2 ≤ e.taps.length) (hn : e.taps.Nodup)
    (hp : ∀ p ∈ e.taps, 1 ≤ p) (hs : setState v enforce e = .ok (w, e')) : e'.Consistent := by
  obtain ⟨-, -, hl, hg, ho, -, rfl⟩ := setState_ok.1 hs
  exact ⟨h2, hn, hp, hl, fun hc => (hg hc).symm, ho⟩

theorem setConf_invalidConfiguration {c : ConfTag} (hc : confOf c = none) :
    setConf c e = .error .invalidConfiguration := by
  simp only [setConf, checkConf, hc]

theorem setConf_invalidState (hd : e.len ≠ maxTap e.taps) : setConf .galois e = .error .invalidState := if_pos ⟨rfl, hd⟩

theorem setOidx_invalidOutputIndex {i : Int} (ho : ¬OidxInRange i e.len) :
    setOidx i e = .error .invalidOutputIndex := by
  simp only [setOidx, checkOidx_error.2 ⟨ho, rfl⟩]

end

/-- An index below `-M` or above `M - 1` names no cell. -/
theorem not_oidxInRange {i : Int} {m : Nat} (h : i < -(m : Int) ∨ (m : Int) - 1 < i) : ¬OidxInRange i m :=
  fun ⟨hlo, hhi⟩ => h.elim (not_lt.2 hlo) (not_lt.2 hhi)

theorem OidxInRange.mono {i : Int} {m n : Nat} (h : OidxInRange i m) (hmn : m ≤ n) : OidxInRange i n := by
  obtain ⟨hlo, hhi⟩ := h
  constructor <;> omega

/-- What a command that writes an engine does where its checks pass: its result, and everything else unchanged. -/
theorem onEngine_writes {s : State} {t : EngineRef} {f : Engine → Except ErrorName (Value × Engine)} {e e' : Engine}
    {w : Value} (ho : s.owned t = false) (he : s.engine t = some e) (hf : f e = .ok (w, e')) :
    ∃ s', onEngine t f s = .next s' ∧ s'.response = some (.ok w) ∧ SameRest s s' ∧ EngineChanged t e' s s' :=
  ⟨_, onEngine_ok ho he hf, rfl, sameRest_put, engineChanged_put ho⟩

/-! ### Reset (R152, R153) -/

/-- Settles O22: `E_RESET` has no check of its own. -/
theorem resetRestoresTheInitialState : Obligations.ResetRestoresTheInitialState := by
  intro s t e ho he
  rw [exec_eReset]
  exact onEngine_writes ho he rfl

/-- A reset forgets the steps before it. -/
theorem Engine.reset_after (k : Nat) (e : Engine) : (e.after k).reset = e.reset := by
  induction k generalizing e with
  | zero => rfl
  | succ k ih => exact ih e.advance

/-- A reset leaves an engine that stands as `E_NEW` or a reset made it. -/
theorem Engine.reset_of_fresh {e : Engine} (hstate : e.state = e.initState) (hcount : e.count = 0) (hfb : e.fb = none)
    (hout : e.outbit = none) (hseq : e.seq = []) : e.reset = e := by
  cases e
  dsimp only at hstate hcount hfb hout hseq
  subst hstate hcount hfb hout hseq
  rfl

theorem exec_eReset_unowned {s : State} {t : EngineRef} {e : Engine} (ho : s.owned t = false) (he : s.engine t = some e) :
    exec (.eReset t) s = .next ((s.putEngine t e.reset).respond (.ok .nothing)) := by
  rw [exec_eReset]
  exact onEngine_ok ho he rfl

/-- Settles O23: the reset after the run writes the reset of the fresh engine, which is that engine. -/
theorem resetUndoesAnyRun : Obligations.ResetUndoesAnyRun := by
  intro s t e n ho he hc hstate hcount hfb hout hseq
  have hback : s.putEngine t e.reset = s := by
    rw [Engine.reset_of_fresh hstate hcount hfb hout hseq, State.putEngine_self s t e he]
  refine ⟨_, exec_eRun_consistent ho he hc n, ?_, ?_⟩
  · exact (exec_eReset_unowned ho he).trans (by rw [hback]; rfl)
  · rw [exec_eReset_unowned (by simpa using ho) (engineChanged_put ho).written, Engine.reset_after, State.putEngine_respond,
      State.putEngine_putEngine, State.respond_respond, hback]
    rfl

/-! ### Mutators (R154 to R160) -/

/-- Settles O24: the two checks in their order, and the taps are stored sorted. -/
theorem setPolyReplacesTheTaps : Obligations.SetPolyReplacesTheTaps := by
  intro s t e taps reset enforce ho he
  refine ⟨fun hp => onEngine_error ho he (setPoly_invalidPolynomial hp), fun d hp hmax => ?_⟩
  obtain rfl := (isMaxTap_iff hp).1 hmax
  refine ⟨?_, fun hd => ?_⟩
  · rintro rfl hd
    exact onEngine_error ho he (setPoly_incompatibleMutation hp hd)
  · obtain ⟨s', hs, hr, hrest, hch⟩ := onEngine_writes ho he (setPoly_ok.2 ⟨hp, hd, rfl, rfl⟩)
    exact ⟨s', storedTaps taps, hs, hr, hrest, storedTaps_storedAs hp, hch⟩

/-- Settles O25: the largest tap is beyond the register after the first command and within it after the second, and the output
index that named a cell of the shorter register names one of the longer. -/
theorem enforcedResizeTakesTwoCommands : Obligations.EnforcedResizeTakesTwoCommands := by
  intro s t e taps d v ho he hc hp hmax hlt hv hone
  obtain rfl := (isMaxTap_iff hp).1 hmax
  have hpoly : setPoly taps false true e = .ok (.nothing, { e with taps := storedTaps taps }) :=
    setPoly_ok.2 ⟨hp, .inl rfl, rfl, rfl⟩
  have hbroken : ¬Engine.Consistent { e with taps := storedTaps taps } := fun h =>
    hlt.not_ge ((maxTap_storedTaps taps).symm.trans_le h.maxTap_le)
  have hset : setState v true { e with taps := storedTaps taps } =
      .ok (.nothing, { e with taps := storedTaps taps, state := v }) :=
    setState_ok.2 ⟨hone, .inl rfl, (maxTap_storedTaps taps).trans_le hv.ge,
      fun _ => hv.trans (maxTap_storedTaps taps).symm, hc.oidxInRange.mono (hlt.le.trans hv.ge), rfl, rfl⟩
  have hfit := setState_consistent (by simpa using hp.1) (storedTaps_nodup hp.2.2 hp.2.1) (storedTaps_pos hp.2.2) hset
  have hwritten := (engineChanged_put (e := { e with taps := storedTaps taps }) (r := .ok .nothing) ho).written
  have ho1 : ((s.putEngine t { e with taps := storedTaps taps }).respond (.ok .nothing)).owned t = false := by
    simpa using ho
  exact ⟨_, _, _, _, onEngine_ok ho he hpoly, hwritten, rfl, hbroken,
    onEngine_error ho1 hwritten (stepEngine_inconsistent hbroken), onEngine_ok ho1 hwritten hset,
    (engineChanged_put ho1).written, rfl, hfit⟩

/-- Settles O26: the leading tap of a well-formed engine is its largest, so each clause is one check of `setState`. -/
theorem setStateReplacesTheRegister : Obligations.SetStateReplacesTheRegister := by
  intro s t e v enforce ho he hw
  simp only [hw.headD]
  refine ⟨fun hzero => ?_, ?_, fun hone hm hl => ?_, fun hone hm hl hg hout => ?_, fun hone hm hl hg hlo hhi => ?_⟩
  · exact onEngine_error ho he (setState_zeroState hzero)
  · rintro hone rfl hl
    exact onEngine_error ho he (setState_incompatibleMutation hone hl)
  · exact onEngine_error ho he (setState_wrongLength hone hm hl)
  · exact onEngine_error ho he (setState_invalidOutputIndex hone hm hl hg (not_oidxInRange hout))
  · have hset := setState_ok.2 ⟨hone, hm, hl, hg, ⟨hlo, hhi⟩, rfl, rfl⟩
    obtain ⟨s', hs, hr, hrest, hch⟩ := onEngine_writes ho he hset
    exact ⟨s', hs, hr, hrest, hch, setState_consistent hw.taps_two hw.nodup hw.taps_pos hset⟩

/-- Settles O27: only Galois has a condition, that the largest tap, which a well-formed engine stores first, is `M`. -/
theorem setConfSwitchesTheTransition : Obligations.SetConfSwitchesTheTransition := by
  intro s t e ho he hw
  have hhead : e.taps.head? = some e.len ↔ e.len = maxTap e.taps := by
    rw [hw.head?, Option.some_inj, eq_comm]
  refine ⟨?_, ?_, fun hne => ?_, fun heq => ?_, ?_⟩
  · exact onEngine_error ho he (setConf_invalidConfiguration (c := .neither2) rfl)
  · exact onEngine_error ho he (setConf_invalidConfiguration (c := .neither3) rfl)
  · exact onEngine_error ho he (setConf_invalidState (mt hhead.2 hne))
  · exact onEngine_writes ho he (setConf_ok.2 ⟨rfl, .inr ⟨rfl, hhead.1 heq, rfl⟩⟩)
  · exact onEngine_writes ho he (setConf_ok.2 ⟨rfl, .inl ⟨rfl, rfl⟩⟩)

/-- Settles O28: the one check of `setOidx`. -/
theorem setOidxMovesTheOutput : Obligations.SetOidxMovesTheOutput := by
  intro s t e i ho he
  exact ⟨fun hout => onEngine_error ho he (setOidx_invalidOutputIndex (not_oidxInRange hout)),
    fun hlo hhi => onEngine_writes ho he (setOidx_ok.2 ⟨⟨hlo, hhi⟩, rfl, rfl⟩)⟩

/-! ### Accessors (R161 to R168) -/

/-- Settles O29: every accessor reads the engine at the reference, owned or not. -/
theorem engineAccessorsReturnTheirField : Obligations.EngineAccessorsReturnTheirField := by
  intro s t e he
  exact ⟨readEngine_some he, readEngine_some he, readEngine_some he, readEngine_some he, readEngine_some he,
    readEngine_some he, readEngine_some he⟩

/-- The mask is as long as the largest tap (R86). -/
theorem maskOfTaps_length (taps : List Nat) : (maskOfTaps taps).length = maxTap taps := by
  have hback : (taps.map Int.ofNat).map Int.toNat = taps := by simp [Function.comp_def]
  rw [maskOfTaps, tapMask_length, maxTapOperand_eq, hback]

/-- Element `p - 1` of the mask stands for tap `p` (R86). -/
theorem maskOfTaps_getElem? {taps : List Nat} {p : Nat} (hp : 1 ≤ p) :
    (maskOfTaps taps)[p - 1]? = some true ↔ p ∈ taps := by
  have hpos : ((p - 1 : Nat) : Int) + 1 = (p : Int) := by omega
  rw [maskOfTaps, tapMask_getElem?, hpos]
  exact List.mem_map_of_injective Int.ofNat_injective

/-- Settles O30: the leading tap of a well-formed engine is its largest. -/
theorem polynomialMaskNamesTheTaps : Obligations.PolynomialMaskNamesTheTaps := by
  intro e hw
  exact ⟨(maskOfTaps_length e.taps).trans hw.headD.symm, fun p hp => maskOfTaps_getElem? hp⟩

end Sys2Proof.Machine

end

section
/-!
SUPPORT. The autocorrelation test and its tolerance (`43_sequence_properties.md` R185 to R188). The key fact: two values of `A(k)`
differ by an even number, so two values of `Rxx` that differ do so by at least `2/T`.
-/

namespace Sys2Proof.Machine

/-! ### The values of the autocorrelation (R185) -/

/-- R185 in one product: each match adds 2 to the numerator of a sequence that matches nowhere. -/
theorem autocorrNumerator_eq (p : Bits) (k : Nat) :
    autocorrNumerator p k = 2 * (matchCount p (rotate p k) : Int) - p.length := by
  unfold autocorrNumerator
  omega

theorem two_dvd_autocorrNumerator_sub (p : Bits) (k l : Nat) : 2 ∣ autocorrNumerator p k - autocorrNumerator p l := by
  rw [autocorrNumerator_eq, autocorrNumerator_eq]
  omega

/-- At an odd length `A(k)` is odd, as `-1` is (R188). -/
theorem two_dvd_autocorrNumerator_sub_neg_one {p : Bits} (hodd : p.length % 2 = 1) (k : Nat) :
    2 ∣ autocorrNumerator p k - -1 := by
  rw [autocorrNumerator_eq]
  omega

theorem autocorr_eq_div {p : Bits} (hp : p ≠ []) (k : Nat) :
    autocorr p k = (autocorrNumerator p k : Rat) / (p.length : Rat) := if_neg hp

/-- Two integers of one parity that differ are at least 2 apart, and so their quotients by `T` at least `2/T` (R188). -/
theorem two_div_le_abs_div_sub_div {a c : Int} {T : Nat} (heven : 2 ∣ a - c) (hne : a ≠ c) :
    2 / (T : Rat) ≤ |(a : Rat) / T - (c : Rat) / T| := by
  have habs : 2 ≤ |a - c| := Int.le_of_dvd (abs_pos.2 (sub_ne_zero.2 hne)) ((dvd_abs 2 _).2 heven)
  have hcast : (2 : Rat) ≤ |(a : Rat) - c| := by exact_mod_cast habs
  rw [← sub_div, abs_div, Nat.abs_cast]
  gcongr

/-! ### The test of a shift (R186, R188) -/

theorem closeTo_iff {tol x y : Rat} : closeTo tol x y = true ↔ |x - y| ≤ tol := by
  simp [closeTo, abs_sub_le_iff]

theorem shiftPasses_below {tol : Rat} {p : Bits} (htol : tol < 2 / (p.length : Rat)) (k : Nat) :
    shiftPasses tol p k = true ↔ autocorrNumerator p k = -1 := by
  rw [shiftPasses, if_pos htol, beq_iff_eq]

theorem shiftPasses_above {tol : Rat} {p : Bits} (htol : 2 / (p.length : Rat) ≤ tol) (k : Nat) :
    shiftPasses tol p k = true ↔ |autocorr p k - -1 / (p.length : Rat)| ≤ tol := by
  rw [shiftPasses, if_neg htol.not_gt, closeTo_iff]

/-- The shifts that are tested are those from 1 to `T - 1` (R186). -/
theorem checkAutocorrelation_pass {tol : Rat} {p : Bits} :
    (checkAutocorrelation tol p).pass = true ↔ ∀ k, 1 ≤ k → k < p.length → shiftPasses tol p k = true := by
  simp only [checkAutocorrelation, List.all_eq_true, List.mem_range]
  constructor
  · intro h k hpos hlt
    simpa [Nat.sub_add_cancel hpos] using h (k - 1) (by omega)
  · intro h i hi
    exact h (i + 1) (by omega) (by omega)

/-- R188 at an odd length: a tolerance below `2/T` admits no value of `Rxx` but `-1/T` itself. -/
theorem autocorrNumerator_eq_neg_one_iff_near {tol : Rat} {p : Bits} (hnonneg : 0 ≤ tol) (htol : tol < 2 / (p.length : Rat))
    (hodd : p.length % 2 = 1) (k : Nat) :
    autocorrNumerator p k = -1 ↔ |autocorr p k - -1 / (p.length : Rat)| ≤ tol := by
  have hp : p ≠ [] := by
    rintro rfl
    cases hodd
  rw [autocorr_eq_div hp]
  constructor
  · intro hA
    simpa [hA] using hnonneg
  · intro hnear
    by_contra hne
    have hfar := two_div_le_abs_div_sub_div (T := p.length) (two_dvd_autocorrNumerator_sub_neg_one hodd k) hne
    rw [Int.cast_neg, Int.cast_one] at hfar
    linarith only [hfar, hnear, htol]

/-- Settles O60: each side of `2/T` is one branch of `shiftPasses`, and all the numerators of `Rxx` have one parity. -/
theorem autocorrelationTestIsTheIntegerTest : Obligations.AutocorrelationTestIsTheIntegerTest := by
  intro p
  refine ⟨fun hp k l hne => ?_, fun tol => ⟨fun hbelow => ?_, autocorrNumerator_eq_neg_one_iff_near, fun habove => ?_⟩⟩
  · rw [autocorr_eq_div hp, autocorr_eq_div hp] at hne ⊢
    have hA : autocorrNumerator p k ≠ autocorrNumerator p l := fun heq => hne (by rw [heq])
    exact two_div_le_abs_div_sub_div (two_dvd_autocorrNumerator_sub p k l) hA
  · simp only [checkAutocorrelation_pass, shiftPasses_below hbelow]
  · simp only [checkAutocorrelation_pass, shiftPasses_above habove]

end Sys2Proof.Machine

end

section
/-!
SUPPORT. The statements of `44_a51.md`: the build of the A5/1 unit and its two kinds of cycle, and what the composites share with
it: their accessors, runs and resets.
-/

namespace Sys2Proof.Machine

/-! ### The build (R196) -/

/-- Settles O34: `buildA51_ok` says which engines the build admits, and its one error is InvalidComposite. -/
theorem a51BuildAdmitsItsThreeEngines : Obligations.A51BuildAdmitsItsThreeEngines := by
  intro s slots hs fits
  refine ⟨fun e1 e2 e3 h1 h2 h3 => ?_, fun hnone => ?_⟩
  · obtain ⟨hslot1, hadmits1⟩ := h1
    obtain ⟨hslot2, hadmits2⟩ := h2
    obtain ⟨hslot3, hadmits3⟩ := h3
    exact execA51Build_ok hs
      (buildA51_ok.2 ⟨hslot1, hslot2, hslot3, hadmits1, hadmits2, hadmits3, rfl, rfl, rfl, rfl⟩)
  · cases hb : buildA51 s.cfg slots with
    | error x =>
      obtain rfl := buildA51_error hb
      exact execA51Build_error hs hb
    | ok u =>
      obtain ⟨hslot1, hslot2, hslot3, hadmits1, hadmits2, hadmits3, -⟩ := buildA51_ok.1 hb
      exact absurd ⟨u.r1, u.r2, u.r3, ⟨hslot1, hadmits1⟩, ⟨hslot2, hadmits2⟩, ⟨hslot3, hadmits3⟩⟩ hnone

/-! ### A cycle and a run of each built composite -/

theorem exec_a51Step_built {s : State} {u : A51} (h : s.a51 = .built u) :
    exec .a51Step s = .next ((s.putA51 u.advance).respond (.ok (.bit u.emit))) := onA51_built h

theorem exec_a51Run_built {s : State} {u : A51} (h : s.a51 = .built u) (k : Nat) :
    exec (.a51Run k) s = .next ((s.putA51 (u.after k)).respond (.ok (.bits (u.outputs k)))) := onA51_built h

theorem exec_geffeStep_built {s : State} {u : Geffe} {spare : List (Option Engine)} (h : s.geffe = .built u spare) :
    exec .geffeStep s = .next ((s.putGeffe (u.advance s.cfg.geffeSelMsbFirst) spare).respond
      (.ok (.bit (u.emit s.cfg.geffeSelMsbFirst)))) := onGeffe_built h

theorem exec_geffeRun_built {s : State} {u : Geffe} {spare : List (Option Engine)} (h : s.geffe = .built u spare) (k : Nat) :
    exec (.geffeRun k) s = .next ((s.putGeffe (u.after s.cfg.geffeSelMsbFirst k) spare).respond
      (.ok (.bits (u.outputs s.cfg.geffeSelMsbFirst k)))) := onGeffe_built h

theorem exec_geffe3Step_built {s : State} {u : Geffe3} (h : s.geffe3 = .built u) :
    exec .geffe3Step s = .next ((s.putGeffe3 (u.advance s.cfg.geffe3Combiner)).respond
      (.ok (.bit (u.emit s.cfg.geffe3Combiner)))) := onGeffe3_built h

theorem exec_geffe3Run_built {s : State} {u : Geffe3} (h : s.geffe3 = .built u) (k : Nat) :
    exec (.geffe3Run k) s = .next ((s.putGeffe3 (u.after s.cfg.geffe3Combiner k)).respond
      (.ok (.bits (u.outputs s.cfg.geffe3Combiner k)))) := onGeffe3_built h

/-! ### The cycles of the A5/1 unit (R197 to R202) -/

/-- The output with the XOR taken from the right, as the statements write it (R202). -/
theorem A51.emit_eq (u : A51) : u.emit = xor u.stepped.r1.tap (xor u.stepped.r2.tap u.stepped.r3.tap) := Bool.xor_assoc ..

theorem A51.clocked_first {u : A51} (h : u.count = 0) (c : Bool) (e : Engine) : u.clocked c e = e := if_pos h

theorem A51.stepped_first {u : A51} (h : u.count = 0) : u.stepped = u := by
  simp only [A51.stepped, A51.clocked_first h]

theorem A51.clocked_of_vote {u : A51} {c : Bool} (h : 0 < u.count) (hc : c = u.vote) (e : Engine) :
    u.clocked c e = e.stepInCycle := (if_neg h.ne').trans (if_pos hc)

theorem A51.clocked_of_ne_vote {u : A51} {c : Bool} (hc : c ≠ u.vote) (e : Engine) : u.clocked c e = e := by
  rw [A51.clocked, if_neg hc, ite_self]

/-- Settles O35: the engines after a first cycle are those before it, and each output index names a cell. -/
theorem a51FirstCycleStepsNoEngine : Obligations.A51FirstCycleStepsNoEngine := by
  intro s u hs hcount h1 h2 h3 hoidx
  have hemit : u.emit = xor u.r1.tap (xor u.r2.tap u.r3.tap) := by rw [A51.emit_eq, A51.stepped_first hcount]
  refine ⟨_, _, _, _, _, _, getElem?_of_cell h1, getElem?_of_cell h2, getElem?_of_cell h3, tapIs_tap (hoidx .r1),
    tapIs_tap (hoidx .r2), tapIs_tap (hoidx .r3), ?_⟩
  rw [exec_a51Step_built hs, A51.advance, A51.stepped_first hcount, hcount, hemit]
  rfl

/-- The majority is 1 exactly when at least two of the three bits are (R14). -/
theorem maj_eq_decide (a b c : Bool) : maj a b c = decide (2 ≤ [a, b, c].count true) := by revert a b c; decide

/-- At least two of three bits hold their majority (R200). -/
theorem two_le_count_maj (a b c : Bool) : 2 ≤ [a, b, c].count (maj a b c) := by revert a b c; decide

/-- In a later cycle an engine whose clocking bit is the vote makes one `E_STEP` (R200, R201). -/
theorem A51.eStepMakes_clocked {u : A51} {c : Bool} {e : Engine} (h : 0 < u.count) (he : e.Consistent) (hc : c = u.vote) :
    EStepMakes e (u.clocked c e) e.emit := by
  rw [A51.clocked_of_vote h hc, Engine.stepInCycle_consistent he]
  exact eStepMakes_advance he

/-- The tap of a consistent engine, after what a cycle makes of it, is a cell of its register (R202). -/
theorem A51.tapIs_clocked (u : A51) (c : Bool) {e : Engine} (he : e.Consistent) : TapIs (u.clocked c e) (u.clocked c e).tap :=
  tapIs_tap (Engine.Consistent.oidxInRange (A51.clocked_keeps he he.advance))

/-- Settles O36: each engine by whether its clocking bit is the vote; the vote of the model is the majority as counted. -/
theorem a51LaterCyclesStepTheMajority : Obligations.A51LaterCyclesStepTheMajority := by
  intro s u hs hcount hc1 hc2 hc3 h1 h2 h3
  refine ⟨u.advance, _, _, _, u.stepped.r1.tap, u.stepped.r2.tap, u.stepped.r3.tap, getElem?_of_cell h1,
    getElem?_of_cell h2, getElem?_of_cell h3, ?_⟩
  intro m
  have hm : u.vote = m := maj_eq_decide ..
  rw [← hm]
  exact ⟨fun hc => ⟨_, A51.eStepMakes_clocked hcount hc1 hc⟩, fun hc => A51.clocked_of_ne_vote hc _,
    fun hc => ⟨_, A51.eStepMakes_clocked hcount hc2 hc⟩, fun hc => A51.clocked_of_ne_vote hc _,
    fun hc => ⟨_, A51.eStepMakes_clocked hcount hc3 hc⟩, fun hc => A51.clocked_of_ne_vote hc _,
    two_le_count_maj .., u.tapIs_clocked _ hc1, u.tapIs_clocked _ hc2, u.tapIs_clocked _ hc3,
    by rw [A51.advance, u.emit_eq]; rfl, by rw [exec_a51Step_built hs, u.emit_eq]; rfl⟩

/-! ### Runs, accessors and resets of the composites -/

/-- Settles O42: a run iterates the cycle, so its first cycle is the unit's next one and the rest is a run from there. -/
theorem compositeRunsAreCyclesInOrder : Obligations.CompositeRunsAreCyclesInOrder := by
  refine ⟨fun s u hu => ?_, fun s u hu => ?_, fun s u hu => ?_⟩
  · have hs := State.a51Built_eq_some.1 hu
    refine ⟨(exec_a51Run_built hs 0).trans ?_, fun k => ⟨_, _, _, _, exec_a51Step_built hs, rfl,
      exec_a51Run_built rfl k, rfl, A51.outputs_length .., exec_a51Run_built hs (k + 1)⟩⟩
    rw [A51.after, State.putA51_self hs]
    rfl
  · obtain ⟨spare, hs⟩ := State.geffeBuilt_eq_some.1 hu
    refine ⟨(exec_geffeRun_built hs 0).trans ?_, fun k => ⟨_, _, _, _, exec_geffeStep_built hs, rfl,
      exec_geffeRun_built rfl k, rfl, Geffe.outputs_length .., exec_geffeRun_built hs (k + 1)⟩⟩
    rw [Geffe.after, State.putGeffe_self hs]
    rfl
  · have hs := State.geffe3Built_eq_some.1 hu
    refine ⟨(exec_geffe3Run_built hs 0).trans ?_, fun k => ⟨_, _, _, _, exec_geffe3Step_built hs, rfl,
      exec_geffe3Run_built rfl k, rfl, Geffe3.outputs_length .., exec_geffe3Run_built hs (k + 1)⟩⟩
    rw [Geffe3.after, State.putGeffe3_self hs]
    rfl

/-- A command that leaves the A5/1 unit as it is changes nothing but the response. -/
theorem onA51_reads {s : State} {u : A51} (f : A51 → Value) (h : s.a51 = .built u) :
    onA51 (fun u => (f u, u)) s = answer (f u) s := by
  rw [onA51_built h, State.putA51_self h]

/-- A command that leaves the Geffe unit as it is changes nothing but the response. -/
theorem onGeffe_reads {s : State} {u : Geffe} {spare : List (Option Engine)} (f : Geffe → Value)
    (h : s.geffe = .built u spare) : onGeffe (fun u => (f u, u)) s = answer (f u) s := by
  rw [onGeffe_built h, State.putGeffe_self h]

/-- A command that leaves the Geffe3 unit as it is changes nothing but the response. -/
theorem onGeffe3_reads {s : State} {u : Geffe3} (f : Geffe3 → Value) (h : s.geffe3 = .built u) :
    onGeffe3 (fun u => (f u, u)) s = answer (f u) s := by
  rw [onGeffe3_built h, State.putGeffe3_self h]

/-- Settles O31: every accessor leaves the unit as it is. -/
theorem compositeAccessorsReturnTheirField : Obligations.CompositeAccessorsReturnTheirField := by
  refine ⟨fun s u hu => ?_, fun s u hu => ?_, fun s u hu => ?_⟩
  · have hs := State.a51Built_eq_some.1 hu
    exact ⟨onA51_reads (.bits ·.seq) hs, onA51_reads (.nat ·.count) hs, onA51_reads (.optBit ·.outbit) hs,
      onA51_reads (.optTriple ·.cb) hs⟩
  · obtain ⟨spare, hs⟩ := State.geffeBuilt_eq_some.1 hu
    exact ⟨onGeffe_reads (.bits ·.seq) hs, onGeffe_reads (.nat ·.count) hs, onGeffe_reads (.optBit ·.outbit) hs,
      onGeffe_reads (.optNat ·.sel) hs⟩
  · have hs := State.geffe3Built_eq_some.1 hu
    exact ⟨onGeffe3_reads (.bits ·.seq) hs, onGeffe3_reads (.nat ·.count) hs, onGeffe3_reads (.optBit ·.outbit) hs⟩

/-- Settles O45: `Engine.reset` makes of every engine what `ResetOf` spells out. -/
theorem compositeResetResetsItsEngines : Obligations.CompositeResetResetsItsEngines :=
  ⟨fun s _ hs => (exec_a51Reset s).trans (onA51_built hs), fun s _ _ hs => (exec_geffeReset s).trans (onGeffe_built hs),
    fun s _ hs => (exec_geffe3Reset s).trans (onGeffe3_built hs)⟩

end Sys2Proof.Machine

end

section
/-!
SUPPORT. The statements of `45_geffe.md`: the build of the Geffe unit and its cycle. The key fact of the cycle: the index, which
the model folds out of the drawn bits, is their sum with the weights of either bit order (R222).
-/

namespace Sys2Proof.Machine

/-! ### The build (R216) -/

/-- Settles O37: `buildGeffe_ok` says which engines the build admits, and its one error is InvalidComposite. -/
theorem geffeBuildTakesAPowerOfTwo : Obligations.GeffeBuildTakesAPowerOfTwo := by
  intro s sel comps k hs fits
  refine ⟨fun e es hfits => ?_, fun hnone => ?_⟩
  · obtain ⟨hpow, hmax, hsel, hcons, hslots, hall⟩ := hfits
    exact execGeffeBuild_ok hs (buildGeffe_ok.2 ⟨hpow, hmax, hsel, hslots, hcons, hall, rfl, rfl, rfl, rfl⟩)
  · cases hb : buildGeffe k sel comps.toList with
    | error x =>
      obtain rfl := buildGeffe_error hb
      exact execGeffeBuild_error hs hb
    | ok u =>
      obtain ⟨hpow, hmax, hsel, hslots, hcons, hall, -⟩ := buildGeffe_ok.1 hb
      exact absurd ⟨u.s, u.c, hpow, hmax, hsel, hcons, hslots, hall⟩ hnone

/-! ### The index as a weighted sum of the drawn bits (R222) -/

/-- The sum of the bits of `b`, bit `t` with the weight `w t`. -/
def weightedSum (w : Nat → Nat) (b : Bits) : Nat := ((List.range b.length).map fun t => (cell b t).toNat * w t).sum

theorem cell_cons_succ {b : Bits} {t : Nat} (h : t < b.length) (x : Bool) : cell (x :: b) (t + 1) = cell b t := by
  rw [cell_of_lt h, cell_of_lt (Nat.succ_lt_succ h), List.getElem_cons_succ]

theorem weightedSum_cons (w : Nat → Nat) (x : Bool) (b : Bits) :
    weightedSum w (x :: b) = x.toNat * w 0 + weightedSum (fun t => w (t + 1)) b := by
  have htail : (List.range b.length).map (fun t => (cell (x :: b) (t + 1)).toNat * w (t + 1)) =
      (List.range b.length).map fun t => (cell b t).toNat * w (t + 1) :=
    List.map_congr_left fun t ht => by rw [cell_cons_succ (List.mem_range.1 ht)]
  rw [weightedSum, List.length_cons, List.range_succ_eq_map, List.map_cons, List.sum_cons, List.map_map]
  exact congrArg (x.toNat * w 0 + List.sum ·) htail

/-- A factor 2 of every weight comes out of the sum. -/
theorem weightedSum_two_mul (w : Nat → Nat) (b : Bits) : weightedSum (fun t => 2 * w t) b = 2 * weightedSum w b := by
  simp only [weightedSum, Nat.mul_left_comm _ 2, List.sum_map_mul_left]

/-- With the first bit drawn the least significant, bit `t` weighs `2^t`. -/
theorem indexLsbFirst_eq_weightedSum (b : Bits) : indexLsbFirst b = weightedSum (2 ^ ·) b := by
  induction b with
  | nil => rfl
  | cons x b ih =>
    have hdouble : weightedSum (fun t => 2 ^ (t + 1)) b = 2 * weightedSum (2 ^ ·) b := by
      simp only [pow_succ', weightedSum_two_mul]
    rw [weightedSum_cons, hdouble, ← ih, pow_zero, mul_one]
    rfl

/-- The fold that reads the most significant bit first, from any number `a` read before. -/
theorem foldl_msbFirst_eq_weightedSum (b : Bits) (a : Nat) :
    b.foldl (fun a x => 2 * a + x.toNat) a = a * 2 ^ b.length + weightedSum (fun t => 2 ^ (b.length - 1 - t)) b := by
  induction b generalizing a with
  | nil => exact (mul_one a).symm
  | cons x b ih =>
    have hweights : (fun t => 2 ^ ((x :: b).length - 1 - (t + 1))) = fun t => 2 ^ (b.length - 1 - t) :=
      funext fun t => by rw [List.length_cons, Nat.add_sub_cancel, Nat.sub_sub, Nat.add_comm t]
    rw [List.foldl_cons, ih, weightedSum_cons, hweights, List.length_cons, Nat.add_sub_cancel, Nat.sub_zero]
    ring

/-- With the first bit drawn the most significant, bit `t` of `n` weighs `2^(n-1-t)`. -/
theorem indexMsbFirst_eq_weightedSum (b : Bits) :
    indexMsbFirst b = weightedSum (fun t => 2 ^ (b.length - 1 - t)) b := by
  rw [indexMsbFirst, foldl_msbFirst_eq_weightedSum, Nat.zero_mul, Nat.zero_add]

theorem selIndex_eq_weightedSum (msbFirst : Bool) (b : Bits) :
    selIndex msbFirst b =
      if msbFirst then weightedSum (fun t => 2 ^ (b.length - 1 - t)) b else weightedSum (2 ^ ·) b := by
  rw [selIndex, indexMsbFirst_eq_weightedSum, indexLsbFirst_eq_weightedSum]

/-! ### The cycle (R217 to R223) -/

theorem eRunMakes_after {e : Engine} (hc : e.Consistent) (k : Nat) : ERunMakes k e (e.after k) (e.outputs k) :=
  fun s => ⟨_, exec_eRun_consistent (s := { s with lfsr := some e }) (t := .lfsr) rfl rfl hc k, rfl, rfl⟩

theorem Geffe.selBits_eq {u : Geffe} {n : Nat} (h : u.c.length = 2 ^ n) : u.selBits = n := by
  rw [Geffe.selBits, h, Nat.log2_two_pow]

theorem Geffe.stepped_first {u : Geffe} (h : u.count = 0) : u.stepped = u.c := if_pos h

/-- A consistent selector makes the `E_RUN` that gives the cycle its bits (R221). -/
theorem Geffe.eRunMakes_selStepped {u : Geffe} (hc : u.s.Consistent) : ERunMakes u.selBits u.s u.selStepped u.drawn := by
  rw [Geffe.selStepped, Geffe.drawn, if_pos hc, if_pos hc]
  exact eRunMakes_after hc _

/-- In a later cycle every consistent component makes one `E_STEP` (R220). -/
theorem Geffe.eStepMakes_advance {m : Bool} {u : Geffe} {j : Nat} {x y : Engine} (hcount : 0 < u.count)
    (hc : x.Consistent) (hx : u.c[j]? = some x) (hy : (u.advance m).c[j]? = some y) : EStepMakes x y x.emit := by
  rw [Geffe.advance_getElem? m hx] at hy
  cases hy
  exact eStepMakes_stepInCycle hc hcount

/-- The stepping keeps the components consistent, so each output index still names a cell. -/
theorem Geffe.stepped_consistent {u : Geffe} (hc : ∀ e ∈ u.c, e.Consistent) : ∀ e ∈ u.stepped, e.Consistent := by
  intro e he
  unfold Geffe.stepped at he
  split at he
  · exact hc e he
  · obtain ⟨x, hx, rfl⟩ := List.mem_map.1 he
    exact Engine.stepInCycle_keeps (hc x hx) (hc x hx).advance

/-- With a power of two of components the index names one, and the output is its tap after the stepping (R223). -/
theorem Geffe.exists_selected (m : Bool) {u : Geffe} (hpow : ∃ n, u.c.length = 2 ^ n) (hc : ∀ e ∈ u.c, e.Consistent) :
    ∃ e, (u.advance m).c[u.index m]? = some e ∧ TapIs e (u.emit m) := by
  have hlt : u.index m < u.stepped.length := u.stepped_length.symm ▸ u.index_lt m hpow
  have hsel : u.stepped[u.index m]? = some u.stepped[u.index m] := List.getElem?_eq_getElem hlt
  have hemit : u.emit m = u.stepped[u.index m].tap := by rw [Geffe.emit, hsel]
  refine ⟨_, hsel, ?_⟩
  rw [hemit]
  exact tapIs_tap (Geffe.stepped_consistent hc _ (List.getElem_mem hlt)).oidxInRange

/-- Settles O38: the selector's run draws the bits of the index, and the index names the component whose tap is the output. -/
theorem geffeCycleSelectsOneComponent : Obligations.GeffeCycleSelectsOneComponent := by
  intro s u spare n hs hlen hsel hcomps
  obtain ⟨e, he, htap⟩ := Geffe.exists_selected s.cfg.geffeSelMsbFirst ⟨n, hlen⟩ hcomps
  obtain rfl := Geffe.selBits_eq hlen
  have hidx := selIndex_eq_weightedSum s.cfg.geffeSelMsbFirst u.drawn
  simp only [weightedSum, Geffe.drawn_length] at hidx
  exact ⟨u.advance _, u.index _, u.emit _, u.drawn, e, u.stepped_length, Geffe.stepped_first,
    fun hcount _ _ _ hx hy => ⟨_, Geffe.eStepMakes_advance hcount (hcomps _ (List.mem_of_getElem? hx)) hx hy⟩,
    Geffe.eRunMakes_selStepped hsel, u.drawn_length, u.index_lt _ ⟨_, hlen⟩, hidx, he, htap, rfl, exec_geffeStep_built hs⟩

end Sys2Proof.Machine

end

section
/-!
SUPPORT. The statements of `46_geffe3.md`: the build of the Geffe3 unit, its cycle, and its stream under AS_DOCUMENTED. The key fact
of the stream: the `R2` of each cycle is one step past the `R2` of the cycle before it (R237).
-/

namespace Sys2Proof.Machine

/-! ### The build (R236) -/

/-- Settles O39: `buildGeffe3_ok` says which engines the build admits, and its one error is InvalidComposite. -/
theorem geffe3BuildAdmitsAnyThreeEngines : Obligations.Geffe3BuildAdmitsAnyThreeEngines := by
  intro s slots hs fits
  refine ⟨fun e1 e2 e3 h1 h2 h3 => ?_, fun hnone => ?_⟩
  · obtain ⟨hslot1, hcons1⟩ := h1
    obtain ⟨hslot2, hcons2⟩ := h2
    obtain ⟨hslot3, hcons3⟩ := h3
    exact execGeffe3Build_ok hs
      (buildGeffe3_ok.2 ⟨hslot1, hslot2, hslot3, hcons1, hcons2, hcons3, rfl, rfl, rfl⟩)
  · cases hb : buildGeffe3 slots with
    | error x =>
      obtain rfl := buildGeffe3_error hb
      exact execGeffe3Build_error hs hb
    | ok u =>
      obtain ⟨hslot1, hslot2, hslot3, hcons1, hcons2, hcons3, -⟩ := buildGeffe3_ok.1 hb
      exact absurd ⟨u.r1, u.r2, u.r3, ⟨hslot1, hcons1⟩, ⟨hslot2, hcons2⟩, ⟨hslot3, hcons3⟩⟩ hnone

/-! ### The cycle (R237 to R239) -/

theorem Geffe3.advance_get_first {u : Geffe3} (h : u.count = 0) (c : Combiner) (r : Reg3) :
    (u.advance c).get r = u.get r := (u.advance_get c r).trans (if_pos h)

/-- In a later cycle every consistent engine makes one `E_STEP` (R237). -/
theorem Geffe3.eStepMakes_advance_get {u : Geffe3} {r : Reg3} (h : 0 < u.count) (c : Combiner) (hc : (u.get r).Consistent) :
    EStepMakes (u.get r) ((u.advance c).get r) (u.get r).emit := by
  rw [u.advance_get]
  exact eStepMakes_stepInCycle hc h

/-- A cycle keeps an engine consistent, so its output index still names a cell. -/
theorem Geffe3.advance_get_consistent {u : Geffe3} {r : Reg3} (c : Combiner) (hc : (u.get r).Consistent) :
    ((u.advance c).get r).Consistent := by
  rw [u.advance_get]
  split
  · exact hc
  · exact Engine.stepInCycle_keeps hc hc.advance

theorem Geffe3.tapIs_advance_get {u : Geffe3} {r : Reg3} (c : Combiner) (hc : (u.get r).Consistent) :
    TapIs ((u.advance c).get r) ((u.advance c).get r).tap :=
  tapIs_tap (Geffe3.advance_get_consistent c hc).oidxInRange

/-- The output is the combination of the taps after the stepping (R238). -/
theorem Geffe3.emit_eq (c : Combiner) (u : Geffe3) :
    u.emit c = combine c (u.advance c).r1.tap (u.advance c).r2.tap (u.advance c).r3.tap := rfl

/-- The documented combiner selects `r2` whatever `r1` is (R239). -/
theorem combine_asDocumented (r1 r2 r3 : Bool) : combine .asDocumented r1 r2 r3 = r2 := by
  cases r1 <;> cases r2 <;> rfl

/-- Settles O40: each engine after the cycle by `Geffe3.advance_get`, and the output by either combiner. -/
theorem geffe3CycleCombinesTheTaps : Obligations.Geffe3CycleCombinesTheTaps := by
  intro s u hs hc1 hc2 hc3
  have hemit := u.emit_eq s.cfg.geffe3Combiner
  refine ⟨u.advance s.cfg.geffe3Combiner, _, _, _, u.emit s.cfg.geffe3Combiner,
    fun h => ⟨Geffe3.advance_get_first h _ .r1, Geffe3.advance_get_first h _ .r2, Geffe3.advance_get_first h _ .r3⟩,
    fun h => ⟨⟨_, Geffe3.eStepMakes_advance_get (r := .r1) h _ hc1⟩, ⟨_, Geffe3.eStepMakes_advance_get (r := .r2) h _ hc2⟩,
      ⟨_, Geffe3.eStepMakes_advance_get (r := .r3) h _ hc3⟩⟩,
    Geffe3.tapIs_advance_get (r := .r1) _ hc1, Geffe3.tapIs_advance_get (r := .r2) _ hc2,
    Geffe3.tapIs_advance_get (r := .r3) _ hc3, fun hdoc => ?_, fun hpub => ?_, rfl, exec_geffe3Step_built hs⟩
  · rw [hdoc] at hemit ⊢
    exact ⟨hemit, hemit.trans (combine_asDocumented ..)⟩
  · rw [hpub] at hemit ⊢
    exact hemit

/-! ### The stream under AS_DOCUMENTED (R240) -/

theorem Geffe3.stepped_first {u : Geffe3} (h : u.count = 0) : u.stepped = u := if_pos h

/-- After a cycle the next one steps the engines, so its `R2` is one step past the `R2` of this cycle. -/
theorem Geffe3.stepped_advance_r2 {u : Geffe3} (c : Combiner) (hc : u.stepped.r2.Consistent) :
    (u.advance c).stepped.r2 = u.stepped.r2.advance := by
  have hlater : (u.advance c).stepped.r2 = u.stepped.r2.stepInCycle :=
    congrArg Geffe3.r2 (if_neg (Nat.succ_ne_zero u.count))
  exact hlater.trans (Engine.stepInCycle_consistent hc)

theorem Geffe3.emit_asDocumented (u : Geffe3) : u.emit .asDocumented = u.stepped.r2.tap := combine_asDocumented ..

/-- Cycle `c` of a run emits the tap of `R2` `c` steps past that of the run's first cycle (R240 (a)). -/
theorem Geffe3.outputs_asDocumented_getElem? {u : Geffe3} (hc : u.stepped.r2.Consistent) {k c : Nat} (hlt : c < k) :
    (u.outputs .asDocumented k)[c]? = some (u.stepped.r2.after c).tap := by
  induction k generalizing u c with
  | zero => exact absurd hlt (Nat.not_lt_zero c)
  | succ k ih =>
    rw [Geffe3.outputs_succ, Geffe3.emit_asDocumented]
    cases c with
    | zero => rfl
    | succ c =>
      have hr2 := Geffe3.stepped_advance_r2 .asDocumented hc
      rw [List.getElem?_cons_succ, ih (hr2 ▸ hc.advance) (Nat.lt_of_succ_lt_succ hlt), hr2, Engine.after_succ]

/-- Settles O41: the first cycle steps no engine, so the run's first `R2` is the unit's own. -/
theorem geffe3AsDocumentedFollowsR2 : Obligations.Geffe3AsDocumentedFollowsR2 := by
  intro s u k hs hcount hdoc _ hc2 _
  have hfirst : u.stepped = u := Geffe3.stepped_first hcount
  have hrun := exec_geffe3Run_built hs k
  rw [hdoc] at hrun
  refine ⟨_, _, hrun, rfl, Geffe3.outputs_length .., fun c hlt =>
    ⟨u.r2.after c, _, _, eRunMakes_after hc2 c, tapIs_tap (hc2.after c).oidxInRange, ?_⟩⟩
  have hbit := Geffe3.outputs_asDocumented_getElem? (hfirst.symm ▸ hc2) hlt
  rwa [hfirst] at hbit

end Sys2Proof.Machine

end

section
/-!
SUPPORT. The statements of `60_exceptions.md`: the codes of the responses, which commands raise which error, and what a command
that answers one leaves as it was.
-/

namespace Sys2Proof.Machine

/-! ### The codes (R250) -/

/-- Settles O49: the codes are read off the two definitions, which are tables. -/
theorem responsesCarryTheirCodes : Obligations.ResponsesCarryTheirCodes := ⟨fun _ => rfl, rfl⟩

/-! ### What does not exist (R264) -/

/-- Settles O32: existence is looked at right after ownership, before anything a command would do to an engine or a unit. -/
theorem missingUnitsAnswerNotConstructed : Obligations.MissingUnitsAnswerNotConstructed := by
  refine ⟨fun s t he => ⟨fun ho k taps v a b c i cmd hcmd => ?_, fun cmd hcmd => ?_⟩,
    fun s k => ⟨fun hu cmd hcmd => ?_, fun hu cmd hcmd => ?_, fun hu cmd hcmd => ?_⟩⟩ <;>
    simp only [List.mem_cons, List.not_mem_nil, or_false] at hcmd
  · have hwrite (f) : onEngine t f s = .next { s with response := some (.err .notConstructed) } := onEngine_none ho he
    obtain rfl | rfl | rfl | rfl | rfl | rfl | rfl | rfl := hcmd
    exacts [hwrite _, hwrite _, hwrite _, hwrite fun e => .ok (.nothing, e.reset), hwrite _, hwrite _, hwrite _, hwrite _]
  · obtain rfl | rfl | rfl | rfl | rfl | rfl | rfl := hcmd <;> exact readEngine_none he
  · obtain ⟨slots, hs⟩ := State.a51Built_eq_none.1 hu
    obtain rfl | rfl | rfl | rfl | rfl | rfl | rfl := hcmd <;> exact onA51_staging hs
  · obtain ⟨sel, comps, hs⟩ := State.geffeBuilt_eq_none.1 hu
    obtain rfl | rfl | rfl | rfl | rfl | rfl | rfl := hcmd <;> exact onGeffe_staging hs
  · obtain ⟨slots, hs⟩ := State.geffe3Built_eq_none.1 hu
    obtain rfl | rfl | rfl | rfl | rfl | rfl := hcmd <;> exact onGeffe3_staging hs

/-! ### Composites do not err (R259) -/

/-- Settles O43: a built unit answers every cycle and every run, and a run of `k` cycles gives `k` bits, counts `k` and appends
its bits (`after_count`, `after_seq` of the unit, by induction on `k`). -/
theorem compositeCyclesNeverErr : Obligations.CompositeCyclesNeverErr := by
  refine ⟨fun s u k hu => ?_, fun s u k hu => ?_, fun s u k hu => ?_⟩
  · have hs := State.a51Built_eq_some.1 hu
    exact ⟨⟨_, _, _, exec_a51Step_built hs, rfl, ⟨rfl, rfl, rfl⟩, rfl, rfl, rfl, rfl⟩,
      _, _, _, exec_a51Run_built hs k, rfl, ⟨rfl, rfl, rfl⟩, rfl, A51.outputs_length .., A51.after_count .., A51.after_seq ..⟩
  · obtain ⟨spare, hs⟩ := State.geffeBuilt_eq_some.1 hu
    exact ⟨⟨_, _, _, exec_geffeStep_built hs, rfl, ⟨rfl, rfl, rfl⟩, rfl, rfl, rfl, rfl⟩,
      _, _, _, exec_geffeRun_built hs k, rfl, ⟨rfl, rfl, rfl⟩, rfl, Geffe.outputs_length .., Geffe.after_count ..,
      Geffe.after_seq ..⟩
  · have hs := State.geffe3Built_eq_some.1 hu
    exact ⟨⟨_, _, _, exec_geffe3Step_built hs, rfl, ⟨rfl, rfl, rfl⟩, rfl, rfl, rfl, rfl⟩,
      _, _, _, exec_geffe3Run_built hs k, rfl, ⟨rfl, rfl, rfl⟩, rfl, Geffe3.outputs_length .., Geffe3.after_count ..,
      Geffe3.after_seq ..⟩

/-! ### A failed command changes no unit (R252) -/

/-- Of all that a command can do, only failing answers an error; what it leaves changed are the unit's draws. -/
theorem Did.of_err {i : Instr} {s s' : State} {x : ErrorName} (h : Did i s s') (hx : s'.response = some (.err x)) :
    ∃ n, s' = (s.takeDraws (unitOf i) n).respond (.err x) := by
  cases h with
  | failed y n _ => cases hx; exact ⟨n, rfl⟩
  | _ => cases hx

theorem exec_err_frame {i : Instr} {s s' : State} {x : ErrorName} (h : exec i s = .next s')
    (hx : s'.response = some (.err x)) : SameUnits s s' ∧ s'.host = s.host ∧ s'.cfg = s.cfg := by
  obtain ⟨n, rfl⟩ := (exec_cases h).of_err hx
  exact ⟨⟨rfl, rfl, rfl, rfl⟩, rfl, rfl⟩

/-- Settles O48: a command that answers an error has done nothing but fail, and a step is idle, performs a command or answers
a reserved one. -/
theorem failedCommandsChangeNoUnit : Obligations.FailedCommandsChangeNoUnit := by
  refine ⟨fun _ _ _ _ => exec_err_frame, fun s s' x h hx => ?_⟩
  obtain ⟨-, rfl⟩ | ⟨c, rest, -, ⟨i, -, he⟩ | ⟨r, -, rfl⟩⟩ := step_cases h
  · exact ⟨⟨rfl, rfl, rfl, rfl⟩, rfl⟩
  · obtain ⟨⟨hl, ha, hg, hg3⟩, -, hcfg⟩ := exec_err_frame he hx
    exact ⟨⟨hl, ha, hg, hg3⟩, hcfg⟩
  · exact ⟨⟨rfl, rfl, rfl, rfl⟩, rfl⟩

/-! ### The errors of the checks (R258) -/

section
variable {e : Engine} {x : ErrorName}

theorem stepEngine_err (h : stepEngine e = .error x) : x ∈ [.inconsistent] :=
  List.mem_singleton.2 (ite_eq_error.1 h).2

theorem runEngine_err {k : Nat} (h : runEngine k e = .error x) : x ∈ [.inconsistent] :=
  List.mem_singleton.2 (ite_eq_error.1 h).2

theorem checkConf_err {c : ConfTag} (h : checkConf c = .error x) : x = .invalidConfiguration := by
  unfold checkConf at h
  split at h <;> cases h
  rfl

theorem setPoly_err {taps : List Int} {reset enforce : Bool} (h : setPoly taps reset enforce e = .error x) :
    x ∈ [.invalidPolynomial, .incompatibleMutation] := by
  unfold setPoly at h
  split at h
  next hp => cases h; simp [(checkPoly_error.1 hp).2]
  · split at h <;> cases h
    simp

theorem setState_err {v : Bits} {enforce : Bool} (h : setState v enforce e = .error x) :
    x ∈ [.invalidState, .incompatibleMutation, .invalidOutputIndex] := by
  unfold setState at h
  split at h
  next hs => cases h; simp [(checkState_error.1 hs).2]
  · split at h
    · cases h; simp
    · split at h
      next hl => cases h; simp [(checkLength_error.1 hl).2]
      · split at h <;> cases h
        next ho => simp [(checkOidx_error.1 ho).2]

theorem setConf_err {c : ConfTag} (h : setConf c e = .error x) : x ∈ [.invalidConfiguration, .invalidState] := by
  unfold setConf at h
  split at h
  next hc => cases h; simp [checkConf_err hc]
  · split at h <;> cases h
    simp

theorem setOidx_err {i : Int} (h : setOidx i e = .error x) : x ∈ [.invalidOutputIndex] := by
  unfold setOidx at h
  split at h <;> cases h
  next ho => simp [(checkOidx_error.1 ho).2]

theorem construct_err {taps : List Int} {init : InitSpec} {c : ConfTag} {i : Int} {p : Policy} {u : UnitName} {n : Nat}
    (h : construct taps init c i p u n = .error x) :
    x ∈ [.invalidPolynomial, .invalidState, .invalidConfiguration, .invalidOutputIndex] := by
  unfold construct at h
  dsimp only at h
  split at h
  next hp => cases h; simp [(checkPoly_error.1 hp).2]
  · split at h
    next hs => cases h; simp [(checkState_error.1 hs).2]
    · split at h
      next hl => cases h; simp [(checkLength_error.1 hl).2]
      · split at h
        next hc => cases h; simp [checkConf_err hc]
        · split at h <;> cases h
          next ho => simp [(checkOidx_error.1 ho).2]

end

/-! ### The errors of the shared operations (R93, R259, R264) -/

section
variable {s s' : State} {t : EngineRef} {x : ErrorName}

theorem fail_err {y : ErrorName} (h : fail y s = .next s') (hx : s'.response = some (.err x)) : x = y := by
  cases h; cases hx; rfl

theorem answer_not_err {v : Value} (h : answer v s = .next s') : s'.response ≠ some (.err x) := by
  cases h; exact nofun

/-- A writing command errs over its slot or over what it would do to the engine. -/
theorem onEngine_err {f : Engine → Except ErrorName (Value × Engine)} {own : List ErrorName}
    (hf : ∀ {e y}, f e = .error y → y ∈ own) (h : onEngine t f s = .next s') (hx : s'.response = some (.err x)) :
    x ∈ .invalidCommand :: .notConstructed :: own := by
  unfold onEngine at h
  split at h
  · simp [fail_err h hx]
  · split at h
    · simp [fail_err h hx]
    · split at h
      next he => simp [fail_err h hx, hf he]
      · exact absurd hx (answer_not_err h)

theorem execENew_err {taps : List Int} {init : InitSpec} {c : ConfTag} {i : Int} {p : Policy}
    (h : execENew t taps init c i p s = .next s') (hx : s'.response = some (.err x)) :
    x ∈ [.invalidCommand, .invalidPolynomial, .invalidState, .invalidConfiguration, .invalidOutputIndex] := by
  unfold execENew at h
  dsimp only at h
  split at h
  · simp [fail_err h hx]
  · split at h
    next hc => exact fail_err h hx ▸ List.mem_cons_of_mem _ (construct_err hc)
    · exact absurd hx (answer_not_err h)

theorem readEngine_err {f : Engine → Value} (h : readEngine t f s = .next s') (hx : s'.response = some (.err x)) :
    x ∈ [.notConstructed] := by
  obtain ⟨-, rfl⟩ | ⟨e, -, rfl⟩ := readEngine_cases h <;> cases hx
  simp

theorem onA51_err {f : A51 → Value × A51} (h : onA51 f s = .next s') (hx : s'.response = some (.err x)) :
    x ∈ [.notConstructed] := by
  obtain ⟨-, rfl⟩ | ⟨u, -, rfl⟩ := onA51_cases h <;> cases hx
  simp

theorem onGeffe_err {f : Geffe → Value × Geffe} (h : onGeffe f s = .next s') (hx : s'.response = some (.err x)) :
    x ∈ [.notConstructed] := by
  obtain ⟨-, rfl⟩ | ⟨u, spare, -, rfl⟩ := onGeffe_cases h <;> cases hx
  simp

theorem onGeffe3_err {f : Geffe3 → Value × Geffe3} (h : onGeffe3 f s = .next s') (hx : s'.response = some (.err x)) :
    x ∈ [.notConstructed] := by
  obtain ⟨-, rfl⟩ | ⟨u, -, rfl⟩ := onGeffe3_cases h <;> cases hx
  simp

theorem execA51Build_err (h : execA51Build s = .next s') (hx : s'.response = some (.err x)) :
    x ∈ [.invalidCommand, .invalidComposite] := by
  unfold execA51Build at h
  split at h
  · simp [fail_err h hx]
  · split at h
    next hb => simp [fail_err h hx, buildA51_error hb]
    · exact absurd hx (answer_not_err h)

theorem execGeffeBuild_err {k : Nat} (h : execGeffeBuild k s = .next s') (hx : s'.response = some (.err x)) :
    x ∈ [.invalidCommand, .invalidComposite] := by
  unfold execGeffeBuild at h
  split at h
  · simp [fail_err h hx]
  · split at h
    next hb => simp [fail_err h hx, buildGeffe_error hb]
    · exact absurd hx (answer_not_err h)

theorem execGeffe3Build_err (h : execGeffe3Build s = .next s') (hx : s'.response = some (.err x)) :
    x ∈ [.invalidCommand, .invalidComposite] := by
  unfold execGeffe3Build at h
  split at h
  · simp [fail_err h hx]
  · split at h
    next hb => simp [fail_err h hx, buildGeffe3_error hb]
    · exact absurd hx (answer_not_err h)

end

/-! ### The error table (R250) -/

/-- The errors a command can answer: R250's column of commands, read by command. -/
def raisable : Instr → List ErrorName
  | .eNew .. => [.invalidCommand, .invalidPolynomial, .invalidState, .invalidConfiguration, .invalidOutputIndex]
  | .eStep .. | .eRun .. | .eRunFull .. => [.invalidCommand, .notConstructed, .inconsistent]
  | .eReset .. => [.invalidCommand, .notConstructed]
  | .eSetPoly .. => [.invalidCommand, .notConstructed, .invalidPolynomial, .incompatibleMutation]
  | .eSetState .. => [.invalidCommand, .notConstructed, .invalidState, .incompatibleMutation, .invalidOutputIndex]
  | .eSetConf .. => [.invalidCommand, .notConstructed, .invalidConfiguration, .invalidState]
  | .eSetOidx .. => [.invalidCommand, .notConstructed, .invalidOutputIndex]
  | .a51Build | .geffeBuild .. | .geffe3Build => [.invalidCommand, .invalidComposite]
  | _ => [.notConstructed]

/-- The errors a command answers are those of its shared operation and of its own checks. -/
theorem mem_raisable_of_exec {i : Instr} {s s' : State} {x : ErrorName} (h : exec i s = .next s')
    (hx : s'.response = some (.err x)) : x ∈ raisable i := by
  cases i with
  | eNew => exact execENew_err h hx
  | eStep => exact onEngine_err stepEngine_err h hx
  | eRun | eRunFull => exact onEngine_err runEngine_err h hx
  | eReset => exact onEngine_err (f := fun e => .ok (.nothing, e.reset)) (own := []) nofun h hx
  | eSetPoly => exact onEngine_err setPoly_err h hx
  | eSetState => exact onEngine_err setState_err h hx
  | eSetConf => exact onEngine_err setConf_err h hx
  | eSetOidx => exact onEngine_err setOidx_err h hx
  | eGetState | eGetPoly | eGetSeq | eGetCount | eGetPeriod | eGetOutbit | eGetFb => exact readEngine_err h hx
  | a51Build => exact execA51Build_err h hx
  | a51Step | a51Run | a51Reset | a51GetSeq | a51GetCount | a51GetOutbit | a51GetCb => exact onA51_err h hx
  | geffeBuild => exact execGeffeBuild_err h hx
  | geffeStep | geffeRun | geffeReset | geffeGetSeq | geffeGetCount | geffeGetOutbit | geffeGetSel =>
    exact onGeffe_err h hx
  | geffe3Build => exact execGeffe3Build_err h hx
  | geffe3Step | geffe3Run | geffe3Reset | geffe3GetSeq | geffe3GetCount | geffe3GetOutbit => exact onGeffe3_err h hx

/-- Settles O50: the errors a command answers are `raisable`, and every one of these has the command in its row of the
table. -/
theorem errorsComeFromTheCommandsOfTheTable : Obligations.ErrorsComeFromTheCommandsOfTheTable := by
  intro i s s' x h hx
  have hm : x ∈ raisable i := mem_raisable_of_exec h hx
  clear h hx
  revert x
  cases i <;> simp [raisable]

end Sys2Proof.Machine

end
